-- ==== Sys2Proof/Word.lean ====
section
/-! DEFINITION. The word types of the engine (00_scope.md R13 to R15): the only values of a fixed
width are the 32-bit registers, the 8-bit bytes and the 64-bit Keccak lanes; every other number of
the model is an unbounded `Nat` or `Int`. -/

namespace Sys2Proof

/-- A 32-bit register value (R14). -/
abbrev Word := BitVec 32

/-- A byte (R15). -/
abbrev Byte := BitVec 8

/-- A 64-bit lane of the Keccak state (R160). -/
abbrev Lane := BitVec 64

/-- A byte string: a finite sequence of bytes, first byte first (R15). -/
abbrev Bytes := List Byte

end Sys2Proof
end

