-- ==== Sys2Proof/Config.lean ====
section
/-! DEFINITION. What an instance of the engine fixes for its lifetime (the two OPEN parameters of
00_scope.md R11: BUF_AW and BASE_POINT), and the free values: the bytes the spec calls "any value"
(93_implementation_defined.md U2, U3). The power-on contents of BUF (U1) are data of the power-on
event, not a free value here (log entry 2). -/

namespace Sys2Proof

/-- A pair of integers read as the coordinates of a point (45_edwards.md R260). A POINT field of BUF can hold
any two 66-byte integers (30_encoding.md R114), so that they are field elements, or on the curve, is a check
that each use makes. -/
structure Point where
  x : Nat
  y : Nat
deriving DecidableEq, Repr

/-- The parameters of one engine instance (R11, R12). They are arguments of the model: State carries
them, no step changes them, and a step of an instance whose parameters the spec refuses is refused. -/
structure Params where
  /-- BUF_AW: log2 of the size of BUF, 10 to 30. -/
  bufAw : Nat
  /-- BASE_POINT: the generator G of the protocols. -/
  basePoint : Point
deriving DecidableEq, Repr

/-- BUF_SIZE = 2^BUF_AW bytes (R11). -/
def Params.bufSize (p : Params) : Nat := 2 ^ p.bufAw

/-- The default instance of R11: BUF_AW = 16 and BASE_POINT = G_T, the point with x = 4 and even y
whose y 95_test_vectors.md section 2.6 gives. -/
def Params.default : Params where
  bufAw := 16
  basePoint :=
    { x := 4
      y := 0x11DD4B4952F9B741BDB15C806D24013B3EBF3BE43295904D1E4050B3C80F5920A145616EBB481557D7BFA955CBFB1CFD4E064B0DE40F93E22F8BCDFB41D0093B10C }

/-- FREE VALUE (93 U2, log entry 3): the byte the n-th draw of a host BufRead in BUSY returns. Nothing
constrains it, and two reads draw at two numbers, so they may differ. -/
opaque Config.busyReadByte : Nat → Byte

/-- FREE VALUE (93 U3, log entry 4): the byte that the n-th draw leaves in the destination region of
an aborted command. Nothing constrains it. -/
opaque Config.abortedByte : Nat → Byte

end Sys2Proof
end

