-- ==== Sys2Proof/Syntax.lean ====
section
/-! DEFINITION. The syntax of the engine: its 26 commands (30_encoding.md R110), the ways a command
word can fail to be one of them (R112), the registers of the REG space (10_state.md R33), the host's
accesses (20_memory.md R81, R82) and the events whose order makes a run (R92). -/

namespace Sys2Proof

/-- The commands, one per row of spec/opcode_table.json. A command word has no operand fields (R111):
the operands are in the ARG registers, latched at issue, in the roles of R115. -/
inductive Instr
  | nop
  | keccakf
  | cshake256
  | kmacxof256
  | kmac256
  | encLeft
  | encRight
  | encString
  | bytepad
  | fadd
  | fsub
  | fmul
  | finv
  | fexp
  | fsqrt
  | padd
  | pmul
  | pfromx
  | peq
  | keygen
  | pkEnc
  | pkDec
  | sign
  | verify
  | symEnc
  | symDec
deriving DecidableEq, Repr

/-- Why a command word is not a command (R112). -/
inductive DecodeError
  /-- CMD[7:0] is no opcode of R110. -/
  | illegalOpcode
  /-- The opcode is one of R110 and CMD[31:8] is not zero. -/
  | reservedField
deriving DecidableEq, Repr

/-- The word slots of the REG space (10_state.md R33). -/
inductive Reg
  | id
  | config
  | ctrl
  | status
  | cmd
  | outlen
  | arg (i : Fin 8)
  | rnd (j : Fin 16)
  /-- A reserved offset: reads as zero, ignores writes (R44). -/
  | reserved
deriving DecidableEq, Repr

/-- One host access (20_memory.md R81). A REG access carries the width in bits the host asked for,
since an access of any other width than 32 is a bus error (R82); of a write wider than a word only the
low 32 bits stand here, for such a write fails and its data is never looked at (log entry 10). -/
inductive Access
  | regRead (off width : Nat)
  | regWrite (off width : Nat) (v : Word)
  | bufRead (addr : Nat)
  | bufWrite (addr : Nat) (b : Byte)
deriving DecidableEq, Repr

/-- What may happen next. A run is one interleaving of these (20_memory.md R92); State holds the
interleaving still to come as a list, oldest first (log entry 1). -/
inductive Event
  /-- The host performs an access. -/
  | host (a : Access)
  /-- The engine takes its turn: the completion step, where it is enabled (40_command.md R141). -/
  | engine
  /-- Power-on reset, with the bytes BUF then holds: each byte any value, chosen once (R370). -/
  | powerOn (contents : List Host.Cell)
deriving DecidableEq, Repr

end Sys2Proof
end

