-- ==== Sys2Proof/WellFormed.lean ====
section
/-! DEFINITION. When a piece of syntax is well formed: a command word (30_encoding.md R110 to R112), a
host access (20_memory.md R82, R83) and the range of the parameter BUF_AW (00_scope.md R11). A term of
Instr carries no operand, so every one of them is well formed; what can be ill formed is the word that
selects it. -/

namespace Sys2Proof

/-- The opcode values of R110, in the order of its table. -/
def assignedOpcodes : List Nat :=
  [0x00, 0x01, 0x02, 0x03, 0x04, 0x08, 0x09, 0x0A, 0x0B, 0x10, 0x11, 0x12, 0x13, 0x14, 0x15, 0x20,
   0x21, 0x22, 0x23, 0x30, 0x31, 0x32, 0x33, 0x34, 0x35, 0x36]

/-- CMD[7:0] is an opcode of R110 and CMD[31:8] = 0 (R111, R112). -/
def wfCommandWord (w : Word) : Bool :=
  assignedOpcodes.contains (w.toNat % 2 ^ 8) && w.toNat / 2 ^ 8 == 0

/-- The accesses the engine accepts: a REG access is a whole 32-bit word at a multiple of 4 below 0x100
(R82), a BUF access is one byte below BUF_SIZE (R83). -/
def Access.wf (bufSize : Nat) : Access → Bool
  | .regRead off width => width == 32 && off % 4 == 0 && decide (off < 0x100)
  | .regWrite off width _ => width == 32 && off % 4 == 0 && decide (off < 0x100)
  | .bufRead a => decide (a < bufSize)
  | .bufWrite a _ => decide (a < bufSize)

/-- 10 ≤ BUF_AW ≤ 30 (R11). -/
def Params.wfBufAw (p : Params) : Bool := decide (10 ≤ p.bufAw) && decide (p.bufAw ≤ 30)

end Sys2Proof
end

