-- ==== Sys2Proof/Decode.lean ====
section
/-! DEFINITION. The decoder of the latched command word (30_encoding.md R110 to R112), total on all
32-bit words and rejecting by name, and after it the encoder, written from the same table. A command
word is one REG word, accessed only whole, so its bytes have no order (20_memory.md R84). -/

namespace Sys2Proof

/-- OPC = CMD[7:0] (R111). -/
def opcodeField (w : Word) : Byte := w.extractLsb' 0 8

/-- RSV = CMD[31:8] (R111). -/
def reservedBits (w : Word) : BitVec 24 := w.extractLsb' 8 24

/-- The opcode map of R110, read from the opcode. Every value without a row is none (R117). -/
def instrOfOpcode (o : Byte) : Option Instr :=
  match o.toNat with
  | 0x00 => some .nop
  | 0x01 => some .keccakf
  | 0x02 => some .cshake256
  | 0x03 => some .kmacxof256
  | 0x04 => some .kmac256
  | 0x08 => some .encLeft
  | 0x09 => some .encRight
  | 0x0A => some .encString
  | 0x0B => some .bytepad
  | 0x10 => some .fadd
  | 0x11 => some .fsub
  | 0x12 => some .fmul
  | 0x13 => some .finv
  | 0x14 => some .fexp
  | 0x15 => some .fsqrt
  | 0x20 => some .padd
  | 0x21 => some .pmul
  | 0x22 => some .pfromx
  | 0x23 => some .peq
  | 0x30 => some .keygen
  | 0x31 => some .pkEnc
  | 0x32 => some .pkDec
  | 0x33 => some .sign
  | 0x34 => some .verify
  | 0x35 => some .symEnc
  | 0x36 => some .symDec
  | _ => none

/-- R112: the opcode is checked before the reserved bits, so a word that is wrong in both ways is an
illegal opcode. -/
def decode (w : Word) : Except DecodeError Instr :=
  match instrOfOpcode (opcodeField w) with
  | none => .error .illegalOpcode
  | some i => if reservedBits w = 0 then .ok i else .error .reservedField

/-- The opcode of each command, from the rows of R110. -/
def opcode : Instr → Byte
  | .nop => 0x00
  | .keccakf => 0x01
  | .cshake256 => 0x02
  | .kmacxof256 => 0x03
  | .kmac256 => 0x04
  | .encLeft => 0x08
  | .encRight => 0x09
  | .encString => 0x0A
  | .bytepad => 0x0B
  | .fadd => 0x10
  | .fsub => 0x11
  | .fmul => 0x12
  | .finv => 0x13
  | .fexp => 0x14
  | .fsqrt => 0x15
  | .padd => 0x20
  | .pmul => 0x21
  | .pfromx => 0x22
  | .peq => 0x23
  | .keygen => 0x30
  | .pkEnc => 0x31
  | .pkDec => 0x32
  | .sign => 0x33
  | .verify => 0x34
  | .symEnc => 0x35
  | .symDec => 0x36

/-- The command word of a command: RSV = 0 above its opcode (R111, R121). -/
def encode (i : Instr) : Word := 0#24 ++ opcode i

/-- The instruction the decoder reads from a table word of nbits bits, the bits above them zero. -/
def decodeTableWord (nbits w : Nat) : Option Instr :=
  match decode (BitVec.ofNat 32 (w % 2 ^ nbits)) with
  | .ok i => some i
  | .error _ => none

end Sys2Proof
end

