-- ==== Sys2Proof/Machine/Constants.lean ====
section
/-! DEFINITION. The constants of the engine (00_scope.md R10, R11). -/

namespace Sys2Proof.Machine

/-- P = 2^521 - 1, the field modulus (R10). The large powers of this file are written with exponents that
Lean's evaluators accept; Laws/Field.lean says that they are the spec's. -/
def P : Nat := 2 ^ 256 * 2 ^ 256 * 2 ^ 9 - 1

/-- D_CURVE = -376014 as a field element (R10). -/
def D_CURVE : Nat := P - 376014

/-- The cofactor of the curve (R10). -/
def COFACTOR : Nat := 4

/-- The neutral element O = (0, 1) (R10). -/
def NEUTRAL : Point := { x := 0, y := 1 }

/-- ENC_LIMIT = 2^2040, the exclusive bound of encode_left and encode_right (R10). -/
def ENC_LIMIT : Nat := 256 ^ 255

/-- R_ORDER = 2^519 - 3375...5765, the order of the subgroup of the base point (R11, 92_eei_decisions.md D19). -/
def R_ORDER : Nat :=
  2 ^ 256 * 2 ^ 256 * 2 ^ 7 - 337554763258501705789107630418782636071904961214051226618635150085779108655765

/-- STATE_BYTES: a Keccak state has 200 bytes (R10). -/
def STATE_BYTES : Nat := 200

/-- RATE: the sponge's rate in bytes (R10). -/
def RATE : Nat := 136

/-- CAPACITY = 200 - 136 bytes (R10). -/
def CAPACITY : Nat := 64

/-- W66: the width in bytes of every integer field of BUF (R11). -/
def W_BYTES : Nat := 66

/-- A POINT field of BUF is two integer fields, 132 bytes (30_encoding.md R114). -/
def POINT_BYTES : Nat := 132

/-- The ID register's value, "KCE1" in ASCII (00_scope.md R3, 10_state.md R34). -/
def ID_VALUE : Word := 0x4B434531

end Sys2Proof.Machine
end

