-- ==== Sys2Proof/Machine/State.lean ====
section
/-! DEFINITION. The state of the machine (10_state.md R32), its reset value (R54), and why a step can
stop. State holds one engine instance, and beside it what the run needs of the host: the events still
to come, the data the last access returned and the recorded bus error. -/

namespace Sys2Proof.Machine

/-- The result codes of 60_exceptions.md R342. RC is an 8-bit field that never holds another value
(R342), so the stored value is one of these names and `ResultCode.code` gives its bits (log entry 13). -/
inductive ResultCode
  | ok
  | authFail
  | noSuchPoint
  | illegalOpcode
  | reservedField
  | badArg
  | badLength
  | bounds
  | noRnd
  | range
  | malformedInt
  | noInverse
deriving DecidableEq, Repr

/-- PHASE (10_state.md R48): BUSY exactly while a command is in flight. -/
inductive Phase
  | idle
  | busy
deriving DecidableEq, Repr

/-- LATCH (10_state.md R49): what issue captures for the command in flight. -/
structure Latch where
  cmd : Word
  args : Vector Word 8
  rndbuf : Vector Byte 64
  rndValid : Bool
deriving DecidableEq, Repr

/-- The two address spaces (20_memory.md R80). -/
inductive Space
  | reg
  | buf
deriving DecidableEq, Repr

/-- HOST_BUS_ERROR (60_exceptions.md R347): the offending space, the offset or address, and the access
width in bits. -/
structure HostBusError where
  space : Space
  addr : Nat
  width : Nat
deriving DecidableEq, Repr

/-- What the last host access gave back: a read returns a word of REG or a byte of BUF, a write and a
failed access return nothing (20_memory.md R81, R82). -/
inductive Reply
  | none
  | word (v : Word)
  | byte (b : Byte)
deriving DecidableEq, Repr

/-- The contents of BUF: address and byte, addresses strictly rising, no byte that is zero; an address
that is not listed holds zero (log entry 2). -/
abbrev Memory := List Host.Cell

/-- The state: every piece of R32, then what the model needs of the host's side. ID and CONFIG are
constants and STATUS, CTRL and irq are views of the fields below (Machine/Flags.lean). -/
structure State where
  /-- The parameters BUF_AW and BASE_POINT of the instance (R11); no step changes them. -/
  params : Params
  /-- CTRL.IRQ_EN (R37). -/
  irqEn : Bool
  /-- STATUS.DONE (R38). -/
  doneFlag : Bool
  /-- STATUS.WERR (R38). -/
  werrFlag : Bool
  /-- STATUS.EQ (R38). -/
  eqFlag : Bool
  /-- RC, STATUS[15:8] (R38). -/
  rc : ResultCode
  /-- CMD (R40). -/
  cmd : Word
  /-- OUTLEN (R41). -/
  outlen : Word
  /-- ARG0 to ARG7 (R42). -/
  args : Vector Word 8
  /-- RNDBUF (R45). -/
  rndbuf : Vector Byte 64
  /-- RND_VALID (R46). -/
  rndValid : Bool
  /-- PHASE (R48). -/
  phase : Phase
  /-- LATCH (R49), never read while PHASE is IDLE. -/
  latch : Latch
  /-- BUF (R50). -/
  buf : Memory
  /-- HOST_BUS_ERROR, recorded outside the engine (60_exceptions.md R347); none while no access failed. -/
  hostError : Option HostBusError
  /-- The model's own: the interleaving still to come, oldest first (20_memory.md R92, log entry 1). -/
  schedule : List Event
  /-- The model's own: what the last host access returned (log entry 9). -/
  reply : Reply
  /-- The model's own: how many free values were drawn so far (log entries 3 and 4). -/
  draws : Nat
deriving DecidableEq, Repr

/-- Why the machine stops with a fault. -/
inductive Fault
  /-- Raised by `step` when the host stopped at a bus error and no command is in flight: no further
  host step is ever taken (60_exceptions.md R347: "The model treats it as stuck"). Safe: the spec
  stops the host there. -/
  | hostBusError (e : HostBusError)
deriving DecidableEq, Repr

/-- Why a step has no meaning. -/
inductive Refusal
  /-- Raised by an arm of `exec` for a command that has no meaning yet (none is left). Safe. -/
  | notModelled (mnemonic : String)
  /-- Raised by `step` for an instance whose BUF_AW or BASE_POINT the spec refuses (00_scope.md R11, R12;
  93_implementation_defined.md I7, I8, U12: "refuse"). Safe: the spec gives such an instance no meaning. -/
  | invalidConfiguration
deriving DecidableEq, Repr

/-- LATCH after reset: R54 leaves it unspecified and never read, so its value is the model's choice
(log entry 5). -/
def Latch.reset : Latch where
  cmd := 0
  args := Vector.replicate 8 0
  rndbuf := Vector.replicate 64 0
  rndValid := false

/-- The machine right after power-on reset (10_state.md R54, 70_reset_and_hazards.md R370), for the
default instance of R11, with no byte of BUF listed and no event to come. -/
def State.reset : State where
  params := Params.default
  irqEn := false
  doneFlag := false
  werrFlag := false
  eqFlag := false
  rc := .ok
  cmd := 0
  outlen := 0
  args := Vector.replicate 8 0
  rndbuf := Vector.replicate 64 0
  rndValid := false
  phase := .idle
  latch := Latch.reset
  buf := []
  hostError := none
  schedule := []
  reply := .none
  draws := 0

end Sys2Proof.Machine
end

