-- ==== Sys2Proof/Machine/Ops.lean ====
section
/-! DEFINITION. The named operations over BUF and the registers: reading and writing bytes, issue
(40_command.md R140), the two ways a command completes (R141) and reset (70_reset_and_hazards.md R370
to R373). A failing completion, `State.failWith`, is this engine's form of taking an exception
(60_exceptions.md R341, R345); there is no return from one (R346). -/

namespace Sys2Proof.Machine

/-! ### BUF -/

/-- What an address of BUF that is not listed holds (log entry 2). -/
def Memory.unlisted : Byte := 0

/-- The canonical form: addresses strictly rising, no entry equal to what an unlisted address holds. -/
abbrev Memory.wf (m : Memory) : Prop :=
  m.Pairwise (fun c d => c.1 < d.1) ∧ ∀ c ∈ m, c.2 ≠ Memory.unlisted

/-- The byte of BUF at an address. -/
def Memory.read : Memory → Nat → Byte
  | [], _ => Memory.unlisted
  | (b, v) :: m, a => if a = b then v else Memory.read m a

/-- BUF[a .. a+n) (R17). -/
def Memory.readBytes (m : Memory) (a : Nat) : Nat → Bytes
  | 0 => []
  | n + 1 => m.read a :: Memory.readBytes m (a + 1) n

/-- The entries of a byte string that starts at an address. -/
def Memory.cells (a : Nat) : Bytes → Memory
  | [] => []
  | b :: s => if b = Memory.unlisted then Memory.cells (a + 1) s else (a, b) :: Memory.cells (a + 1) s

/-- BUF with a byte string written at an address: the entries below it, its own, the entries above it. -/
def Memory.write (m : Memory) (a : Nat) (s : Bytes) : Memory :=
  m.filter (fun c => decide (c.1 < a)) ++ Memory.cells a s ++
    m.filter (fun c => decide (a + s.length ≤ c.1))

/-- Contents built from any list of cells: of two cells of one address the later counts, and a cell
outside BUF counts nothing. -/
def Memory.ofCells (bufSize : Nat) : List Host.Cell → Memory → Memory
  | [], m => m
  | (a, b) :: cs, m => Memory.ofCells bufSize cs (if a < bufSize then m.write a [b] else m)

/-! ### What a command leaves -/

/-- One destination region and the bytes staged for it (40_command.md R143). -/
structure StagedWrite where
  addr : Nat
  data : Bytes
deriving DecidableEq, Repr

/-- What Exec gives a completion with RC = OK (40_command.md R141): eq, outlen, writes and consume of its
tuple. A failing Exec gives only its code (60_exceptions.md R341), so the tuple is `Except` a code. -/
structure Effect where
  eq : Bool
  outlen : Nat
  write : Option StagedWrite
  consume : Bool
deriving DecidableEq, Repr

/-- The outcome of Exec: a result code that `raise Fail` names, or an effect (R17, R341). -/
abbrev Result := Except ResultCode Effect

/-- complete(n) after MemWrite(a, n, v) (R17). -/
def Effect.store (a n : Nat) (v : Bytes) : Effect :=
  { eq := false, outlen := n, write := some { addr := a, data := v }, consume := false }

/-- complete(0) of a command that writes nothing to BUF, with STATUS.EQ <- eq (R17). -/
def Effect.flag (eq : Bool) : Effect :=
  { eq := eq, outlen := 0, write := none, consume := false }

/-- BUF with the staged write of an effect (R143). -/
def Memory.apply (m : Memory) : Option StagedWrite → Memory
  | none => m
  | some w => m.write w.addr w.data

/-- RNDBUF as 64 zero bytes (R47, R54). -/
def zeroRndbuf : Vector Byte 64 := Vector.replicate 64 0

/-! ### Issue and completion -/

/-- Issue (40_command.md R140): the host's write of v to CMD while PHASE is IDLE. -/
def State.issue (s : State) (v : Word) : State :=
  { s with
    cmd := v
    latch := { cmd := v, args := s.args, rndbuf := s.rndbuf, rndValid := s.rndValid }
    rc := .ok
    doneFlag := false
    eqFlag := false
    outlen := 0
    phase := .busy }

/-- Completion with RC = OK (R141): the staged write lands, OUTLEN and EQ are set, and RNDBUF is cleared
if the command consumes it (10_state.md R47). -/
def State.commit (s : State) (e : Effect) : State :=
  { s with
    buf := s.buf.apply e.write
    outlen := BitVec.ofNat 32 e.outlen
    eqFlag := e.eq
    rndbuf := if e.consume then zeroRndbuf else s.rndbuf
    rndValid := if e.consume then false else s.rndValid
    rc := .ok
    doneFlag := true
    phase := .idle }

/-- Completion with a failing code (R141, 60_exceptions.md R341, R345): this engine's exception. The code
goes to RC, OUTLEN and EQ are 0, and BUF, RNDBUF and every other register stay. -/
def State.failWith (s : State) (c : ResultCode) : State :=
  { s with
    outlen := 0
    eqFlag := false
    rc := c
    doneFlag := true
    phase := .idle }

/-- The completion step for an outcome of Exec (R141). -/
def State.complete (s : State) : Result → State
  | .ok e => s.commit e
  | .error c => s.failWith c

/-! ### Reset -/

/-- The register values that power-on reset and soft reset share (10_state.md R54, 70 R372). -/
def State.resetRegisters (s : State) : State :=
  { s with
    irqEn := false
    doneFlag := false
    werrFlag := false
    eqFlag := false
    rc := .ok
    cmd := 0
    outlen := 0
    args := Vector.replicate 8 0
    rndbuf := zeroRndbuf
    rndValid := false
    phase := .idle
    latch := Latch.reset }

/-- Power-on reset with the contents BUF then has (70 R370): nothing of the engine survives but its
parameters (R371). A recorded bus error is outside the engine and never cleared (60 R347, log entry 8). -/
def State.powerOn (s : State) (contents : List Host.Cell) : State :=
  { s.resetRegisters with buf := Memory.ofCells s.params.bufSize contents [] }

/-- The bytes an abort leaves in a region of n bytes: free values, drawn in ascending address order
(70 R373, 93 U3, log entry 4). -/
def abortedBytes (draws : Nat) : Nat → Bytes
  | 0 => []
  | n + 1 => Config.abortedByte draws :: abortedBytes (draws + 1) n

/-- The soft reset of a CTRL write with SRST = 1 while PHASE is IDLE (70 R372): BUF keeps its contents. -/
def State.softReset (s : State) : State := s.resetRegisters

/-- The abort of a SRST write while PHASE is BUSY (70 R373), for the outcome r the command in flight would
have had: the soft reset, and on OK every byte of the region it would have written becomes unspecified. -/
def State.abort (s : State) : Result → State
  | .error _ => s.softReset
  | .ok e =>
    match e.write with
    | none => s.softReset
    | some w =>
      { s.softReset with
        buf := s.buf.write w.addr (abortedBytes s.draws w.data.length)
        draws := s.draws + w.data.length }

end Sys2Proof.Machine
end

