-- ==== Sys2Proof/Machine/Flags.lean ====
section
/-! DEFINITION. The words the host sees of the flags: RC's bits, STATUS, CTRL, CONFIG, and the irq line
(10_state.md R35 to R38, R51, R53). -/

namespace Sys2Proof.Machine

/-- The bits of a result code (60_exceptions.md R342). -/
def ResultCode.code : ResultCode → Byte
  | .ok => 0x00
  | .authFail => 0x01
  | .noSuchPoint => 0x02
  | .illegalOpcode => 0x10
  | .reservedField => 0x11
  | .badArg => 0x12
  | .badLength => 0x13
  | .bounds => 0x14
  | .noRnd => 0x15
  | .range => 0x16
  | .malformedInt => 0x17
  | .noInverse => 0x18

/-- The result code of a command word that does not decode (30_encoding.md R112). -/
def decodeErrorCode : DecodeError → ResultCode
  | .illegalOpcode => .illegalOpcode
  | .reservedField => .reservedField

/-- STATUS.BUSY: 1 iff PHASE is BUSY (R38, R48). -/
def State.busyBit (s : State) : Bool := decide (s.phase = .busy)

/-- STATUS.ERR: 1 iff RC ≥ 0x10; it is not stored (R32, R38). -/
def State.errBit (s : State) : Bool := decide (0x10 ≤ s.rc.code.toNat)

/-- The word a read of STATUS returns (R38), fields from bit 31 down to bit 0. -/
def State.statusWord (s : State) : Word :=
  0#16 ++ s.rc.code ++ 0#2 ++ BitVec.ofBool s.eqFlag ++ BitVec.ofBool s.rndValid ++
    BitVec.ofBool s.werrFlag ++ BitVec.ofBool s.errBit ++ BitVec.ofBool s.doneFlag ++
    BitVec.ofBool s.busyBit

/-- The word a read of CTRL returns: IRQ_EN in bit 0, SRST and the reserved bits zero (R37). -/
def State.ctrlWord (s : State) : Word := 0#31 ++ BitVec.ofBool s.irqEn

/-- The word a read of CONFIG returns (R35). -/
def State.configWord (s : State) : Word :=
  BitVec.ofNat 32 (s.params.bufAw + RATE * 2 ^ 8 + W_BYTES * 2 ^ 16)

/-- The output line irq = CTRL.IRQ_EN ∧ STATUS.DONE (R51, 60_exceptions.md R352). -/
def State.irq (s : State) : Bool := s.irqEn && s.doneFlag

end Sys2Proof.Machine
end

