-- ==== Sys2Proof/Machine/Nop.lean ====
section
/-! DEFINITION. NOP (40_command.md R145). -/

namespace Sys2Proof.Machine

/-- Exec_NOP: complete(0) (R145). -/
def effectNop (_s : State) : Result := .ok (Effect.flag false)

/-- NOP: it only completes, which raises DONE (R145). -/
def execNop (s : State) : Host.Outcome State Fault Refusal := .next (s.complete (effectNop s))

end Sys2Proof.Machine
end

