-- ==== Sys2Proof/Machine/Bytes.lean ====
section
/-! DEFINITION. Byte strings and integers (00_scope.md R13 to R16): the byte order of every integer the
engine reads or writes is decided here. -/

namespace Sys2Proof.Machine

/-- The number of bits of n: 0 for 0, else the position of its top bit plus one (42_sponge.md R180). -/
def bitLen (n : Nat) : Nat := if n = 0 then 0 else n.log2 + 1

/-- int_be, from the bytes before: the value of `s` read on after a value `acc` (R16). -/
def intBeFrom (acc : Nat) : Bytes → Nat
  | [] => acc
  | b :: s => intBeFrom (acc * 256 + b.toNat) s

/-- int_be(s): the unsigned big-endian value of a byte string, 0 for the empty one (R16). -/
def intBe (s : Bytes) : Nat := intBeFrom 0 s

/-- The k-byte big-endian string of n: the first byte is the most significant (R16). For n < 256^k it is
the only k-byte string whose int_be is n. -/
def natBe : Nat → Nat → Bytes
  | 0, _ => []
  | k + 1, n => BitVec.ofNat 8 (n / 256 ^ k) :: natBe k n

/-- W66(n): the 66-byte field of an integer below 2^528 (R16). -/
def W66 (n : Nat) : Bytes := natBe 66 n

/-- The unsigned little-endian value of a byte string: the first byte is the least significant. Only the
lanes of a Keccak state use it (20_memory.md R84, 41_keccak.md R160). -/
def intLe : Bytes → Nat
  | [] => 0
  | b :: s => b.toNat + 256 * intLe s

/-- The k-byte little-endian string of n (41_keccak.md R160). -/
def natLe : Nat → Nat → Bytes
  | 0, _ => []
  | k + 1, n => BitVec.ofNat 8 n :: natLe k (n / 256)

/-- zeros(n): n bytes of value 0 (R15). -/
def zeros (n : Nat) : Bytes := List.replicate n 0

/-- a XOR b, bytewise; both operands have the same length (R15). -/
def xorBytes (a b : Bytes) : Bytes := List.zipWith (fun x y => x ^^^ y) a b

/-- (a - b) mod m as the non-negative residue, also when the difference is negative (R13). -/
def subMod (a b m : Nat) : Nat := (((a : Int) - (b : Int)) % (m : Int)).toNat

/-- The string "KMAC" (R15, 92_eei_decisions.md D35). -/
def strKMAC : Bytes := [0x4B, 0x4D, 0x41, 0x43]

/-- The customization strings of 43_kmac.md R212, ASCII codes of their letters. -/
def strK : Bytes := [0x4B]
def strP : Bytes := [0x50]
def strPKE : Bytes := [0x50, 0x4B, 0x45]
def strPKA : Bytes := [0x50, 0x4B, 0x41]
def strN : Bytes := [0x4E]
def strT : Bytes := [0x54]
def strS : Bytes := [0x53]
def strSKE : Bytes := [0x53, 0x4B, 0x45]
def strSKA : Bytes := [0x53, 0x4B, 0x41]

end Sys2Proof.Machine
end

