-- ==== Sys2Proof/Machine/Operands.lean ====
section
/-! DEFINITION. The operands of a command: the roles of the ARG registers (30_encoding.md R113, R115),
the layouts of BUF (R114) and the checks a command makes of them (20_memory.md R86, 44_field.md R231). -/

namespace Sys2Proof.Machine

/-! ### The operand formats of R115 -/

/-- The role of an ARG register for a command (R113), an address with its layout where it names a region
(R115). -/
inductive ArgRole
  /-- Not used: ignored, and may hold any value. -/
  | ignored
  /-- The start address of a region the command reads. -/
  | src
  /-- The start address of the region the command writes. -/
  | dst
  /-- The length in bytes of a region. -/
  | len
  /-- An output length in bits. -/
  | bits
  /-- A parity bit. -/
  | par
  /-- A bytepad width in bytes. -/
  | width
deriving DecidableEq, Repr

/-- The role of each of ARG0 to ARG7, one row of R115 per command. -/
def argRoles : Instr → Vector ArgRole 8
  | .nop =>
    #v[.ignored, .ignored, .ignored, .ignored, .ignored, .ignored, .ignored, .ignored]
  | .keccakf =>
    #v[.src, .dst, .ignored, .ignored, .ignored, .ignored, .ignored, .ignored]
  | .cshake256 | .kmacxof256 | .kmac256 =>
    #v[.src, .len, .src, .len, .src, .len, .dst, .bits]
  | .encLeft | .encRight | .encString =>
    #v[.src, .len, .dst, .ignored, .ignored, .ignored, .ignored, .ignored]
  | .bytepad =>
    #v[.src, .len, .width, .dst, .ignored, .ignored, .ignored, .ignored]
  | .fadd | .fsub | .fmul | .fexp =>
    #v[.src, .src, .dst, .ignored, .ignored, .ignored, .ignored, .ignored]
  | .finv =>
    #v[.src, .ignored, .dst, .ignored, .ignored, .ignored, .ignored, .ignored]
  | .fsqrt | .pfromx =>
    #v[.src, .par, .dst, .ignored, .ignored, .ignored, .ignored, .ignored]
  | .padd | .pmul =>
    #v[.src, .src, .dst, .ignored, .ignored, .ignored, .ignored, .ignored]
  | .peq =>
    #v[.src, .src, .ignored, .ignored, .ignored, .ignored, .ignored, .ignored]
  | .keygen =>
    #v[.src, .len, .dst, .ignored, .ignored, .ignored, .ignored, .ignored]
  | .pkEnc =>
    #v[.src, .len, .src, .dst, .ignored, .ignored, .ignored, .ignored]
  | .pkDec =>
    #v[.src, .len, .src, .len, .dst, .ignored, .ignored, .ignored]
  | .sign =>
    #v[.src, .len, .src, .len, .dst, .ignored, .ignored, .ignored]
  | .verify =>
    #v[.src, .len, .src, .src, .ignored, .ignored, .ignored, .ignored]
  | .symEnc =>
    #v[.src, .len, .src, .len, .dst, .ignored, .ignored, .ignored]
  | .symDec =>
    #v[.src, .len, .src, .len, .dst, .ignored, .ignored, .ignored]

/-- The ARG register that holds the destination address, where the format has one (R115). -/
def dstArg : Instr → Option (Fin 8)
  | .nop | .peq | .verify => none
  | .keccakf => some 1
  | .cshake256 | .kmacxof256 | .kmac256 => some 6
  | .encLeft | .encRight | .encString => some 2
  | .bytepad => some 3
  | .fadd | .fsub | .fmul | .finv | .fexp | .fsqrt => some 2
  | .padd | .pmul | .pfromx => some 2
  | .keygen => some 2
  | .pkEnc => some 3
  | .pkDec | .sign | .symEnc | .symDec => some 4

/-! ### Reading operands -/

/-- ARG[i]: the latched value of operand register i, as an unsigned integer (R17, R113). -/
def arg (s : State) (i : Fin 8) : Nat := s.latch.args[i].toNat

/-- MemRead(a, n) (R17): the bytes at issue, which stay until completion (20_memory.md R96). -/
def memRead (s : State) (a n : Nat) : Bytes := s.buf.readBytes a n

/-- The integer of a W66 field (R114). -/
def readW66 (s : State) (a : Nat) : Nat := intBe (memRead s a W_BYTES)

/-- The point of a POINT field: X at a, Y at a + 66 (R114). -/
def readPoint (s : State) (a : Nat) : Point :=
  { x := readW66 s a, y := readW66 s (a + W_BYTES) }

/-- A point as BUF holds it: W66(X) || W66(Y) (R114). -/
def pointBytes (p : Point) : Bytes := W66 p.x ++ W66 p.y

/-! ### Checks -/

/-- Goes on when the condition holds, else raises the code. -/
def require (cond : Bool) (c : ResultCode) : Except ResultCode Unit :=
  if cond then .ok () else .error c

/-- CheckRegion(a, n) passes iff a + n ≤ BUF_SIZE, in unbounded integers (20_memory.md R86). -/
def checkRegion (s : State) (a n : Nat) : Except ResultCode Unit :=
  require (decide (a + n ≤ s.params.bufSize)) .bounds

/-- A field element below P, else RANGE (44_field.md R231). -/
def checkField (v : Nat) : Except ResultCode Unit := require (decide (v < P)) .range

/-- Both coordinates are field elements, as those of a point of the curve are (45_edwards.md R260,
44_field.md R230). -/
abbrev Reduced (p : Point) : Prop := p.x < P ∧ p.y < P

/-- A point whose coordinates are both below P, else RANGE (45_edwards.md R265). -/
def checkPoint (p : Point) : Except ResultCode Unit := require (decide (Reduced p)) .range

end Sys2Proof.Machine
end

