-- ==== Sys2Proof/Machine/Field.lean ====
section
/-! DEFINITION. Arithmetic modulo P and the commands FADD, FSUB, FMUL, FINV, FEXP and FSQRT (44_field.md
R230 to R239). Products and differences are exact and reduced once, at the end (R230, R239). -/

namespace Sys2Proof.Machine

/-- Square and multiply over the low n bits of e, from the top one down, after a value acc. -/
def fpowFrom (a e : Nat) : Nat → Nat → Nat
  | 0, acc => acc
  | n + 1, acc => fpowFrom a e n (acc * acc % P * (if e.testBit n then a else 1) % P)

/-- a^e mod P, with a^0 = 1 also for a = 0 (R236); `Laws.fpow_eq_pow_mod` says so. -/
def fpow (a e : Nat) : Nat := fpowFrom a e (bitLen e) 1

/-- finv(a) = a^(P-2) mod P, the inverse of a modulo the prime P (R235). -/
def finv (a : Nat) : Nat := fpow a (P - 2)

/-- The candidate root of R237: v^((P+1)/4), its sign flipped where its parity is not the requested one. -/
def sqrtCandidate (v par : Nat) : Nat :=
  let c := fpow v ((P + 1) / 4)
  if c % 2 ≠ par then (P - c) % P else c

/-- fsqrt(v, par) (R237): the candidate, where it passes both checks. -/
def fsqrt (v par : Nat) : Except ResultCode Nat :=
  let r := sqrtCandidate v par
  if r * r % P ≠ v then .error .noSuchPoint
  else if r % 2 ≠ par then .error .noSuchPoint
  else .ok r

/-- The shape of FADD, FSUB and FMUL: two field elements, a result field (R232 to R234). -/
def fieldBinary (f : Nat → Nat → Nat) (s : State) : Result := do
  checkRegion s (arg s 0) W_BYTES
  checkRegion s (arg s 1) W_BYTES
  checkRegion s (arg s 2) W_BYTES
  let a := readW66 s (arg s 0)
  let b := readW66 s (arg s 1)
  checkField a
  checkField b
  return Effect.store (arg s 2) W_BYTES (W66 (f a b))

/-- Exec_FADD (R232). -/
def effectFadd (s : State) : Result := fieldBinary (fun a b => (a + b) % P) s

/-- FADD (R232). -/
def execFadd (s : State) : Host.Outcome State Fault Refusal := .next (s.complete (effectFadd s))

/-- Exec_FSUB (R233). -/
def effectFsub (s : State) : Result := fieldBinary (fun a b => subMod a b P) s

/-- FSUB (R233). -/
def execFsub (s : State) : Host.Outcome State Fault Refusal := .next (s.complete (effectFsub s))

/-- Exec_FMUL (R234). -/
def effectFmul (s : State) : Result := fieldBinary (fun a b => a * b % P) s

/-- FMUL (R234). -/
def execFmul (s : State) : Host.Outcome State Fault Refusal := .next (s.complete (effectFmul s))

/-- Exec_FINV (R235). -/
def effectFinv (s : State) : Result := do
  checkRegion s (arg s 0) W_BYTES
  checkRegion s (arg s 2) W_BYTES
  let a := readW66 s (arg s 0)
  checkField a
  require (decide (a ≠ 0)) .noInverse
  return Effect.store (arg s 2) W_BYTES (W66 (finv a))

/-- FINV (R235). -/
def execFinv (s : State) : Host.Outcome State Fault Refusal := .next (s.complete (effectFinv s))

/-- Exec_FEXP (R236): the exponent is any W66 value. -/
def effectFexp (s : State) : Result := do
  checkRegion s (arg s 0) W_BYTES
  checkRegion s (arg s 1) W_BYTES
  checkRegion s (arg s 2) W_BYTES
  let a := readW66 s (arg s 0)
  let e := readW66 s (arg s 1)
  checkField a
  return Effect.store (arg s 2) W_BYTES (W66 (fpow a e))

/-- FEXP (R236). -/
def execFexp (s : State) : Host.Outcome State Fault Refusal := .next (s.complete (effectFexp s))

/-- Exec_FSQRT (R238). -/
def effectFsqrt (s : State) : Result := do
  require (decide (arg s 1 ≤ 1)) .badArg
  checkRegion s (arg s 0) W_BYTES
  checkRegion s (arg s 2) W_BYTES
  let v := readW66 s (arg s 0)
  checkField v
  let r ← fsqrt v (arg s 1)
  return Effect.store (arg s 2) W_BYTES (W66 r)

/-- FSQRT (R238). -/
def execFsqrt (s : State) : Host.Outcome State Fault Refusal := .next (s.complete (effectFsqrt s))

end Sys2Proof.Machine
end

