-- ==== Sys2Proof/Machine/Edwards.lean ====
section
/-! DEFINITION. The Edwards curve and the commands PADD, PMUL, PFROMX and PEQ (45_edwards.md R260 to
R269), and which base points the spec accepts (00_scope.md R12). -/

namespace Sys2Proof.Machine

/-- The curve equation x² + y² = 1 + D_CURVE·x²·y² modulo P (R260). -/
def onCurve (p : Point) : Bool :=
  (p.x * p.x + p.y * p.y) % P == (1 + D_CURVE * (p.x * p.x) * (p.y * p.y)) % P

/-- padd: the addition law, also for doubling; a zero denominator is NO_INVERSE (R261). -/
def padd (p q : Point) : Except ResultCode Point :=
  let t := D_CURVE * p.x * q.x * p.y * q.y % P
  let d1 := (1 + t) % P
  let d2 := subMod 1 t P
  if d1 = 0 ∨ d2 = 0 then .error .noInverse
  else
    .ok
      { x := (p.x * q.y + p.y * q.x) * finv d1 % P
        y := subMod (p.y * q.y) (p.x * q.x) P * finv d2 % P }

/-- The double-and-add of R262 over the low n bits of k, from the top one down, after a value V. -/
def pmulFrom (Q : Point) (k : Nat) : Nat → Point → Except ResultCode Point
  | 0, V => .ok V
  | n + 1, V => do
    let W ← padd V V
    let W' ← if k.testBit n then padd W Q else .ok W
    pmulFrom Q k n W'

/-- pmul(Q, k): the accumulator starts at the neutral element (R262, 90_conflicts.md C1). -/
def pmul (Q : Point) (k : Nat) : Except ResultCode Point := pmulFrom Q k (bitLen k) NEUTRAL

/-- point_from_x(x, par) (R263). -/
def pointFromX (x par : Nat) : Except ResultCode Point := do
  let den := (1 + 376014 * x * x) % P
  require (decide (den ≠ 0)) .noSuchPoint
  let v := subMod 1 (x * x) P * finv den % P
  let y ← fsqrt v par
  return { x := x, y := y }

/-- The three conditions of 00_scope.md R12 on a base point, which is a pair of field elements (R260): it is
on the curve, not the neutral element, and of order R_ORDER. -/
def baseAccepted (G : Point) : Bool :=
  decide (Reduced G) && onCurve G && decide (G ≠ NEUTRAL) &&
    match pmul G R_ORDER with
    | .ok Z => decide (Z = NEUTRAL)
    | .error _ => false

/-- An instance the spec gives a meaning: 10 ≤ BUF_AW ≤ 30 and a base point of R12. The default base point
is one of them (`baseAccepted_default` of Laws/Order.lean), and naming it first spares a run with it the 519
doublings (log entry 6). -/
def paramsAccepted (p : Params) : Bool :=
  p.wfBufAw && (decide (p.basePoint = Params.default.basePoint) || baseAccepted p.basePoint)

/-- Exec_PADD (R266). -/
def effectPadd (s : State) : Result := do
  checkRegion s (arg s 0) POINT_BYTES
  checkRegion s (arg s 1) POINT_BYTES
  checkRegion s (arg s 2) POINT_BYTES
  let p := readPoint s (arg s 0)
  let q := readPoint s (arg s 1)
  checkPoint p
  checkPoint q
  let r ← padd p q
  return Effect.store (arg s 2) POINT_BYTES (pointBytes r)

/-- PADD (R266). -/
def execPadd (s : State) : Host.Outcome State Fault Refusal := .next (s.complete (effectPadd s))

/-- Exec_PMUL (R267): the scalar is any W66 value and is never reduced. -/
def effectPmul (s : State) : Result := do
  checkRegion s (arg s 0) POINT_BYTES
  checkRegion s (arg s 1) W_BYTES
  checkRegion s (arg s 2) POINT_BYTES
  let p := readPoint s (arg s 0)
  let k := readW66 s (arg s 1)
  checkPoint p
  let r ← pmul p k
  return Effect.store (arg s 2) POINT_BYTES (pointBytes r)

/-- PMUL (R267). -/
def execPmul (s : State) : Host.Outcome State Fault Refusal := .next (s.complete (effectPmul s))

/-- Exec_PFROMX (R268). -/
def effectPfromx (s : State) : Result := do
  require (decide (arg s 1 ≤ 1)) .badArg
  checkRegion s (arg s 0) W_BYTES
  checkRegion s (arg s 2) POINT_BYTES
  let x := readW66 s (arg s 0)
  checkField x
  let r ← pointFromX x (arg s 1)
  return Effect.store (arg s 2) POINT_BYTES (pointBytes r)

/-- PFROMX (R268). -/
def execPfromx (s : State) : Host.Outcome State Fault Refusal := .next (s.complete (effectPfromx s))

/-- Exec_PEQ (R269): equality of both coordinates as integers (R264); nothing is written to BUF. -/
def effectPeq (s : State) : Result := do
  checkRegion s (arg s 0) POINT_BYTES
  checkRegion s (arg s 1) POINT_BYTES
  let p := readPoint s (arg s 0)
  let q := readPoint s (arg s 1)
  checkPoint p
  checkPoint q
  return Effect.flag (decide (p.x = q.x) && decide (p.y = q.y))

/-- PEQ (R269). -/
def execPeq (s : State) : Host.Outcome State Fault Refusal := .next (s.complete (effectPeq s))

end Sys2Proof.Machine
end

