-- ==== Sys2Proof/Machine/Keccak.lean ====
section
/-! DEFINITION. The permutation Keccak-f[1600] and KECCAKF (41_keccak.md R160 to R170). The 25 lanes stand
in a list, lane A[x, y] at place x + 5·y. -/

namespace Sys2Proof.Machine

/-- The 25 lanes of a state, A[x, y] at place x + 5·y (R160). -/
abbrev Lanes := List Lane

/-- A[x, y], the coordinates taken mod 5 (R160, R161). -/
def lane (A : Lanes) (x y : Nat) : Lane := A.getD (x % 5 + 5 * (y % 5)) 0

/-- The lanes A[x, y] = f x y for 0 ≤ x, y < 5. -/
def mkLanes (f : Nat → Nat → Lane) : Lanes := (List.range 25).map fun k => f (k % 5) (k / 5)

/-- The first n little-endian 64-bit words of a byte string (R160). -/
def lanesOf : Nat → Bytes → Lanes
  | 0, _ => []
  | n + 1, S => BitVec.ofNat 64 (intLe (S.take 8)) :: lanesOf n (S.drop 8)

/-- The bytes of lanes, each lane as 8 little-endian bytes at its place (R160, the inverse mapping). -/
def bytesOf : Lanes → Bytes
  | [] => []
  | v :: A => natLe 8 v.toNat ++ bytesOf A

/-- ROTL64(v, n): bit z moves to bit (z + n) mod 64 (R161). -/
def rotl64 (v : Lane) (n : Nat) : Lane := v.rotateLeft n

/-- RC[ir], row by row of the table of R168; there are the rounds 0 to 23 only. -/
def roundConstant : Nat → Lane
  | 0 => 0x0000000000000001
  | 1 => 0x0000000000008082
  | 2 => 0x800000000000808A
  | 3 => 0x8000000080008000
  | 4 => 0x000000000000808B
  | 5 => 0x0000000080000001
  | 6 => 0x8000000080008081
  | 7 => 0x8000000000008009
  | 8 => 0x000000000000008A
  | 9 => 0x0000000000000088
  | 10 => 0x0000000080008009
  | 11 => 0x000000008000000A
  | 12 => 0x000000008000808B
  | 13 => 0x800000000000008B
  | 14 => 0x8000000000008089
  | 15 => 0x8000000000008003
  | 16 => 0x8000000000008002
  | 17 => 0x8000000000000080
  | 18 => 0x000000000000800A
  | 19 => 0x800000008000000A
  | 20 => 0x8000000080008081
  | 21 => 0x8000000000008080
  | 22 => 0x0000000080000001
  | 23 => 0x8000000080008008
  | _ => 0

/-- The rotation offsets, row x, column y (R169). -/
def rotationOffsets : List (List Nat) :=
  [[0, 36, 3, 41, 18], [1, 44, 10, 45, 2], [62, 6, 43, 15, 61], [28, 55, 25, 21, 56],
   [27, 20, 39, 8, 14]]

/-- ROT[x][y] (R169). -/
def rotOffset (x y : Nat) : Nat := (rotationOffsets.getD x []).getD y 0

/-- C[x] of θ for x = 0..4, the parity of a column (R162). -/
def thetaC (A : Lanes) : List Lane :=
  (List.range 5).map fun x =>
    lane A x 0 ^^^ lane A x 1 ^^^ lane A x 2 ^^^ lane A x 3 ^^^ lane A x 4

/-- D[x] of θ for x = 0..4, from the column parities (R162). -/
def thetaD (C : List Lane) : List Lane :=
  (List.range 5).map fun x => C.getD ((x + 4) % 5) 0 ^^^ rotl64 (C.getD ((x + 1) % 5) 0) 1

/-- θ (R162). -/
def theta (A : Lanes) : Lanes :=
  let D := thetaD (thetaC A)
  mkLanes fun x y => lane A x y ^^^ D.getD x 0

/-- ρ (R163). -/
def rho (A : Lanes) : Lanes := mkLanes fun x y => rotl64 (lane A x y) (rotOffset x y)

/-- π (R164). -/
def piStep (A : Lanes) : Lanes := mkLanes fun x y => lane A (x + 3 * y) x

/-- χ (R165). -/
def chi (A : Lanes) : Lanes :=
  mkLanes fun x y => lane A x y ^^^ (~~~(lane A (x + 1) y) &&& lane A (x + 2) y)

/-- ι of round ir (R166). -/
def iota (A : Lanes) (ir : Nat) : Lanes :=
  mkLanes fun x y =>
    if x = 0 ∧ y = 0 then lane A x y ^^^ roundConstant ir else lane A x y

/-- Rnd(A, ir) = ι(χ(π(ρ(θ(A)))), ir) (R167). -/
def keccakRound (A : Lanes) (ir : Nat) : Lanes := iota (chi (piStep (rho (theta A)))) ir

/-- Rounds 0 to n - 1, in ascending order (R167). -/
def keccakRounds (A : Lanes) : Nat → Lanes
  | 0 => A
  | n + 1 => keccakRound (keccakRounds A n) n

/-- Keccak_f of a 200-byte string: 24 rounds (R167). -/
def keccakF (S : Bytes) : Bytes := bytesOf (keccakRounds (lanesOf 25 S) 24)

/-- Exec_KECCAKF (R170). -/
def effectKeccakf (s : State) : Result := do
  checkRegion s (arg s 0) STATE_BYTES
  checkRegion s (arg s 1) STATE_BYTES
  let S := memRead s (arg s 0) STATE_BYTES
  return Effect.store (arg s 1) STATE_BYTES (keccakF S)

/-- KECCAKF: Keccak_f of the 200-byte state at ARG0, written at ARG1 (R170). -/
def execKeccakf (s : State) : Host.Outcome State Fault Refusal :=
  .next (s.complete (effectKeccakf s))

end Sys2Proof.Machine
end

