-- ==== Sys2Proof/Machine/Sponge.lean ====
section
/-! DEFINITION. The encodings, the sponge and cSHAKE256, and the commands ENC_LEFT, ENC_RIGHT,
ENC_STRING, BYTEPAD and CSHAKE256 (42_sponge.md R180 to R193). -/

namespace Sys2Proof.Machine

/-! ### Encodings -/

/-- n of encode_left and encode_right: the fewest bytes that hold x, at least 1 (R180). -/
def encodingBytes (x : Nat) : Nat := max 1 ((bitLen x + 7) / 8)

/-- encode_left(x) on its domain x < 2^2040 (R180); the commands check the domain. -/
def encodeLeft (x : Nat) : Bytes :=
  BitVec.ofNat 8 (encodingBytes x) :: natBe (encodingBytes x) x

/-- encode_right(x) on its domain: the length byte comes last (R181). -/
def encodeRight (x : Nat) : Bytes :=
  natBe (encodingBytes x) x ++ [BitVec.ofNat 8 (encodingBytes x)]

/-- encode_string(s) = encode_left(8·|s|) || s; |s| < 2^32 in the engine, so never out of the domain (R182). -/
def encodeString (s : Bytes) : Bytes := encodeLeft (8 * s.length) ++ s

/-- bytepad(x, w) for w ≥ 1: the fewest zero bytes that make the length a multiple of w (R183). -/
def bytepad (x : Bytes) (w : Nat) : Bytes :=
  let z := encodeLeft w ++ x
  z ++ zeros ((w - z.length % w) % w)

/-- |bytepad(x, w)| for |x| = n, from the lengths alone: w·ceil((|encode_left(w)| + n) / w) (R192). -/
def bytepadLength (n w : Nat) : Nat := w * (((encodeLeft w).length + n + (w - 1)) / w)

/-! ### The sponge -/

/-- The last byte of a byte string XOR v (R184). -/
def xorLast (v : Byte) : Bytes → Bytes
  | [] => []
  | [b] => [b ^^^ v]
  | b :: c :: s => b :: xorLast v (c :: s)

/-- pad(P, c): the suffix byte, zeros up to a multiple of the rate, 0x80 into the last byte (R184). -/
def pad (p : Bytes) (c : Byte) : Bytes :=
  let q := p ++ [c]
  xorLast 0x80 (q ++ zeros ((RATE - q.length % RATE) % RATE))

/-- The absorption of the first m blocks of Q into S, one permutation a block (R185). -/
def absorbBlocks : Nat → Bytes → Bytes → Bytes
  | 0, _, S => S
  | m + 1, Q, S =>
    absorbBlocks m (Q.drop RATE) (keccakF (xorBytes S (Q.take RATE ++ zeros CAPACITY)))

/-- absorb(Q): from a fresh state of 200 zero bytes (R185, 10_state.md R36). -/
def absorb (Q : Bytes) : Bytes := absorbBlocks (Q.length / RATE) Q (zeros STATE_BYTES)

/-- m rate blocks of output, a permutation between two blocks (R186). -/
def squeezeBlocks : Nat → Bytes → Bytes
  | 0, _ => []
  | m + 1, S => S.take RATE ++ squeezeBlocks m (keccakF S)

/-- squeeze(S, n): the first n bytes of as many blocks as they take (R186). -/
def squeeze (S : Bytes) (n : Nat) : Bytes := (squeezeBlocks ((n + (RATE - 1)) / RATE) S).take n

/-- Sponge(P, c, n) (R187). -/
def sponge (p : Bytes) (c : Byte) (n : Nat) : Bytes := squeeze (absorb (pad p c)) n

/-- CSHAKE256(X, L, N, S), L in bits; plain SHAKE256 of X when N and S are both empty (R188). -/
def cshake256 (X : Bytes) (L : Nat) (N S : Bytes) : Bytes :=
  if N = [] ∧ S = [] then sponge X 0x1F (L / 8)
  else sponge (bytepad (encodeString N ++ encodeString S) RATE ++ X) 0x04 (L / 8)

/-! ### The commands -/

/-- Exec_ENC_LEFT and Exec_ENC_RIGHT, which differ in the encoding alone (R189, R190). The destination is
checked after the value (60_exceptions.md R343). -/
def encodeInteger (encoding : Nat → Bytes) (s : State) : Result := do
  checkRegion s (arg s 0) (arg s 1)
  let x := intBe (memRead s (arg s 0) (arg s 1))
  require (decide (x < ENC_LIMIT)) .malformedInt
  let e := encoding x
  checkRegion s (arg s 2) e.length
  return Effect.store (arg s 2) e.length e

/-- Exec_ENC_LEFT (R189). -/
def effectEncLeft (s : State) : Result := encodeInteger encodeLeft s

/-- ENC_LEFT (R189). -/
def execEncLeft (s : State) : Host.Outcome State Fault Refusal :=
  .next (s.complete (effectEncLeft s))

/-- Exec_ENC_RIGHT (R190). -/
def effectEncRight (s : State) : Result := encodeInteger encodeRight s

/-- ENC_RIGHT (R190). -/
def execEncRight (s : State) : Host.Outcome State Fault Refusal :=
  .next (s.complete (effectEncRight s))

/-- Exec_ENC_STRING (R191). -/
def effectEncString (s : State) : Result := do
  checkRegion s (arg s 0) (arg s 1)
  let e := encodeLeft (8 * arg s 1) ++ memRead s (arg s 0) (arg s 1)
  checkRegion s (arg s 2) e.length
  return Effect.store (arg s 2) e.length e

/-- ENC_STRING (R191). -/
def execEncString (s : State) : Host.Outcome State Fault Refusal :=
  .next (s.complete (effectEncString s))

/-- Exec_BYTEPAD (R192). The destination check needs only the length, so it comes before the padding is
built: a width of up to 2^32 - 1 bytes that does not fit in BUF is never laid out (log entry 12). -/
def effectBytepad (s : State) : Result := do
  require (decide (arg s 2 ≠ 0)) .badArg
  checkRegion s (arg s 0) (arg s 1)
  let n := bytepadLength (arg s 1) (arg s 2)
  checkRegion s (arg s 3) n
  return Effect.store (arg s 3) n (bytepad (memRead s (arg s 0) (arg s 1)) (arg s 2))

/-- BYTEPAD (R192). -/
def execBytepad (s : State) : Host.Outcome State Fault Refusal :=
  .next (s.complete (effectBytepad s))

/-- The shape of the FX commands: three strings, a destination and L in bits (R193, 43_kmac.md R213). The
function takes the strings at ARG0, ARG2, ARG4 in that order, then L. -/
def stringCommand (f : Bytes → Bytes → Bytes → Nat → Bytes) (s : State) : Result := do
  let L := arg s 7
  require (decide (L % 8 = 0)) .badLength
  checkRegion s (arg s 0) (arg s 1)
  checkRegion s (arg s 2) (arg s 3)
  checkRegion s (arg s 4) (arg s 5)
  checkRegion s (arg s 6) (L / 8)
  let a := memRead s (arg s 0) (arg s 1)
  let b := memRead s (arg s 2) (arg s 3)
  let c := memRead s (arg s 4) (arg s 5)
  return Effect.store (arg s 6) (L / 8) (f a b c L)

/-- Exec_CSHAKE256 (R193): X, N and S in the order of the ARG registers. -/
def effectCshake256 (s : State) : Result := stringCommand (fun X N S L => cshake256 X L N S) s

/-- CSHAKE256 (R193). -/
def execCshake256 (s : State) : Host.Outcome State Fault Refusal :=
  .next (s.complete (effectCshake256 s))

end Sys2Proof.Machine
end

