-- ==== Sys2Proof/Machine/Kmac.lean ====
section
/-! DEFINITION. KMACXOF256 and KMAC256 (43_kmac.md R210 to R214). -/

namespace Sys2Proof.Machine

/-- KMACXOF256(K, X, L, S) (R210): the suffix encode_right(0) does not depend on L. -/
def kmacxof256 (K X : Bytes) (L : Nat) (S : Bytes) : Bytes :=
  cshake256 (bytepad (encodeString K) RATE ++ X ++ encodeRight 0) L strKMAC S

/-- KMAC256(K, X, L, S) (R211): the suffix encode_right(L) commits to L. -/
def kmac256 (K X : Bytes) (L : Nat) (S : Bytes) : Bytes :=
  cshake256 (bytepad (encodeString K) RATE ++ X ++ encodeRight L) L strKMAC S

/-- Exec_KMACXOF256 (R213): K, X and S in the order of the ARG registers. -/
def effectKmacxof256 (s : State) : Result := stringCommand (fun K X S L => kmacxof256 K X L S) s

/-- KMACXOF256 (R213). -/
def execKmacxof256 (s : State) : Host.Outcome State Fault Refusal :=
  .next (s.complete (effectKmacxof256 s))

/-- Exec_KMAC256 (R214). -/
def effectKmac256 (s : State) : Result := stringCommand (fun K X S L => kmac256 K X L S) s

/-- KMAC256 (R214). -/
def execKmac256 (s : State) : Host.Outcome State Fault Refusal :=
  .next (s.complete (effectKmac256 s))

end Sys2Proof.Machine
end

