-- ==== Sys2Proof/Machine/ProtocolPk.lean ====
section
/-! DEFINITION. Key generation, the asymmetric cryptogram and the Schnorr signature (46_protocol_pk.md R290
to R299): KEYGEN, PK_ENC, PK_DEC, SIGN and VERIFY. -/

namespace Sys2Proof.Machine

/-- derive_s(pw) = 4·int_be(KMACXOF256(pw, "", 512, "K")) (R291). -/
def deriveS (pw : Bytes) : Nat := COFACTOR * intBe (kmacxof256 pw [] 512 strK)

/-- (ke, ka) from the shared point: the halves of KMACXOF256(W66(W.x), "", 1024, "P") (R293). -/
def kdfPk (W : Point) : Bytes × Bytes :=
  let kk := kmacxof256 (W66 W.x) [] 1024 strP
  (kk.take 64, (kk.drop 64).take 64)

/-- The message-bound nonce k = 4·int_be(KMACXOF256(W66(s), M, 512, "N")) (R296). -/
def signNonce (priv : Nat) (M : Bytes) : Nat := COFACTOR * intBe (kmacxof256 (W66 priv) M 512 strN)

/-- The challenge KMACXOF256(W66(U.x), M, 512, "T") (R297, R298). -/
def challenge (U : Point) (M : Bytes) : Bytes := kmacxof256 (W66 U.x) M 512 strT

/-- KMACXOF256(ke, "", 8·|data|, S) XOR data: the keystream cipher of both cryptograms (R294, R320). -/
def streamXor (ke data S : Bytes) : Bytes := xorBytes (kmacxof256 ke [] (8 * data.length) S) data

/-- RNDBUF as a byte string, first byte first (10_state.md R45). -/
def latchedRnd (s : State) : Bytes := s.latch.rndbuf.toList

/-- Exec_KEYGEN (R292). -/
def effectKeygen (s : State) : Result := do
  checkRegion s (arg s 0) (arg s 1)
  checkRegion s (arg s 2) POINT_BYTES
  let priv := deriveS (memRead s (arg s 0) (arg s 1))
  let V ← pmul s.params.basePoint priv
  return Effect.store (arg s 2) POINT_BYTES (pointBytes V)

/-- KEYGEN (R292). -/
def execKeygen (s : State) : Host.Outcome State Fault Refusal := .next (s.complete (effectKeygen s))

/-- Exec_PK_ENC (R294): on OK the randomness is consumed. -/
def effectPkEnc (s : State) : Result := do
  let n := arg s 1
  checkRegion s (arg s 0) n
  checkRegion s (arg s 2) POINT_BYTES
  checkRegion s (arg s 3) (196 + n)
  require s.latch.rndValid .noRnd
  let V := readPoint s (arg s 2)
  checkPoint V
  let M := memRead s (arg s 0) n
  let k := COFACTOR * intBe (latchedRnd s)
  let W ← pmul V k
  let Z ← pmul s.params.basePoint k
  let (ke, ka) := kdfPk W
  let c := streamXor ke M strPKE
  let t := kmacxof256 ka M 512 strPKA
  return { Effect.store (arg s 3) (196 + n) (pointBytes Z ++ c ++ t) with consume := true }

/-- PK_ENC (R294). -/
def execPkEnc (s : State) : Host.Outcome State Fault Refusal := .next (s.complete (effectPkEnc s))

/-- Exec_PK_DEC (R295): plaintext is staged only after the tags compare equal (R299). -/
def effectPkDec (s : State) : Result := do
  let m := arg s 3
  require (decide (196 ≤ m)) .badLength
  let n := m - 196
  checkRegion s (arg s 0) (arg s 1)
  checkRegion s (arg s 2) m
  checkRegion s (arg s 4) n
  let C := memRead s (arg s 2) m
  let Z : Point := { x := intBe (C.take 66), y := intBe ((C.drop 66).take 66) }
  checkPoint Z
  let c := (C.drop 132).take n
  let t := C.drop (132 + n)
  let priv := deriveS (memRead s (arg s 0) (arg s 1))
  let W ← pmul Z priv
  let (ke, ka) := kdfPk W
  let M := streamXor ke c strPKE
  let t' := kmacxof256 ka M 512 strPKA
  require (decide (t' = t)) .authFail
  return { Effect.store (arg s 4) n M with eq := true }

/-- PK_DEC (R295). -/
def execPkDec (s : State) : Host.Outcome State Fault Refusal := .next (s.complete (effectPkDec s))

/-- Exec_SIGN (R297). The response is the non-negative residue of k - int_be(h)·s. -/
def effectSign (s : State) : Result := do
  checkRegion s (arg s 0) (arg s 1)
  checkRegion s (arg s 2) (arg s 3)
  checkRegion s (arg s 4) 130
  let M := memRead s (arg s 0) (arg s 1)
  let priv := deriveS (memRead s (arg s 2) (arg s 3))
  let k := signNonce priv M
  let U ← pmul s.params.basePoint k
  let h := challenge U M
  let z := subMod k (intBe h * priv) R_ORDER
  return Effect.store (arg s 4) 130 (h ++ W66 z)

/-- SIGN (R297). -/
def execSign (s : State) : Host.Outcome State Fault Refusal := .next (s.complete (effectSign s))

/-- Exec_VERIFY (R298): z is not range-checked; nothing is written to BUF. -/
def effectVerify (s : State) : Result := do
  checkRegion s (arg s 0) (arg s 1)
  checkRegion s (arg s 2) 130
  checkRegion s (arg s 3) POINT_BYTES
  let V := readPoint s (arg s 3)
  checkPoint V
  let M := memRead s (arg s 0) (arg s 1)
  let sig := memRead s (arg s 2) 130
  let h := sig.take 64
  let z := intBe (sig.drop 64)
  let A ← pmul s.params.basePoint z
  let B ← pmul V (intBe h)
  let U ← padd A B
  require (decide (challenge U M = h)) .authFail
  return Effect.flag true

/-- VERIFY (R298). -/
def execVerify (s : State) : Host.Outcome State Fault Refusal := .next (s.complete (effectVerify s))

end Sys2Proof.Machine
end

