-- ==== Sys2Proof/Machine/ProtocolSym.lean ====
section
/-! DEFINITION. The symmetric passphrase cryptogram (47_protocol_sym.md R320, R321): SYM_ENC and SYM_DEC. -/

namespace Sys2Proof.Machine

/-- (ke, ka): the halves of KMACXOF256(z || pw, "", 1024, "S") (R320). -/
def kdfSym (z pw : Bytes) : Bytes × Bytes :=
  let kk := kmacxof256 (z ++ pw) [] 1024 strS
  (kk.take 64, (kk.drop 64).take 64)

/-- Exec_SYM_ENC (R320): on OK the randomness is consumed. -/
def effectSymEnc (s : State) : Result := do
  let n := arg s 1
  checkRegion s (arg s 0) n
  checkRegion s (arg s 2) (arg s 3)
  checkRegion s (arg s 4) (128 + n)
  require s.latch.rndValid .noRnd
  let M := memRead s (arg s 0) n
  let pw := memRead s (arg s 2) (arg s 3)
  let z := latchedRnd s
  let (ke, ka) := kdfSym z pw
  let c := streamXor ke M strSKE
  let t := kmacxof256 ka M 512 strSKA
  return { Effect.store (arg s 4) (128 + n) (z ++ c ++ t) with consume := true }

/-- SYM_ENC (R320). -/
def execSymEnc (s : State) : Host.Outcome State Fault Refusal := .next (s.complete (effectSymEnc s))

/-- Exec_SYM_DEC (R321): plaintext is staged only after the tags compare equal (46 R299). -/
def effectSymDec (s : State) : Result := do
  let m := arg s 1
  require (decide (128 ≤ m)) .badLength
  let n := m - 128
  checkRegion s (arg s 0) m
  checkRegion s (arg s 2) (arg s 3)
  checkRegion s (arg s 4) n
  let B := memRead s (arg s 0) m
  let pw := memRead s (arg s 2) (arg s 3)
  let z := B.take 64
  let c := (B.drop 64).take n
  let t := B.drop (64 + n)
  let (ke, ka) := kdfSym z pw
  let M := streamXor ke c strSKE
  let t' := kmacxof256 ka M 512 strSKA
  require (decide (t' = t)) .authFail
  return { Effect.store (arg s 4) n M with eq := true }

/-- SYM_DEC (R321). -/
def execSymDec (s : State) : Host.Outcome State Fault Refusal := .next (s.complete (effectSymDec s))

end Sys2Proof.Machine
end

