-- ==== Sys2Proof/Machine/Effects.lean ====
section
/-! DEFINITION. Exec(LATCH, BUF) of 40_command.md R141 for every command, as a value: what the completion
would be. An abort needs it without the completion (70_reset_and_hazards.md R373). -/

namespace Sys2Proof.Machine

/-- The outcome of Exec for a command (40_command.md R142). -/
def effectOf (i : Instr) (s : State) : Result :=
  match i with
  | .nop => effectNop s
  | .keccakf => effectKeccakf s
  | .cshake256 => effectCshake256 s
  | .kmacxof256 => effectKmacxof256 s
  | .kmac256 => effectKmac256 s
  | .encLeft => effectEncLeft s
  | .encRight => effectEncRight s
  | .encString => effectEncString s
  | .bytepad => effectBytepad s
  | .fadd => effectFadd s
  | .fsub => effectFsub s
  | .fmul => effectFmul s
  | .finv => effectFinv s
  | .fexp => effectFexp s
  | .fsqrt => effectFsqrt s
  | .padd => effectPadd s
  | .pmul => effectPmul s
  | .pfromx => effectPfromx s
  | .peq => effectPeq s
  | .keygen => effectKeygen s
  | .pkEnc => effectPkEnc s
  | .pkDec => effectPkDec s
  | .sign => effectSign s
  | .verify => effectVerify s
  | .symEnc => effectSymEnc s
  | .symDec => effectSymDec s

/-- The outcome the command in flight will have, decoding included (30_encoding.md R112). -/
def inFlightResult (s : State) : Result :=
  match decode s.latch.cmd with
  | .ok i => effectOf i s
  | .error e => .error (decodeErrorCode e)

end Sys2Proof.Machine
end

