-- ==== Sys2Proof/Machine/Dispatch.lean ====
section
/-! DEFINITION. One arm per command: the completion step of 40_command.md R141 for a decoded command. -/

namespace Sys2Proof.Machine

def exec (i : Instr) (s : State) : Host.Outcome State Fault Refusal :=
  match i with
  | .nop => Sys2Proof.Machine.execNop s
  | .keccakf => Sys2Proof.Machine.execKeccakf s
  | .cshake256 => Sys2Proof.Machine.execCshake256 s
  | .kmacxof256 => Sys2Proof.Machine.execKmacxof256 s
  | .kmac256 => Sys2Proof.Machine.execKmac256 s
  | .encLeft => Sys2Proof.Machine.execEncLeft s
  | .encRight => Sys2Proof.Machine.execEncRight s
  | .encString => Sys2Proof.Machine.execEncString s
  | .bytepad => Sys2Proof.Machine.execBytepad s
  | .fadd => Sys2Proof.Machine.execFadd s
  | .fsub => Sys2Proof.Machine.execFsub s
  | .fmul => Sys2Proof.Machine.execFmul s
  | .finv => Sys2Proof.Machine.execFinv s
  | .fexp => Sys2Proof.Machine.execFexp s
  | .fsqrt => Sys2Proof.Machine.execFsqrt s
  | .padd => Sys2Proof.Machine.execPadd s
  | .pmul => Sys2Proof.Machine.execPmul s
  | .pfromx => Sys2Proof.Machine.execPfromx s
  | .peq => Sys2Proof.Machine.execPeq s
  | .keygen => Sys2Proof.Machine.execKeygen s
  | .pkEnc => Sys2Proof.Machine.execPkEnc s
  | .pkDec => Sys2Proof.Machine.execPkDec s
  | .sign => Sys2Proof.Machine.execSign s
  | .verify => Sys2Proof.Machine.execVerify s
  | .symEnc => Sys2Proof.Machine.execSymEnc s
  | .symDec => Sys2Proof.Machine.execSymDec s

end Sys2Proof.Machine
end

