-- ==== Sys2Proof/Machine/HostPort.lean ====
section
/-! DEFINITION. The host's accesses (20_memory.md R81 to R90, 10_state.md R33 to R46): one indivisible step
each. -/

namespace Sys2Proof.Machine

/-- The word slot at a REG offset (10_state.md R33), for an aligned offset below 0x100. -/
def regSlot (off : Nat) : Reg :=
  let k := off / 4
  if k = 0 then .id
  else if k = 1 then .config
  else if k = 2 then .ctrl
  else if k = 3 then .status
  else if k = 4 then .cmd
  else if k = 5 then .outlen
  else if h : 8 ≤ k ∧ k < 16 then .arg ⟨k - 8, by omega⟩
  else if h : 16 ≤ k ∧ k < 32 then .rnd ⟨k - 16, by omega⟩
  else .reserved

/-- The register a REG access reaches, none where the access is a bus error: not a whole 32-bit word, not
at a multiple of 4, or not below 0x100 (20_memory.md R82). -/
def regAt (off width : Nat) : Option Reg :=
  if width = 32 ∧ off % 4 = 0 ∧ off < 0x100 then some (regSlot off) else none

/-- The word a RegRead returns, in either phase (10_state.md R33 to R46, 20_memory.md R90 d). RNDj and the
reserved offsets read as zero (R44, R45). -/
def State.regRead (s : State) : Reg → Word
  | .id => ID_VALUE
  | .config => s.configWord
  | .ctrl => s.ctrlWord
  | .status => s.statusWord
  | .cmd => s.cmd
  | .outlen => s.outlen
  | .arg i => s.args[i]
  | .rnd _ => 0
  | .reserved => 0

/-- RNDBUF after a write of v to RNDj: RNDBUF[4·j + b] <- v[8·b+7 : 8·b] (10_state.md R45). -/
def rndWrite (r : Vector Byte 64) (j : Fin 16) (v : Word) : Vector Byte 64 :=
  Vector.ofFn fun k => if k.val / 4 = j.val then v.extractLsb' (8 * (k.val % 4)) 8 else r[k]

/-- A host write that PHASE = BUSY drops: it changes nothing and sets WERR (20_memory.md R90 a, b). -/
def State.dropWrite (s : State) : State := { s with werrFlag := true }

/-- A write of v to STATUS: W1C of DONE (bit 1) and WERR (bit 3), in either phase (10_state.md R39). -/
def State.writeStatus (s : State) (v : Word) : State :=
  { s with
    doneFlag := s.doneFlag && !v.getLsbD 1
    werrFlag := s.werrFlag && !v.getLsbD 3 }

/-- A write of v to CTRL, in either phase (10_state.md R37): with SRST (bit 1) the soft reset, which in BUSY
aborts the command in flight (70 R372, R373), else IRQ_EN <- bit 0. -/
def State.writeCtrl (s : State) (v : Word) : State :=
  if v.getLsbD 1 then
    match s.phase with
    | .idle => s.softReset
    | .busy => s.abort (inFlightResult s)
  else { s with irqEn := v.getLsbD 0 }

/-- A RegWrite of v (20_memory.md R88, R90): CMD, ARGi and RNDj only in IDLE, CTRL and STATUS in either
phase, and no effect on the read-only and reserved registers. -/
def State.regWrite (s : State) (r : Reg) (v : Word) : State :=
  match r with
  | .id | .config | .outlen | .reserved => s
  | .ctrl => s.writeCtrl v
  | .status => s.writeStatus v
  | .cmd =>
    match s.phase with
    | .idle => s.issue v
    | .busy => s.dropWrite
  | .arg i =>
    match s.phase with
    | .idle => { s with args := s.args.set i v }
    | .busy => s.dropWrite
  | .rnd j =>
    match s.phase with
    | .idle => { s with rndbuf := rndWrite s.rndbuf j v, rndValid := true }
    | .busy => s.dropWrite

/-- A BufRead (20_memory.md R83): the byte in IDLE, and in BUSY a byte that nothing constrains, drawn
afresh by each read (R90 c, 93 U2). -/
def State.bufRead (s : State) (a : Nat) : State :=
  match s.phase with
  | .idle => { s with reply := .byte (s.buf.read a) }
  | .busy => { s with reply := .byte (Config.busyReadByte s.draws), draws := s.draws + 1 }

/-- A BufWrite (20_memory.md R83, R90 b). -/
def State.bufWrite (s : State) (a : Nat) (b : Byte) : State :=
  match s.phase with
  | .idle => { s with buf := s.buf.write a [b] }
  | .busy => s.dropWrite

/-- An access the engine cannot accept: no engine state changes, nothing is returned, and HOST_BUS_ERROR
is recorded outside the engine (60_exceptions.md R347). -/
def State.busError (s : State) (space : Space) (a width : Nat) : State :=
  { s with hostError := some { space := space, addr := a, width := width }, reply := .none }

/-- One host access (20_memory.md R81). -/
def State.access (s : State) : Access → State
  | .regRead off width =>
    match regAt off width with
    | some r => { s with reply := .word (s.regRead r) }
    | none => s.busError .reg off width
  | .regWrite off width v =>
    match regAt off width with
    | some r => { s.regWrite r v with reply := .none }
    | none => s.busError .reg off width
  | .bufRead a => if a < s.params.bufSize then s.bufRead a else s.busError .buf a 8
  | .bufWrite a b =>
    if a < s.params.bufSize then { s.bufWrite a b with reply := .none } else s.busError .buf a 8

end Sys2Proof.Machine
end

