-- ==== Sys2Proof/Machine/Engine.lean ====
section
/-! DEFINITION. The turns of a run (20_memory.md R92): the engine's completion step and the next event of
the interleaving. -/

namespace Sys2Proof.Machine

/-- The completion step (40_command.md R141): decode the latched word, then Exec of its row; a word that is
no command completes with its code (30_encoding.md R112). -/
def completionStep (s : State) : Host.Outcome State Fault Refusal :=
  match decode s.latch.cmd with
  | .ok i => exec i s
  | .error e => .next (s.failWith (decodeErrorCode e))

/-- The engine's turn: completion is enabled while PHASE is BUSY (R141), and in IDLE the engine keeps its
state (60_exceptions.md R355). -/
def engineTurn (s : State) : Host.Outcome State Fault Refusal :=
  match s.phase with
  | .busy => completionStep s
  | .idle => .next s

/-- When no event can be taken, because none is left or the host has stopped: a command in flight still
completes (40_command.md R146, 60_exceptions.md R347); else the machine is stuck where a bus error stopped
the host, and rests where there is none (log entries 1 and 8). -/
def quietTurn (s : State) : Host.Outcome State Fault Refusal :=
  match s.phase with
  | .busy => completionStep s
  | .idle =>
    match s.hostError with
    | some e => .fault (.hostBusError e)
    | none => .next s

/-- The next event of the interleaving. A host that stopped at a bus error takes no further step (60
R347). -/
def turn (s : State) : Host.Outcome State Fault Refusal :=
  match s.schedule with
  | [] => quietTurn s
  | .engine :: rest => engineTurn { s with schedule := rest }
  | .powerOn contents :: rest => .next (({ s with schedule := rest } : State).powerOn contents)
  | .host a :: rest =>
    match s.hostError with
    | some _ => quietTurn s
    | none => .next (({ s with schedule := rest } : State).access a)

end Sys2Proof.Machine
end

