-- ==== Sys2Proof/Machine/Step.lean ====
section
/-! DEFINITION. One step of the machine, and how a command word is put in flight for the next step. -/

namespace Sys2Proof.Machine

/-- One step: the next turn of the run, for an instance the spec gives a meaning (00_scope.md R12, log entry
11). -/
def step (s : State) : Host.Outcome State Fault Refusal :=
  if paramsAccepted s.params then turn s else .refused .invalidConfiguration

/-- s with the command word w issued (40_command.md R140) and the engine's turn next, so that the very next
step decodes and runs it. The engine fetches nothing (10_state.md R31): a word reaches it by the host's
write of CMD, for which this stands (log entry 7). -/
def State.withFetchWord (s : State) (nbits w : Nat) : State :=
  { s.issue (BitVec.ofNat 32 (w % 2 ^ nbits)) with schedule := .engine :: s.schedule }

end Sys2Proof.Machine
end

