-- ==== Sys2Proof/Safety.lean ====
section
/-! DEFINITION. The terms the claims use: what a completion leaves (40_command.md R141, 60_exceptions.md
R341, R345), the invariant of the machine, and the run that never stops at a bus error. -/

namespace Sys2Proof.Machine

/-- The region (a, n) lies inside BUF (20_memory.md R86). -/
abbrev Fits (s : State) (a n : Nat) : Prop := a + n ≤ s.params.bufSize

/-- What no completion changes: the parameters, CTRL, WERR, CMD, the ARG registers, LATCH, and the host's
side of the state. -/
structure SameRegisters (s t : State) : Prop where
  params : t.params = s.params
  irqEn : t.irqEn = s.irqEn
  werrFlag : t.werrFlag = s.werrFlag
  cmd : t.cmd = s.cmd
  args : t.args = s.args
  latch : t.latch = s.latch
  hostError : t.hostError = s.hostError
  schedule : t.schedule = s.schedule
  reply : t.reply = s.reply
  draws : t.draws = s.draws

/-- t is s after a completion with RC = OK that writes `data` at `dst`, sets EQ to `eq`, and clears RNDBUF
and RND_VALID iff `consume` (R141, R143, 10_state.md R41, R47). With data = [] nothing is written. -/
structure CompletesOk (s t : State) (dst : Nat) (data : Bytes) (eq consume : Bool) : Prop where
  registers : SameRegisters s t
  rc : t.rc = .ok
  doneFlag : t.doneFlag = true
  phase : t.phase = .idle
  eqFlag : t.eqFlag = eq
  outlen : t.outlen = BitVec.ofNat 32 data.length
  bytes : ∀ a, t.buf.read a =
    if dst ≤ a ∧ a < dst + data.length then data.getD (a - dst) 0 else s.buf.read a
  rndbuf : t.rndbuf = if consume then Vector.replicate 64 0 else s.rndbuf
  rndValid : t.rndValid = if consume then false else s.rndValid

/-- t is s after a completion with the failing code c: only RC, EQ, OUTLEN, DONE and PHASE are written (60
R341, R345). -/
structure FailsWith (s t : State) (c : ResultCode) : Prop where
  registers : SameRegisters s t
  rc : t.rc = c
  doneFlag : t.doneFlag = true
  phase : t.phase = .idle
  eqFlag : t.eqFlag = false
  outlen : t.outlen = 0
  buf : t.buf = s.buf
  rndbuf : t.rndbuf = s.rndbuf
  rndValid : t.rndValid = s.rndValid

/-- The invariant of the machine: it holds at reset and every step keeps it. -/
structure State.Inv (s : State) : Prop where
  /-- The instance is one the spec gives a meaning (00_scope.md R11, R12). -/
  accepted : paramsAccepted s.params = true
  /-- BUF is in its canonical form. -/
  canonical : s.buf.wf
  /-- BUF holds no address outside the buffer (10_state.md R50). -/
  bounded : ∀ c ∈ s.buf, c.1 < s.params.bufSize
  /-- OUTLEN never exceeds the buffer (R41). -/
  outlenBounded : s.outlen.toNat ≤ s.params.bufSize
  /-- A failed command left EQ = 0 and OUTLEN = 0 (60_exceptions.md R341). -/
  failed : s.rc ≠ .ok → s.eqFlag = false ∧ s.outlen = 0
  /-- Without RND_VALID there is no randomness: RNDBUF is zero (10_state.md R46, R47). -/
  spent : s.rndValid = false → s.rndbuf = Vector.replicate 64 0
  /-- While a command is in flight LATCH equals the registers and no result shows (R43, 70 R381). -/
  inFlight : s.phase = .busy →
    s.latch = { cmd := s.cmd, args := s.args, rndbuf := s.rndbuf, rndValid := s.rndValid } ∧
      s.doneFlag = false ∧ s.rc = .ok ∧ s.eqFlag = false ∧ s.outlen = 0

/-! ### The next event -/

/-- The instance is accepted, no access has failed, and `e` is the next event, `rest` after it. -/
structure NextEvent (s : State) (e : Event) (rest : List Event) : Prop where
  accepted : paramsAccepted s.params = true
  running : s.hostError = none
  schedule : s.schedule = e :: rest

/-- What a failed access records: the space, the offset or address, and the width in bits, 8 for a BUF
access, which is always one byte (60_exceptions.md R347, 20_memory.md R83). -/
def busErrorOf : Access → HostBusError
  | .regRead off width => { space := .reg, addr := off, width := width }
  | .regWrite off width _ => { space := .reg, addr := off, width := width }
  | .bufRead a => { space := .buf, addr := a, width := 8 }
  | .bufWrite a _ => { space := .buf, addr := a, width := 8 }

/-! ### Reset -/

/-- The values of the reset table (10_state.md R54), LATCH and BUF left out: the table gives LATCH no value,
and BUF's after reset is said beside this. -/
structure HasResetValues (t : State) : Prop where
  id : t.regRead .id = 0x4B434531
  config : (t.regRead .config).toNat = t.params.bufAw + 0x88 * 2 ^ 8 + 0x42 * 2 ^ 16
  irqEn : t.irqEn = false
  doneFlag : t.doneFlag = false
  werrFlag : t.werrFlag = false
  eqFlag : t.eqFlag = false
  rc : t.rc = .ok
  cmd : t.cmd = 0
  outlen : t.outlen = 0
  args : ∀ i : Fin 8, t.args[i] = 0
  rndbuf : ∀ k : Fin 64, t.rndbuf[k] = 0
  rndValid : t.rndValid = false
  phase : t.phase = .idle
  irq : t.irq = false

/-! ### The generators of the tables of Keccak-f[1600] -/

/-- x^t mod (x^8 + x^6 + x^5 + x^4 + 1) over GF(2), as an 8-bit number with bit k the coefficient of x^k
(41_keccak.md R168). -/
def lfsrPower : Nat → Nat
  | 0 => 1
  | t + 1 =>
    let v := 2 * lfsrPower t
    if v < 0x100 then v else v ^^^ 0x171

/-- rc(t): bit 0 of x^t (R168). -/
def roundBit (t : Nat) : Bool := lfsrPower (t % 255) % 2 == 1

/-- RC[ir] as R168 generates it: bit 2^j - 1 is rc(j + 7·ir) for j = 0..6. -/
def generatedRoundConstant (ir : Nat) : Nat :=
  ((List.range 7).map fun j => if roundBit (j + 7 * ir) then 2 ^ (2 ^ j - 1) else 0).sum

/-- The walk of R169: place t of it, from (1, 0), each step to (y, 2x + 3y) mod 5. -/
def rotationWalk : Nat → Nat × Nat
  | 0 => (1, 0)
  | t + 1 =>
    let p := rotationWalk t
    (p.2, (2 * p.1 + 3 * p.2) % 5)

/-! ### The checks of operands and regions -/

/-- The code of an operand value that is not allowed (60_exceptions.md R343, the first group of checks):
a length in bits that is no multiple of 8, a width of 0, a parity above 1, a cryptogram too short. -/
def operandFault (i : Instr) (s : State) : Option ResultCode :=
  match i with
  | .cshake256 | .kmacxof256 | .kmac256 => if arg s 7 % 8 = 0 then none else some .badLength
  | .bytepad => if arg s 2 = 0 then some .badArg else none
  | .fsqrt | .pfromx => if arg s 1 ≤ 1 then none else some .badArg
  | .pkDec => if 196 ≤ arg s 3 then none else some .badLength
  | .symDec => if 128 ≤ arg s 1 then none else some .badLength
  | .nop | .keccakf | .encLeft | .encRight | .encString | .fadd | .fsub | .fmul | .finv | .fexp
  | .padd | .pmul | .peq | .keygen | .pkEnc | .sign | .verify | .symEnc => none

/-- The regions of a command that its operands alone determine (30_encoding.md R115), address and length:
all of them but the destination of ENC_LEFT and ENC_RIGHT. -/
def operandRegions (i : Instr) (s : State) : List (Nat × Nat) :=
  match i with
  | .nop => []
  | .keccakf => [(arg s 0, 200), (arg s 1, 200)]
  | .cshake256 | .kmacxof256 | .kmac256 =>
    [(arg s 0, arg s 1), (arg s 2, arg s 3), (arg s 4, arg s 5), (arg s 6, arg s 7 / 8)]
  | .encLeft | .encRight => [(arg s 0, arg s 1)]
  | .encString => [(arg s 0, arg s 1), (arg s 2, (encodeLeft (8 * arg s 1)).length + arg s 1)]
  | .bytepad => [(arg s 0, arg s 1), (arg s 3, bytepadLength (arg s 1) (arg s 2))]
  | .fadd | .fsub | .fmul | .fexp => [(arg s 0, 66), (arg s 1, 66), (arg s 2, 66)]
  | .finv | .fsqrt => [(arg s 0, 66), (arg s 2, 66)]
  | .padd => [(arg s 0, 132), (arg s 1, 132), (arg s 2, 132)]
  | .pmul => [(arg s 0, 132), (arg s 1, 66), (arg s 2, 132)]
  | .pfromx => [(arg s 0, 66), (arg s 2, 132)]
  | .peq => [(arg s 0, 132), (arg s 1, 132)]
  | .keygen => [(arg s 0, arg s 1), (arg s 2, 132)]
  | .pkEnc => [(arg s 0, arg s 1), (arg s 2, 132), (arg s 3, 196 + arg s 1)]
  | .pkDec => [(arg s 0, arg s 1), (arg s 2, arg s 3), (arg s 4, arg s 3 - 196)]
  | .sign => [(arg s 0, arg s 1), (arg s 2, arg s 3), (arg s 4, 130)]
  | .verify => [(arg s 0, arg s 1), (arg s 2, 130), (arg s 3, 132)]
  | .symEnc => [(arg s 0, arg s 1), (arg s 2, arg s 3), (arg s 4, 128 + arg s 1)]
  | .symDec => [(arg s 0, arg s 1), (arg s 2, arg s 3), (arg s 4, arg s 1 - 128)]

end Sys2Proof.Machine
end

