-- ==== Sys2Proof/Certificates/Slice0/Obligations.lean ====
section
/-! DEFINITION. The statements about the machine, for the provers. A statement about a command gives, where
it can, the whole next state: `CompletesOk` and `FailsWith` (Safety.lean) name every field of it. -/

open Sys2Proof Sys2Proof.Machine

/-! ## Decoding -/

/-- R110: every row of the opcode table, as the word a host writes. -/
def Obligations.DecoderReadsEveryTableWord : Prop :=
  decode 0x00000000 = .ok .nop ∧ decode 0x00000001 = .ok .keccakf ∧
  decode 0x00000002 = .ok .cshake256 ∧ decode 0x00000003 = .ok .kmacxof256 ∧
  decode 0x00000004 = .ok .kmac256 ∧ decode 0x00000008 = .ok .encLeft ∧
  decode 0x00000009 = .ok .encRight ∧ decode 0x0000000A = .ok .encString ∧
  decode 0x0000000B = .ok .bytepad ∧ decode 0x00000010 = .ok .fadd ∧
  decode 0x00000011 = .ok .fsub ∧ decode 0x00000012 = .ok .fmul ∧
  decode 0x00000013 = .ok .finv ∧ decode 0x00000014 = .ok .fexp ∧
  decode 0x00000015 = .ok .fsqrt ∧ decode 0x00000020 = .ok .padd ∧
  decode 0x00000021 = .ok .pmul ∧ decode 0x00000022 = .ok .pfromx ∧
  decode 0x00000023 = .ok .peq ∧ decode 0x00000030 = .ok .keygen ∧
  decode 0x00000031 = .ok .pkEnc ∧ decode 0x00000032 = .ok .pkDec ∧
  decode 0x00000033 = .ok .sign ∧ decode 0x00000034 = .ok .verify ∧
  decode 0x00000035 = .ok .symEnc ∧ decode 0x00000036 = .ok .symDec

/-- R121: of all 32-bit words, exactly the encodings decode, each to its own command: decode and encode
agree in both directions. -/
def Obligations.DecodeAcceptsExactlyTheEncodings : Prop :=
  ∀ (w : Word) (i : Instr), decode w = .ok i ↔ w = encode i

/-- R112: at the engine's turn the opcode of the latched word is checked first, then its reserved bits, and
only a word that passes both runs its row. The failing words complete with their code and change nothing
else. -/
def Obligations.EngineDecodesOpcodeThenReservedBits : Prop :=
  ∀ (s : State) (rest : List Event), paramsAccepted s.params = true → s.phase = .busy →
    s.schedule = .engine :: rest →
    (s.latch.cmd.toNat % 256 ∉ assignedOpcodes →
      ∃ t, step s = .next t ∧ FailsWith { s with schedule := rest } t .illegalOpcode) ∧
    (s.latch.cmd.toNat % 256 ∈ assignedOpcodes → s.latch.cmd.toNat / 256 ≠ 0 →
      ∃ t, step s = .next t ∧ FailsWith { s with schedule := rest } t .reservedField) ∧
    (s.latch.cmd.toNat % 256 ∈ assignedOpcodes → s.latch.cmd.toNat / 256 = 0 →
      ∃ i, (opcode i).toNat = s.latch.cmd.toNat % 256 ∧
        step s = exec i { s with schedule := rest })

/-! ## The step -/

/-- R141, R146, R347: in BUSY, a latched word that decodes to i runs exec of i: at the engine's turn, which
is taken off the schedule; when no event is left; and when the host has stopped at a bus error. R355: in
IDLE the engine's turn keeps the state, and so does a step without an event; that there is such a step is
the model's choice (log entry 1). -/
def Obligations.StepRunsTheDecodedCommand : Prop :=
  ∀ s : State, paramsAccepted s.params = true →
    (∀ i : Instr, s.phase = .busy → decode s.latch.cmd = .ok i →
      (∀ rest, s.schedule = .engine :: rest → step s = exec i { s with schedule := rest }) ∧
      (s.schedule = [] → step s = exec i s) ∧
      (∀ a rest e, s.schedule = .host a :: rest → s.hostError = some e → step s = exec i s)) ∧
    (s.phase = .idle →
      (∀ rest, s.schedule = .engine :: rest → step s = .next { s with schedule := rest }) ∧
      (s.schedule = [] → s.hostError = none → step s = .next s))

/-! ## Issue -/

/-- R140: a CMD write in IDLE issues. It never fails and never looks at v. In BUSY it is no issue. -/
def Obligations.IssueLatchesTheOperands : Prop :=
  ∀ (s : State) (v : Word) (rest : List Event),
    NextEvent s (.host (.regWrite 0x010 32 v)) rest →
    (s.phase = .idle →
      step s = .next
        { s with
          cmd := v
          latch := { cmd := v, args := s.args, rndbuf := s.rndbuf, rndValid := s.rndValid }
          rc := .ok, doneFlag := false, eqFlag := false, outlen := 0, phase := .busy
          reply := .none, schedule := rest }) ∧
    (s.phase = .busy →
      step s = .next { s with werrFlag := true, reply := .none, schedule := rest })

/-! ## Host accesses -/

/-- R90 (a), (b), (c), (f): in BUSY, writes of CMD, ARGi, RNDj and BUF are dropped and set WERR, and a BUF
read returns some byte and draws it afresh. R33, R44, R88: in either phase, writes of ID, CONFIG, OUTLEN and
the reserved offsets are ignored. -/
def Obligations.BusyAccessesAreDroppedOrUnspecified : Prop :=
  ∀ (s : State) (rest : List Event),
    (∀ off v, NextEvent s (.host (.regWrite off 32 v)) rest → s.phase = .busy →
      off % 4 = 0 → (off = 0x010 ∨ 0x020 ≤ off ∧ off < 0x080) →
      step s = .next { s with werrFlag := true, reply := .none, schedule := rest }) ∧
    (∀ a b, NextEvent s (.host (.bufWrite a b)) rest → s.phase = .busy → a < s.params.bufSize →
      step s = .next { s with werrFlag := true, reply := .none, schedule := rest }) ∧
    (∀ off v, NextEvent s (.host (.regWrite off 32 v)) rest → off % 4 = 0 →
      (off < 0x008 ∨ 0x014 ≤ off ∧ off < 0x020 ∨ 0x080 ≤ off ∧ off < 0x100) →
      step s = .next { s with reply := .none, schedule := rest }) ∧
    (∀ a, NextEvent s (.host (.bufRead a)) rest → s.phase = .busy → a < s.params.bufSize →
      ∃ b, step s = .next { s with reply := .byte b, draws := s.draws + 1, schedule := rest })

/-- R33 to R46 and R88, R90 (d): the word each REG offset reads as, in either phase, and that a read has no
side effect. STATUS is read as 95_test_vectors.md section 0 writes it. -/
def Obligations.RegReadReturnsTheRegister : Prop :=
  ∀ (s : State) (rest : List Event) (off : Nat) (v : Word),
    NextEvent s (.host (.regRead off 32)) rest →
    (off = 0x000 ∧ v.toNat = 0x4B434531 ∨
     off = 0x004 ∧ v.toNat = s.params.bufAw + 136 * 2 ^ 8 + 66 * 2 ^ 16 ∨
     off = 0x008 ∧ v.toNat = s.irqEn.toNat ∨
     off = 0x00C ∧ v.toNat = s.rc.code.toNat * 2 ^ 8 + s.eqFlag.toNat * 2 ^ 5 +
        s.rndValid.toNat * 2 ^ 4 + s.werrFlag.toNat * 2 ^ 3 +
        (if 0x10 ≤ s.rc.code.toNat then 1 else 0) * 2 ^ 2 + s.doneFlag.toNat * 2 ^ 1 +
        (if s.phase = .busy then 1 else 0) ∨
     off = 0x010 ∧ v = s.cmd ∨
     off = 0x014 ∧ v = s.outlen ∨
     (∃ i : Fin 8, off = 0x020 + 4 * i.val ∧ v = s.args[i]) ∨
     (∃ j : Fin 16, off = 0x040 + 4 * j.val ∧ v = 0) ∨
     off % 4 = 0 ∧ (off = 0x018 ∨ off = 0x01C ∨ 0x080 ≤ off ∧ off < 0x100) ∧ v = 0) →
    step s = .next { s with reply := .word v, schedule := rest }

/-- R39: a STATUS write clears DONE by bit 1 and WERR by bit 3, in either phase, and does nothing else. -/
def Obligations.StatusWriteClearsDoneAndWerr : Prop :=
  ∀ (s : State) (v : Word) (rest : List Event),
    NextEvent s (.host (.regWrite 0x00C 32 v)) rest →
    step s = .next
      { s with
        doneFlag := if v.toNat / 2 ^ 1 % 2 = 1 then false else s.doneFlag
        werrFlag := if v.toNat / 2 ^ 3 % 2 = 1 then false else s.werrFlag
        reply := .none, schedule := rest }

/-- R37: a CTRL write without SRST sets IRQ_EN to bit 0, in either phase, and ignores the reserved bits. -/
def Obligations.CtrlWriteSetsInterruptEnable : Prop :=
  ∀ (s : State) (v : Word) (rest : List Event),
    NextEvent s (.host (.regWrite 0x008 32 v)) rest → v.toNat / 2 ^ 1 % 2 = 0 →
    step s = .next
      { s with irqEn := decide (v.toNat % 2 = 1), reply := .none, schedule := rest }

/-- R45: a write of RNDj in IDLE fills four bytes of RNDBUF, little-endian, and sets RND_VALID; a read of
RNDj, in either phase, returns 0. -/
def Obligations.RndWriteFillsFourBytes : Prop :=
  ∀ (s : State) (j : Fin 16) (v : Word) (rest : List Event),
    (NextEvent s (.host (.regWrite (0x040 + 4 * j.val) 32 v)) rest → s.phase = .idle →
      ∃ r : Vector Byte 64,
        step s = .next
          { s with rndbuf := r, rndValid := true, reply := .none, schedule := rest } ∧
        (∀ (b : Nat) (hb : b < 4),
          (r[4 * j.val + b]'(by omega)).toNat = v.toNat / 2 ^ (8 * b) % 2 ^ 8) ∧
        (∀ k : Fin 64, k.val / 4 ≠ j.val → r[k] = s.rndbuf[k])) ∧
    (NextEvent s (.host (.regRead (0x040 + 4 * j.val) 32)) rest →
      step s = .next { s with reply := .word 0, schedule := rest })

/-- R42, R43: a write of ARGi in IDLE sets that register alone, to the written value. -/
def Obligations.ArgWriteSetsOneRegister : Prop :=
  ∀ (s : State) (i : Fin 8) (v : Word) (rest : List Event),
    NextEvent s (.host (.regWrite (0x020 + 4 * i.val) 32 v)) rest → s.phase = .idle →
    ∃ r : Vector Word 8,
      step s = .next { s with args := r, reply := .none, schedule := rest } ∧
      r[i] = v ∧ ∀ k : Fin 8, k ≠ i → r[k] = s.args[k]

/-- R83, R92: in IDLE a BUF write sets the byte at its address and no other, and a BUF read returns the byte
at its address and changes nothing. -/
def Obligations.BufHoldsTheLastWrite : Prop :=
  ∀ (s : State) (a : Nat) (rest : List Event), s.phase = .idle → a < s.params.bufSize →
    (∀ b, NextEvent s (.host (.bufWrite a b)) rest →
      ∃ m : Memory, step s = .next { s with buf := m, reply := .none, schedule := rest } ∧
        ∀ x, m.read x = if x = a then b else s.buf.read x) ∧
    (NextEvent s (.host (.bufRead a)) rest →
      step s = .next { s with reply := .byte (s.buf.read a), schedule := rest })

/-- R82, R83, R347: the accesses that fail are exactly the ill-formed ones; a failed access changes no
engine state, returns nothing and is recorded with its space, place and width. -/
def Obligations.OnlyIllFormedAccessesFail : Prop :=
  ∀ (s : State) (a : Access) (rest : List Event), NextEvent s (.host a) rest →
    (a.wf s.params.bufSize = false →
      step s = .next
        { s with hostError := some (busErrorOf a), reply := .none, schedule := rest }) ∧
    (a.wf s.params.bufSize = true →
      ∃ t, step s = .next t ∧ t.hostError = none ∧ t.schedule = rest)

/-- R347: after a bus error no host step is taken and the record is never cleared. A command in flight
completes; with none in flight the machine is stuck. That a power-on keeps the record, and that a machine
with no event left is stuck, are the model's choices (log entry 8). -/
def Obligations.StoppedHostTakesNoStep : Prop :=
  ∀ (s : State) (e : HostBusError), paramsAccepted s.params = true → s.hostError = some e →
    (∀ t, step s = .next t → t.hostError = some e) ∧
    (∀ a rest, s.schedule = .host a :: rest → s.phase = .idle →
      step s = .fault (.hostBusError e)) ∧
    (s.schedule = [] → s.phase = .idle → step s = .fault (.hostBusError e)) ∧
    (∀ a rest, s.schedule = .host a :: rest → s.phase = .busy →
      ∃ t, step s = .next t ∧ t.phase = .idle ∧ t.doneFlag = true ∧ t.schedule = s.schedule)

/-! ## Reset and interrupt -/

/-- R372: the soft reset of a CTRL write with SRST in IDLE. The IRQ_EN bit of the write is ignored, and BUF
is kept. What LATCH then holds is not said: the spec leaves it unspecified. -/
def Obligations.SoftResetKeepsOnlyBuf : Prop :=
  ∀ (s : State) (v : Word) (rest : List Event),
    NextEvent s (.host (.regWrite 0x008 32 v)) rest → v.toNat / 2 ^ 1 % 2 = 1 →
    s.phase = .idle →
    ∃ l, step s = .next
      { s with
        irqEn := false, doneFlag := false, werrFlag := false, eqFlag := false, rc := .ok
        cmd := 0, outlen := 0, args := Vector.replicate 8 0
        rndbuf := Vector.replicate 64 0, rndValid := false, phase := .idle, latch := l
        reply := .none, schedule := rest }

/-- R373: a CTRL write with SRST in BUSY aborts. The registers are reset, no completion follows (PHASE is
IDLE and DONE is 0), BUF keeps every byte if the latched word is no command or the command would have failed,
and otherwise every byte outside the region it would have written: nothing is said of the bytes inside. -/
def Obligations.AbortLosesOnlyTheDestination : Prop :=
  ∀ (s : State) (v : Word) (rest : List Event),
    NextEvent s (.host (.regWrite 0x008 32 v)) rest → v.toNat / 2 ^ 1 % 2 = 1 → s.phase = .busy →
    ∃ t, step s = .next t ∧ HasResetValues t ∧ t.params = s.params ∧ t.schedule = rest ∧
      t.hostError = none ∧
      (∀ e, decode s.latch.cmd = .error e → t.buf = s.buf) ∧
      (∀ i u, decode s.latch.cmd = .ok i → exec i s = .next u →
        (u.rc ≠ .ok → t.buf = s.buf) ∧
        (dstArg i = none → t.buf = s.buf) ∧
        (∀ k, dstArg i = some k → u.rc = .ok → ∀ a,
          ¬ (s.latch.args[k].toNat ≤ a ∧ a < s.latch.args[k].toNat + u.outlen.toNat) →
          t.buf.read a = s.buf.read a))

/-- R54: power-on reset and soft reset give the values of the reset table. After power-on BUF may hold
anything: for every choice of bytes there is a power-on that leaves them. After a soft reset in IDLE BUF is
unchanged. The model's own reset state has the same values. -/
def Obligations.ResetGivesTheTableValues : Prop :=
  HasResetValues State.reset ∧
  ∀ s : State, paramsAccepted s.params = true →
    (∀ cs rest, s.schedule = .powerOn cs :: rest →
      ∃ t, step s = .next t ∧ HasResetValues t ∧ t.params = s.params) ∧
    (∀ (f : Nat → Byte) (rest : List Event), ∃ cs t,
      step { s with schedule := .powerOn cs :: rest } = .next t ∧
      ∀ a, a < s.params.bufSize → t.buf.read a = f a) ∧
    (∀ v rest, NextEvent s (.host (.regWrite 0x008 32 v)) rest → v.toNat / 2 ^ 1 % 2 = 1 →
      s.phase = .idle →
      ∃ t, step s = .next t ∧ HasResetValues t ∧ t.params = s.params ∧ t.buf = s.buf)

/-- R352: irq is IRQ_EN ∧ DONE. Every completion raises it if enabled, whatever RC, that of a word that is no
command included; an issue, DONE W1C and a
reset lower it; setting IRQ_EN raises it at once while DONE is set, and clearing IRQ_EN lowers it. -/
def Obligations.IrqFollowsDoneAndEnable : Prop :=
  (∀ (i : Instr) (s t : State), exec i s = .next t → t.irq = s.irqEn) ∧
  (∀ (s : State) (rest : List Event), paramsAccepted s.params = true → s.phase = .busy →
    s.schedule = .engine :: rest → ∃ t, step s = .next t ∧ t.irq = s.irqEn) ∧
  (∀ (s : State) (v : Word) (rest : List Event),
    (NextEvent s (.host (.regWrite 0x010 32 v)) rest → s.phase = .idle →
      ∃ t, step s = .next t ∧ t.irq = false) ∧
    (NextEvent s (.host (.regWrite 0x00C 32 v)) rest → v.toNat / 2 ^ 1 % 2 = 1 →
      ∃ t, step s = .next t ∧ t.irq = false ∧ t.irqEn = s.irqEn) ∧
    (NextEvent s (.host (.regWrite 0x008 32 v)) rest → v.toNat / 2 ^ 1 % 2 = 1 →
      ∃ t, step s = .next t ∧ t.irq = false) ∧
    (NextEvent s (.host (.regWrite 0x008 32 v)) rest → v.toNat / 2 ^ 1 % 2 = 0 →
      ∃ t, step s = .next t ∧ t.irq = (decide (v.toNat % 2 = 1) && s.doneFlag) ∧
        t.doneFlag = s.doneFlag))

/-! ## Invariants and whole-machine rules -/

/-- The invariant holds right after reset. -/
def Obligations.InvariantHoldsAtReset : Prop := State.reset.Inv

/-- Every step keeps the invariant: BUF canonical and inside its bounds, OUTLEN within BUF, no result of a
failed command, no randomness without RND_VALID, LATCH equal to the registers while BUSY. -/
def Obligations.StepKeepsTheInvariant : Prop :=
  ∀ s t : State, s.Inv → step s = .next t → t.Inv

/-- R11, R370: BUF_AW and BASE_POINT are fixed for the lifetime of the instance. R11, R12: an instance takes no
step, and is refused, exactly when BUF_AW is outside 10 to 30, or BASE_POINT is no pair of field elements, is
off the curve, is the neutral element, or gives another point than that when multiplied by R_ORDER. -/
def Obligations.ParametersNeverChange : Prop :=
  ∀ s : State, (∀ t, step s = .next t → t.params = s.params) ∧
    ∀ (x y : Int), x = s.params.basePoint.x → y = s.params.basePoint.y →
      (step s = .refused .invalidConfiguration ↔
        s.params.bufAw < 10 ∨ 30 < s.params.bufAw ∨ (P : Int) ≤ x ∨ (P : Int) ≤ y ∨
        (x ^ 2 + y ^ 2 - (1 - 376014 * x ^ 2 * y ^ 2)) % P ≠ 0 ∨ (x = 0 ∧ y = 1) ∨
        pmul s.params.basePoint R_ORDER ≠ .ok { x := 0, y := 1 })

/-- R48, R53: which step may set each flag. BUSY is entered only by a CMD write in IDLE; DONE and EQ are set
only by a completion; WERR only by a write dropped in BUSY; RND_VALID only by a write of RNDj in IDLE. -/
def Obligations.EachFlagHasOneSetter : Prop :=
  ∀ s t : State, step s = .next t →
    (s.phase = .idle → t.phase = .busy →
      ∃ v rest, s.schedule = .host (.regWrite 0x010 32 v) :: rest ∧ t.cmd = v) ∧
    (s.doneFlag = false → t.doneFlag = true → s.phase = .busy ∧ t.phase = .idle) ∧
    (s.eqFlag = false → t.eqFlag = true →
      s.phase = .busy ∧ t.phase = .idle ∧ t.doneFlag = true ∧ t.rc = .ok) ∧
    (s.werrFlag = false → t.werrFlag = true → s.phase = .busy ∧ t.phase = .busy) ∧
    (s.rndValid = false → t.rndValid = true →
      s.phase = .idle ∧ ∃ j : Fin 16, ∃ v rest,
        s.schedule = .host (.regWrite (0x040 + 4 * j.val) 32 v) :: rest)

/-- R142: what a command does depends on LATCH, BUF and the parameters alone: two states that agree on them
complete with the same RC, EQ, OUTLEN and BUF, whatever else they hold. -/
def Obligations.ExecReadsOnlyLatchBufAndParameters : Prop :=
  ∀ (i : Instr) (s s' t t' : State), s.latch = s'.latch → s.buf = s'.buf →
    s.params = s'.params → exec i s = .next t → exec i s' = .next t' →
    t.rc = t'.rc ∧ t.eqFlag = t'.eqFlag ∧ t.outlen = t'.outlen ∧ t.buf = t'.buf

/-- R113: a register that a command does not use is ignored and may hold any value. -/
def Obligations.UnusedArgsAreIgnored : Prop :=
  ∀ (i : Instr) (k : Fin 8) (v : Word) (s t t' : State), (argRoles i)[k] = .ignored →
    exec i s = .next t →
    exec i { s with latch := { s.latch with args := s.latch.args.set k v } } = .next t' →
    t.rc = t'.rc ∧ t.eqFlag = t'.eqFlag ∧ t.outlen = t'.outlen ∧ t.buf = t'.buf ∧
      t.rndbuf = t'.rndbuf ∧ t.rndValid = t'.rndValid

/-- R341: a command that fails sets RC, EQ = 0, OUTLEN = 0, DONE and IDLE, and changes nothing else: BUF,
RNDBUF, RND_VALID, CMD, the ARG registers, CTRL and WERR. -/
def Obligations.FailedCommandChangesNothing : Prop :=
  ∀ (i : Instr) (s t : State), exec i s = .next t → t.rc ≠ .ok → FailsWith s t t.rc

/-- R143, R42: the frame of every command. It always completes, changes no ARG register, CMD, CTRL or WERR,
and no byte of BUF outside the OUTLEN bytes at the address in its destination register; a command without
one (NOP, PEQ, VERIFY) changes no byte. -/
def Obligations.CommandWritesOnlyItsDestination : Prop :=
  ∀ (i : Instr) (s : State), s.params.wfBufAw = true →
    ∃ t, exec i s = .next t ∧ SameRegisters s t ∧ t.doneFlag = true ∧ t.phase = .idle ∧
      t.outlen.toNat ≤ s.params.bufSize ∧
      (dstArg i = none → t.buf = s.buf) ∧
      (∀ k, dstArg i = some k → ∀ a,
        ¬ (s.latch.args[k].toNat ≤ a ∧ a < s.latch.args[k].toNat + t.outlen.toNat) →
        t.buf.read a = s.buf.read a)

/-- R47: PK_ENC and SYM_ENC clear RNDBUF and RND_VALID when they complete with OK; any other completion
leaves them, and no other command's result depends on RNDBUF. -/
def Obligations.OnlyEncryptionConsumesRandomness : Prop :=
  ∀ (i : Instr) (s t : State), exec i s = .next t →
    ((i = .pkEnc ∨ i = .symEnc) → t.rc = .ok →
      t.rndbuf = Vector.replicate 64 0 ∧ t.rndValid = false) ∧
    (t.rc ≠ .ok → t.rndbuf = s.rndbuf ∧ t.rndValid = s.rndValid) ∧
    (i ≠ .pkEnc → i ≠ .symEnc → t.rndbuf = s.rndbuf ∧ t.rndValid = s.rndValid ∧
      ∀ r b t', exec i { s with latch := { s.latch with rndbuf := r, rndValid := b } } = .next t' →
        t.rc = t'.rc ∧ t.eqFlag = t'.eqFlag ∧ t.outlen = t'.outlen ∧ t.buf = t'.buf)

/-- R53, R41: EQ = 1 only after PEQ, PK_DEC, VERIFY or SYM_DEC with OK, and always after the last three with
OK; a completion with RC ≠ OK leaves EQ = 0 and OUTLEN = 0. -/
def Obligations.EqMeansAcceptedOrEqual : Prop :=
  ∀ (i : Instr) (s t : State), exec i s = .next t →
    (t.eqFlag = true → t.rc = .ok ∧ (i = .peq ∨ i = .pkDec ∨ i = .verify ∨ i = .symDec)) ∧
    ((i = .pkDec ∨ i = .verify ∨ i = .symDec) → t.rc = .ok → t.eqFlag = true) ∧
    (t.rc ≠ .ok → t.eqFlag = false ∧ t.outlen = 0)

/-- R342: the codes' bytes, which commands raise each code (on an accepted instance, whose base point lies
on the curve), and that ERR reads 1 exactly for codes from 0x10 up. -/
def Obligations.EachCodeComesFromItsCommands : Prop :=
  (ResultCode.ok.code = 0x00 ∧ ResultCode.authFail.code = 0x01 ∧
    ResultCode.noSuchPoint.code = 0x02 ∧ ResultCode.illegalOpcode.code = 0x10 ∧
    ResultCode.reservedField.code = 0x11 ∧ ResultCode.badArg.code = 0x12 ∧
    ResultCode.badLength.code = 0x13 ∧ ResultCode.bounds.code = 0x14 ∧
    ResultCode.noRnd.code = 0x15 ∧ ResultCode.range.code = 0x16 ∧
    ResultCode.malformedInt.code = 0x17 ∧ ResultCode.noInverse.code = 0x18) ∧
  (∀ s : State, s.errBit = true ↔ s.rc ≠ .ok ∧ s.rc ≠ .authFail ∧ s.rc ≠ .noSuchPoint) ∧
  ∀ (i : Instr) (s t : State), paramsAccepted s.params = true → exec i s = .next t →
    (t.rc = .authFail → i ∈ [.pkDec, .verify, .symDec]) ∧
    (t.rc = .noSuchPoint → i ∈ [.fsqrt, .pfromx]) ∧
    t.rc ≠ .illegalOpcode ∧ t.rc ≠ .reservedField ∧
    (t.rc = .badArg → i ∈ [.bytepad, .fsqrt, .pfromx]) ∧
    (t.rc = .badLength → i ∈ [.cshake256, .kmacxof256, .kmac256, .pkDec, .symDec]) ∧
    (t.rc = .bounds → i ≠ .nop) ∧
    (t.rc = .noRnd → i ∈ [.pkEnc, .symEnc]) ∧
    (t.rc = .range → i ∈ [.fadd, .fsub, .fmul, .finv, .fexp, .fsqrt, .padd, .pmul, .pfromx, .peq,
      .pkEnc, .pkDec, .verify]) ∧
    (t.rc = .malformedInt → i ∈ [.encLeft, .encRight]) ∧
    (t.rc = .noInverse → i ∈ [.finv, .padd, .pmul, .pkEnc, .pkDec, .verify])

/-- R343, R86: the first two groups of a command's checks. An operand value that is not allowed fails with
its own code whatever the regions are; else a region of the operands that does not fit in BUF fails BOUNDS,
whatever BUF and RNDBUF hold. The destination of ENC_LEFT and ENC_RIGHT, whose length depends on the value
read, is not among these regions. -/
def Obligations.OperandsThenRegionsAreChecked : Prop :=
  ∀ (i : Instr) (s : State),
    (∀ c, operandFault i s = some c → ∃ t, exec i s = .next t ∧ FailsWith s t c) ∧
    (operandFault i s = none → (∃ r ∈ operandRegions i s, ¬ Fits s r.1 r.2) →
      ∃ t, exec i s = .next t ∧ FailsWith s t .bounds)

/-! ## NOP and the permutation -/

/-- R145: NOP completes, whatever the ARG registers hold, and does nothing else. -/
def Obligations.NopOnlyCompletes : Prop :=
  ∀ s : State, ∃ t, exec .nop s = .next t ∧ CompletesOk s t 0 [] false false ∧ t.buf = s.buf

/-- R170: KECCAKF writes Keccak_f of the 200 bytes at ARG0 to ARG1, or fails BOUNDS. -/
def Obligations.KeccakfPermutesTheState : Prop :=
  ∀ s : State,
    (Fits s (arg s 0) 200 → Fits s (arg s 1) 200 →
      ∃ t, exec .keccakf s = .next t ∧
        CompletesOk s t (arg s 1) (keccakF (memRead s (arg s 0) 200)) false false) ∧
    (¬ (Fits s (arg s 0) 200 ∧ Fits s (arg s 1) 200) →
      ∃ t, exec .keccakf s = .next t ∧ FailsWith s t .bounds)

/-- R161 to R167: the lane operations (rotation bit by bit and as the rule computes it, complement, coordinates
mod 5), the five step mappings lane by lane, the order of a round, and 24 rounds. That Keccak_f is a
bijection (R167) is not said. -/
def Obligations.RoundStepsFollowTheEquations : Prop :=
  (∀ (v : Lane) (n : Nat),
    (∀ z, z < 64 → (rotl64 v n).getLsbD ((z + n) % 64) = v.getLsbD z) ∧
    (n % 64 = 0 → rotl64 v n = v) ∧
    (n % 64 ≠ 0 → (rotl64 v n).toNat =
      v.toNat * 2 ^ (n % 64) % 2 ^ 64 + v.toNat / 2 ^ (64 - n % 64)) ∧
    (~~~v).toNat = 2 ^ 64 - 1 - v.toNat) ∧
  (∀ (A : Lanes) (x y : Nat), lane A x y = lane A (x % 5) (y % 5)) ∧
  (∀ (A : Lanes) (x y : Nat), x < 5 → y < 5 →
    (let C := fun x => lane A x 0 ^^^ lane A x 1 ^^^ lane A x 2 ^^^ lane A x 3 ^^^ lane A x 4
     lane (theta A) x y = lane A x y ^^^ (C ((x + 4) % 5) ^^^ rotl64 (C ((x + 1) % 5)) 1)) ∧
    lane (rho A) x y = rotl64 (lane A x y) (rotOffset x y) ∧
    lane (piStep A) x y = lane A ((x + 3 * y) % 5) x ∧
    lane (piStep A) y ((2 * x + 3 * y) % 5) = lane A x y ∧
    lane (chi A) x y = lane A x y ^^^ (~~~(lane A ((x + 1) % 5) y) &&& lane A ((x + 2) % 5) y) ∧
    ∀ ir, lane (iota A ir) x y =
      if x = 0 ∧ y = 0 then lane A 0 0 ^^^ roundConstant ir else lane A x y) ∧
  (∀ A ir, keccakRound A ir = iota (chi (piStep (rho (theta A)))) ir) ∧
  ∀ S, keccakF S = bytesOf ((List.range 24).foldl keccakRound (lanesOf 25 S))

/-- R160: bit z of lane A[x, y] is bit z mod 8 of byte 8·(x + 5·y) + z div 8 of the state, and writing the
lanes back gives the same bytes. -/
def Obligations.LanesAreLittleEndianWords : Prop :=
  ∀ S : Bytes, S.length = 200 →
    (∀ x y z, x < 5 → y < 5 → z < 64 →
      (lane (lanesOf 25 S) x y).getLsbD z =
        (S.getD (8 * (x + 5 * y) + z / 8) 0).getLsbD (z % 8)) ∧
    bytesOf (lanesOf 25 S) = S

/-- R168, R169: the two tables are what their generators give. -/
def Obligations.KeccakTablesMatchTheirGenerators : Prop :=
  (∀ ir, ir < 24 → (roundConstant ir).toNat = generatedRoundConstant ir) ∧
  rotOffset 0 0 = 0 ∧
  ∀ t, t < 24 →
    rotOffset (rotationWalk t).1 (rotationWalk t).2 = (t + 1) * (t + 2) / 2 % 64

/-! ## Sponge and MAC -/

/-- R193 with R185 to R188: CSHAKE256 writes L/8 bytes of the sponge over its strings, plain SHAKE256 of X when
N and S are empty; L mod 8 ≠ 0 fails BAD_LENGTH before any region is checked. The sponge absorbs the padded
string block by block from 200 zero bytes, each block XORed into the first 136 bytes before a permutation, and
its output is the first 136 bytes of the state, then those after each further permutation, cut to length. -/
def Obligations.Cshake256WritesTheSponge : Prop :=
  (absorb [] = List.replicate 200 0) ∧
  (∀ Q B : Bytes, Q.length % 136 = 0 → B.length = 136 →
    ∃ S : Bytes, S.length = 200 ∧ absorb (Q ++ B) = keccakF S ∧
      (∀ k, k < 136 → S.getD k 0 = (absorb Q).getD k 0 ^^^ B.getD k 0) ∧
      ∀ k, 136 ≤ k → k < 200 → S.getD k 0 = (absorb Q).getD k 0) ∧
  (∀ (S : Bytes) (n : Nat), S.length = 200 →
    (n ≤ 136 → squeeze S n = S.take n) ∧
    (136 < n → squeeze S n = S.take 136 ++ squeeze (keccakF S) (n - 136))) ∧
  (∀ (p : Bytes) (c : Byte) (n : Nat), sponge p c n = squeeze (absorb (pad p c)) n) ∧
  ∀ s : State,
    (arg s 7 % 8 ≠ 0 → ∃ t, exec .cshake256 s = .next t ∧ FailsWith s t .badLength) ∧
    (arg s 7 % 8 = 0 →
      ¬ (Fits s (arg s 0) (arg s 1) ∧ Fits s (arg s 2) (arg s 3) ∧ Fits s (arg s 4) (arg s 5) ∧
        Fits s (arg s 6) (arg s 7 / 8)) →
      ∃ t, exec .cshake256 s = .next t ∧ FailsWith s t .bounds) ∧
    (arg s 7 % 8 = 0 → Fits s (arg s 0) (arg s 1) → Fits s (arg s 2) (arg s 3) →
      Fits s (arg s 4) (arg s 5) → Fits s (arg s 6) (arg s 7 / 8) →
      ∃ t out, exec .cshake256 s = .next t ∧ CompletesOk s t (arg s 6) out false false ∧
        out.length = arg s 7 / 8 ∧
        (arg s 3 = 0 ∧ arg s 5 = 0 →
          out = sponge (memRead s (arg s 0) (arg s 1)) 0x1F (arg s 7 / 8)) ∧
        (¬ (arg s 3 = 0 ∧ arg s 5 = 0) →
          out = sponge
            (bytepad (encodeString (memRead s (arg s 2) (arg s 3)) ++
              encodeString (memRead s (arg s 4) (arg s 5))) 136 ++
              memRead s (arg s 0) (arg s 1)) 0x04 (arg s 7 / 8)))

/-- R213, R214 with R210, R211: the two MAC commands write L/8 bytes of cSHAKE256 with N = "KMAC" over the
padded key, X and the encoded length, which is 0 for KMACXOF256 and L for KMAC256. -/
def Obligations.KmacCommandsWriteTheMac : Prop :=
  ∀ s : State, arg s 7 % 8 = 0 → Fits s (arg s 0) (arg s 1) → Fits s (arg s 2) (arg s 3) →
    Fits s (arg s 4) (arg s 5) → Fits s (arg s 6) (arg s 7 / 8) →
    (∃ t out, exec .kmacxof256 s = .next t ∧ CompletesOk s t (arg s 6) out false false ∧
      out.length = arg s 7 / 8 ∧
      out = cshake256
        (bytepad (encodeString (memRead s (arg s 0) (arg s 1))) 136 ++
          memRead s (arg s 2) (arg s 3) ++ [0x00, 0x01])
        (arg s 7) [0x4B, 0x4D, 0x41, 0x43] (memRead s (arg s 4) (arg s 5))) ∧
    (∃ t out, exec .kmac256 s = .next t ∧ CompletesOk s t (arg s 6) out false false ∧
      out.length = arg s 7 / 8 ∧
      out = cshake256
        (bytepad (encodeString (memRead s (arg s 0) (arg s 1))) 136 ++
          memRead s (arg s 2) (arg s 3) ++ encodeRight (arg s 7))
        (arg s 7) [0x4B, 0x4D, 0x41, 0x43] (memRead s (arg s 4) (arg s 5)))

/-- R193, R213: for L1 ≤ L2 the shorter output of CSHAKE256 and of KMACXOF256 is a prefix of the longer. -/
def Obligations.ShorterOutputIsAPrefix : Prop :=
  ∀ (A B S : Bytes) (L₁ L₂ : Nat), L₁ % 8 = 0 → L₂ % 8 = 0 → L₁ ≤ L₂ →
    cshake256 A L₁ B S = (cshake256 A L₂ B S).take (L₁ / 8) ∧
    kmacxof256 A B L₁ S = (kmacxof256 A B L₂ S).take (L₁ / 8)

/-- R184: padding: the input, then the suffix byte, then zeros up to a positive multiple of the rate, with
0x80 XORed into the last byte (both in one byte when only one byte is added). -/
def Obligations.PaddingFillsTheBlock : Prop :=
  ∀ (p : Bytes) (c : Byte),
    0 < (pad p c).length ∧ (pad p c).length % 136 = 0 ∧ (pad p c).length ≤ p.length + 136 ∧
    (pad p c).take p.length = p ∧
    (p.length % 136 = 135 → pad p c = p ++ [c ^^^ 0x80]) ∧
    (p.length % 136 ≠ 135 → ∃ k, pad p c = p ++ [c] ++ List.replicate k 0 ++ [0x80])

/-- R189, R190 with R180, R181: the integer at ARG0 is written in the fewest bytes, at least one, with their
number before (ENC_LEFT) or after them (ENC_RIGHT); 2^2040 and above fails MALFORMED_INT, and the
destination is checked last. -/
def Obligations.EncodeIntegerUsesTheFewestBytes : Prop :=
  ∀ (s : State) (x : Nat), x = intBe (memRead s (arg s 0) (arg s 1)) →
    (¬ Fits s (arg s 0) (arg s 1) →
      (∃ t, exec .encLeft s = .next t ∧ FailsWith s t .bounds) ∧
      ∃ t, exec .encRight s = .next t ∧ FailsWith s t .bounds) ∧
    (Fits s (arg s 0) (arg s 1) → 2 ^ 2040 ≤ x →
      (∃ t, exec .encLeft s = .next t ∧ FailsWith s t .malformedInt) ∧
      ∃ t, exec .encRight s = .next t ∧ FailsWith s t .malformedInt) ∧
    (Fits s (arg s 0) (arg s 1) → x < 2 ^ 2040 →
      ∃ (n : Nat) (body : Bytes), body.length = n ∧ 1 ≤ n ∧ n ≤ 255 ∧ intBe body = x ∧
        (1 < n → body.head? ≠ some 0) ∧
        (Fits s (arg s 2) (n + 1) →
          (∃ t, exec .encLeft s = .next t ∧
            CompletesOk s t (arg s 2) (BitVec.ofNat 8 n :: body) false false) ∧
          ∃ t, exec .encRight s = .next t ∧
            CompletesOk s t (arg s 2) (body ++ [BitVec.ofNat 8 n]) false false) ∧
        (¬ Fits s (arg s 2) (n + 1) →
          (∃ t, exec .encLeft s = .next t ∧ FailsWith s t .bounds) ∧
          ∃ t, exec .encRight s = .next t ∧ FailsWith s t .bounds))

/-- R191 with R182: ENC_STRING writes the encoded bit length of the string at ARG0 and the string. -/
def Obligations.EncodeStringPrefixesTheLength : Prop :=
  ∀ (s : State) (e : Bytes),
    e = encodeLeft (8 * arg s 1) ++ memRead s (arg s 0) (arg s 1) →
    (Fits s (arg s 0) (arg s 1) → Fits s (arg s 2) e.length →
      ∃ t, exec .encString s = .next t ∧ CompletesOk s t (arg s 2) e false false) ∧
    (¬ (Fits s (arg s 0) (arg s 1) ∧ Fits s (arg s 2) e.length) →
      ∃ t, exec .encString s = .next t ∧ FailsWith s t .bounds)

/-- R192 with R183: BYTEPAD writes the encoded width, the string and the fewest zero bytes that make a
multiple of the width; w = 0 fails BAD_ARG before any region is checked. -/
def Obligations.BytepadFillsToTheWidth : Prop :=
  ∀ s : State,
    (arg s 2 = 0 → ∃ t, exec .bytepad s = .next t ∧ FailsWith s t .badArg) ∧
    (arg s 2 ≠ 0 → ∃ k e, k < arg s 2 ∧
      e = encodeLeft (arg s 2) ++ memRead s (arg s 0) (arg s 1) ++ List.replicate k 0 ∧
      e.length % arg s 2 = 0 ∧
      (Fits s (arg s 0) (arg s 1) → Fits s (arg s 3) e.length →
        ∃ t, exec .bytepad s = .next t ∧ CompletesOk s t (arg s 3) e false false) ∧
      (¬ (Fits s (arg s 0) (arg s 1) ∧ Fits s (arg s 3) e.length) →
        ∃ t, exec .bytepad s = .next t ∧ FailsWith s t .bounds))

/-! ## Field -/

/-- R232 to R234, R231: FADD, FSUB and FMUL write the residue of the exact sum, difference and product, as a
66-byte field; an operand of P or more fails RANGE, a region outside BUF fails BOUNDS before it. R16, R84: what
a field is: int_be reads a byte string from its most significant byte on, and W66(n) is the 66 bytes, the most
significant first, whose int_be is n. -/
def Obligations.FieldCommandsReduceExactly : Prop :=
  (intBe [] = 0 ∧ ∀ (u : Bytes) (b : Byte), intBe (u ++ [b]) = 256 * intBe u + b.toNat) ∧
  (∀ n, n < 2 ^ 528 → (W66 n).length = 66 ∧ intBe (W66 n) = n ∧
    ∀ k, k < 66 → ((W66 n).getD k 0).toNat = n / 256 ^ (65 - k) % 256) ∧
  ∀ (s : State) (a b : Nat), a = readW66 s (arg s 0) → b = readW66 s (arg s 1) →
    (Fits s (arg s 0) 66 → Fits s (arg s 1) 66 → Fits s (arg s 2) 66 → a < P → b < P →
      (∃ t, exec .fadd s = .next t ∧ CompletesOk s t (arg s 2) (W66 ((a + b) % P)) false false) ∧
      (∃ t r, exec .fsub s = .next t ∧ CompletesOk s t (arg s 2) (W66 r) false false ∧ r < P ∧
        ((a : Int) - b - r) % P = 0) ∧
      (∃ t, exec .fmul s = .next t ∧ CompletesOk s t (arg s 2) (W66 (a * b % P)) false false)) ∧
    (∀ i : Instr, i = .fadd ∨ i = .fsub ∨ i = .fmul →
      (¬ (Fits s (arg s 0) 66 ∧ Fits s (arg s 1) 66 ∧ Fits s (arg s 2) 66) →
        ∃ t, exec i s = .next t ∧ FailsWith s t .bounds) ∧
      (Fits s (arg s 0) 66 → Fits s (arg s 1) 66 → Fits s (arg s 2) 66 → ¬ (a < P ∧ b < P) →
        ∃ t, exec i s = .next t ∧ FailsWith s t .range))

/-- R235: FINV writes the one b in [1, P) with a·b mod P = 1; 0 fails NO_INVERSE. -/
def Obligations.FinvWritesTheInverse : Prop :=
  ∀ (s : State) (a : Nat), a = readW66 s (arg s 0) →
    Fits s (arg s 0) 66 → Fits s (arg s 2) 66 →
    (0 < a → a < P → ∃ t b, exec .finv s = .next t ∧
      CompletesOk s t (arg s 2) (W66 b) false false ∧ 1 ≤ b ∧ b < P ∧ a * b % P = 1 ∧
      ∀ c, c < P → a * c % P = 1 → c = b) ∧
    (a = 0 → ∃ t, exec .finv s = .next t ∧ FailsWith s t .noInverse) ∧
    (P ≤ a → ∃ t, exec .finv s = .next t ∧ FailsWith s t .range)

/-- R236: FEXP writes a^e mod P for any 66-byte exponent, with a^0 = 1 also for a = 0; only a is
range-checked. -/
def Obligations.FexpWritesThePower : Prop :=
  ∀ (s : State) (a e : Nat), a = readW66 s (arg s 0) → e = readW66 s (arg s 1) →
    Fits s (arg s 0) 66 → Fits s (arg s 1) 66 → Fits s (arg s 2) 66 →
    (a < P → ∃ t, exec .fexp s = .next t ∧
      CompletesOk s t (arg s 2) (W66 (a ^ e % P)) false false) ∧
    (P ≤ a → ∃ t, exec .fexp s = .next t ∧ FailsWith s t .range)

/-- R238 with R237: FSQRT writes the root of v with the requested parity, and answers NO_SUCH_POINT exactly
when there is none; v of P or more fails RANGE, and a parity above 1 fails BAD_ARG before any region is
checked. -/
def Obligations.FsqrtFindsTheRootOfTheParity : Prop :=
  ∀ (s : State) (v : Nat), v = readW66 s (arg s 0) →
    (1 < arg s 1 → ∃ t, exec .fsqrt s = .next t ∧ FailsWith s t .badArg) ∧
    (arg s 1 ≤ 1 → Fits s (arg s 0) 66 → Fits s (arg s 2) 66 →
      (P ≤ v → ∃ t, exec .fsqrt s = .next t ∧ FailsWith s t .range) ∧
      (v < P →
        (∀ r, r < P → r * r % P = v → r % 2 = arg s 1 →
          ∃ t, exec .fsqrt s = .next t ∧ CompletesOk s t (arg s 2) (W66 r) false false) ∧
        ((∀ r, r < P → r * r % P = v → r % 2 ≠ arg s 1) →
          ∃ t, exec .fsqrt s = .next t ∧ FailsWith s t .noSuchPoint)))

/-! ## Curve -/

/-- R266 with R261: PADD computes the addition law on any two reduced points, on the curve or not: with
t = -376014·x1·x2·y1·y2, a sum whose coordinates solve x3·(1 + t) = x1·y2 + y1·x2 and
y3·(1 - t) = y1·y2 - x1·x2 modulo P, or NO_INVERSE when a denominator is 0. -/
def Obligations.PaddComputesTheAdditionLaw : Prop :=
  ∀ (s : State) (p q : Point) (e : Int), p = readPoint s (arg s 0) → q = readPoint s (arg s 1) →
    e = -376014 * p.x * q.x * p.y * q.y →
    Fits s (arg s 0) 132 → Fits s (arg s 1) 132 → Fits s (arg s 2) 132 →
    (¬ (Reduced p ∧ Reduced q) → ∃ t, exec .padd s = .next t ∧ FailsWith s t .range) ∧
    (Reduced p → Reduced q → (1 + e) % P = 0 ∨ (1 - e) % P = 0 →
      ∃ t, exec .padd s = .next t ∧ FailsWith s t .noInverse) ∧
    (Reduced p → Reduced q → (1 + e) % P ≠ 0 → (1 - e) % P ≠ 0 →
      ∃ t r, exec .padd s = .next t ∧
        CompletesOk s t (arg s 2) (W66 r.x ++ W66 r.y) false false ∧ Reduced r ∧
        ((r.x : Int) * (1 + e) - (p.x * q.y + p.y * q.x)) % P = 0 ∧
        ((r.y : Int) * (1 - e) - (p.y * q.y - p.x * q.x)) % P = 0)

/-- R261, R260: on the curve the addition law is complete: PADD of two reduced points of the curve always
completes, with a reduced point of the curve. -/
def Obligations.PaddOnTheCurveAlwaysCompletes : Prop :=
  ∀ (s : State) (p q : Point), p = readPoint s (arg s 0) → q = readPoint s (arg s 1) →
    Fits s (arg s 0) 132 → Fits s (arg s 1) 132 → Fits s (arg s 2) 132 →
    Reduced p → Reduced q → onCurve p = true → onCurve q = true →
    ∃ t r, exec .padd s = .next t ∧
      CompletesOk s t (arg s 2) (W66 r.x ++ W66 r.y) false false ∧ Reduced r ∧ onCurve r = true

/-- R262: scalar multiplication is double-and-add from the neutral element, over the bits of k from the most
to the least significant; on any point, a failing addition included. -/
def Obligations.ScalarMultiplicationDoublesAndAdds : Prop :=
  ∀ (Q : Point) (k : Nat),
    pmul Q 0 = .ok { x := 0, y := 1 } ∧
    pmul Q (2 * k) = (do let V ← pmul Q k; padd V V) ∧
    pmul Q (2 * k + 1) = (do let V ← pmul Q k; let W ← padd V V; padd W Q)

/-- R267: PMUL writes k·Q for any 66-byte scalar, or fails NO_INVERSE where the multiplication of R262
stops; of a reduced point of the curve it always completes, with a reduced point of the curve; an unreduced
point fails RANGE. -/
def Obligations.PmulWritesTheMultiple : Prop :=
  ∀ (s : State) (q : Point) (k : Nat), q = readPoint s (arg s 0) → k = readW66 s (arg s 1) →
    Fits s (arg s 0) 132 → Fits s (arg s 1) 66 → Fits s (arg s 2) 132 →
    (Reduced q → onCurve q = true →
      ∃ t r, exec .pmul s = .next t ∧ pmul q k = .ok r ∧ onCurve r = true ∧ Reduced r ∧
        CompletesOk s t (arg s 2) (W66 r.x ++ W66 r.y) false false) ∧
    (Reduced q → ∀ r, pmul q k = .ok r → ∃ t, exec .pmul s = .next t ∧
      CompletesOk s t (arg s 2) (W66 r.x ++ W66 r.y) false false) ∧
    (Reduced q → ∀ c, pmul q k = .error c →
      ∃ t, exec .pmul s = .next t ∧ FailsWith s t .noInverse) ∧
    (¬ Reduced q → ∃ t, exec .pmul s = .next t ∧ FailsWith s t .range)

/-- R268 with R263: PFROMX writes the point of the curve with the x coordinate at ARG0 and the requested
parity of y, and answers NO_SUCH_POINT exactly when there is none; x of P or more fails RANGE. -/
def Obligations.PfromxFindsThePointOfTheParity : Prop :=
  ∀ (s : State) (x : Nat), x = readW66 s (arg s 0) →
    (1 < arg s 1 → ∃ t, exec .pfromx s = .next t ∧ FailsWith s t .badArg) ∧
    (arg s 1 ≤ 1 → Fits s (arg s 0) 66 → Fits s (arg s 2) 132 →
      (P ≤ x → ∃ t, exec .pfromx s = .next t ∧ FailsWith s t .range) ∧
      (x < P →
        (∀ y, y < P → onCurve { x := x, y := y } = true → y % 2 = arg s 1 →
          ∃ t, exec .pfromx s = .next t ∧
            CompletesOk s t (arg s 2) (W66 x ++ W66 y) false false) ∧
        ((∀ y, y < P → onCurve { x := x, y := y } = true → y % 2 ≠ arg s 1) →
          ∃ t, exec .pfromx s = .next t ∧ FailsWith s t .noSuchPoint)))

/-- R269: PEQ sets EQ to the equality of both coordinates and writes nothing; an unreduced coordinate is
RANGE, not a comparison. -/
def Obligations.PeqComparesCoordinates : Prop :=
  ∀ (s : State) (p q : Point), p = readPoint s (arg s 0) → q = readPoint s (arg s 1) →
    (¬ (Fits s (arg s 0) 132 ∧ Fits s (arg s 1) 132) →
      ∃ t, exec .peq s = .next t ∧ FailsWith s t .bounds) ∧
    (Fits s (arg s 0) 132 → Fits s (arg s 1) 132 → ¬ (Reduced p ∧ Reduced q) →
      ∃ t, exec .peq s = .next t ∧ FailsWith s t .range) ∧
    (Fits s (arg s 0) 132 → Fits s (arg s 1) 132 → Reduced p → Reduced q →
      ∃ t, exec .peq s = .next t ∧
        CompletesOk s t 0 [] (decide (p.x = q.x ∧ p.y = q.y)) false ∧ t.buf = s.buf)

/-! ## Protocols -/

/-- R292 with R291: KEYGEN writes s·G for s = 4·int_be(KMACXOF256(pw, "", 512, "K")); it never fails
NO_INVERSE on an accepted instance, and reads no randomness. -/
def Obligations.KeygenDerivesThePublicKey : Prop :=
  ∀ s : State, paramsAccepted s.params = true →
    (Fits s (arg s 0) (arg s 1) → Fits s (arg s 2) 132 →
      ∃ t V, exec .keygen s = .next t ∧
        pmul s.params.basePoint
          (4 * intBe (kmacxof256 (memRead s (arg s 0) (arg s 1)) [] 512 [0x4B])) = .ok V ∧
        onCurve V = true ∧ CompletesOk s t (arg s 2) (W66 V.x ++ W66 V.y) false false) ∧
    (¬ (Fits s (arg s 0) (arg s 1) ∧ Fits s (arg s 2) 132) →
      ∃ t, exec .keygen s = .next t ∧ FailsWith s t .bounds)

/-- R294: PK_ENC of a message to a reduced point V, with randomness loaded, writes Z || c || t for the
ephemeral scalar k = 4·int_be(RNDBUF) and consumes the randomness, always where V lies on the curve;
elsewhere it can fail NO_INVERSE. Without randomness it fails NO_RND after the regions, before V's range. -/
def Obligations.PkEncWritesTheCryptogram : Prop :=
  ∀ (s : State) (V : Point) (M : Bytes) (k : Nat), paramsAccepted s.params = true →
    V = readPoint s (arg s 2) → M = memRead s (arg s 0) (arg s 1) →
    k = 4 * intBe s.latch.rndbuf.toList →
    Fits s (arg s 0) (arg s 1) → Fits s (arg s 2) 132 → Fits s (arg s 3) (196 + arg s 1) →
    (s.latch.rndValid = false → ∃ t, exec .pkEnc s = .next t ∧ FailsWith s t .noRnd) ∧
    (s.latch.rndValid = true → ¬ Reduced V → ∃ t, exec .pkEnc s = .next t ∧ FailsWith s t .range) ∧
    (onCurve V = true → ∃ W, pmul V k = .ok W) ∧
    (s.latch.rndValid = true → Reduced V → ∀ W, pmul V k = .ok W →
      ∃ t Z kk, exec .pkEnc s = .next t ∧ pmul s.params.basePoint k = .ok Z ∧
        kk = kmacxof256 (W66 W.x) [] 1024 [0x50] ∧
        CompletesOk s t (arg s 3)
          (W66 Z.x ++ W66 Z.y ++
            xorBytes (kmacxof256 (kk.take 64) [] (8 * M.length) [0x50, 0x4B, 0x45]) M ++
            kmacxof256 (kk.drop 64) M 512 [0x50, 0x4B, 0x41]) false true) ∧
    (s.latch.rndValid = true → Reduced V → ∀ c, pmul V k = .error c →
      ∃ t, exec .pkEnc s = .next t ∧ FailsWith s t .noInverse)

/-- R295, R299: PK_DEC of a cryptogram with a reduced point Z accepts exactly when the recomputed tag equals
the last 64 bytes, then writes the plaintext with EQ = 1, and otherwise fails AUTH_FAIL with BUF untouched. On
the curve it always gets that far; elsewhere it can fail NO_INVERSE. An unreduced Z fails RANGE. -/
def Obligations.PkDecReleasesOnlyAuthenticPlaintext : Prop :=
  ∀ (s : State) (Z : Point) (k : Nat) (c : Bytes), 196 ≤ arg s 3 →
    Fits s (arg s 0) (arg s 1) → Fits s (arg s 2) (arg s 3) → Fits s (arg s 4) (arg s 3 - 196) →
    Z = readPoint s (arg s 2) → c = memRead s (arg s 2 + 132) (arg s 3 - 196) →
    k = 4 * intBe (kmacxof256 (memRead s (arg s 0) (arg s 1)) [] 512 [0x4B]) →
    (¬ Reduced Z → ∃ t, exec .pkDec s = .next t ∧ FailsWith s t .range) ∧
    (onCurve Z = true → ∃ W, pmul Z k = .ok W) ∧
    (Reduced Z → ∀ W, pmul Z k = .ok W → ∀ kk M t' : Bytes,
      kk = kmacxof256 (W66 W.x) [] 1024 [0x50] →
      M = xorBytes (kmacxof256 (kk.take 64) [] (8 * c.length) [0x50, 0x4B, 0x45]) c →
      t' = kmacxof256 (kk.drop 64) M 512 [0x50, 0x4B, 0x41] →
      (memRead s (arg s 2 + arg s 3 - 64) 64 = t' →
        ∃ t, exec .pkDec s = .next t ∧ CompletesOk s t (arg s 4) M true false) ∧
      (memRead s (arg s 2 + arg s 3 - 64) 64 ≠ t' →
        ∃ t, exec .pkDec s = .next t ∧ FailsWith s t .authFail)) ∧
    (Reduced Z → ∀ e, pmul Z k = .error e →
      ∃ t, exec .pkDec s = .next t ∧ FailsWith s t .noInverse)

/-- R297 with R296: SIGN writes h || W66(z) for the message-bound nonce k, h hashed from the x coordinate of
k·G, and z the residue of k - int_be(h)·s modulo R_ORDER; it completes on every accepted instance. -/
def Obligations.SignWritesTheSignature : Prop :=
  ∀ (s : State) (M : Bytes) (priv k : Nat), paramsAccepted s.params = true →
    M = memRead s (arg s 0) (arg s 1) →
    priv = 4 * intBe (kmacxof256 (memRead s (arg s 2) (arg s 3)) [] 512 [0x4B]) →
    k = 4 * intBe (kmacxof256 (W66 priv) M 512 [0x4E]) →
    (Fits s (arg s 0) (arg s 1) → Fits s (arg s 2) (arg s 3) → Fits s (arg s 4) 130 →
      ∃ t U h z, exec .sign s = .next t ∧ pmul s.params.basePoint k = .ok U ∧
        h = kmacxof256 (W66 U.x) M 512 [0x54] ∧ z < R_ORDER ∧
        ((k : Int) - intBe h * priv - z) % R_ORDER = 0 ∧
        CompletesOk s t (arg s 4) (h ++ W66 z) false false) ∧
    (¬ (Fits s (arg s 0) (arg s 1) ∧ Fits s (arg s 2) (arg s 3) ∧ Fits s (arg s 4) 130) →
      ∃ t, exec .sign s = .next t ∧ FailsWith s t .bounds)

/-- R298: VERIFY against a reduced point V recomputes U' = z·G + h·V and accepts, with EQ = 1, exactly when
the challenge of U'.x equals h; otherwise AUTH_FAIL. It writes nothing to BUF. On the curve it always gets
that far; elsewhere h·V or the sum can fail NO_INVERSE. An unreduced V fails RANGE. -/
def Obligations.VerifyAcceptsTheMatchingChallenge : Prop :=
  ∀ (s : State) (V : Point) (h M : Bytes) (z : Nat), paramsAccepted s.params = true →
    Fits s (arg s 0) (arg s 1) → Fits s (arg s 2) 130 → Fits s (arg s 3) 132 →
    V = readPoint s (arg s 3) → M = memRead s (arg s 0) (arg s 1) → h = memRead s (arg s 2) 64 →
    z = readW66 s (arg s 2 + 64) →
    (¬ Reduced V → ∃ t, exec .verify s = .next t ∧ FailsWith s t .range) ∧
    ∃ A, pmul s.params.basePoint z = .ok A ∧
      (onCurve V = true → ∃ B U, pmul V (intBe h) = .ok B ∧ padd A B = .ok U) ∧
      (Reduced V → ∀ B U, pmul V (intBe h) = .ok B → padd A B = .ok U →
        ∃ t, exec .verify s = .next t ∧ t.buf = s.buf ∧
          (kmacxof256 (W66 U.x) M 512 [0x54] = h → CompletesOk s t 0 [] true false) ∧
          (kmacxof256 (W66 U.x) M 512 [0x54] ≠ h → FailsWith s t .authFail)) ∧
      (Reduced V → ∀ c, (do let B ← pmul V (intBe h); padd A B) = .error c →
        ∃ t, exec .verify s = .next t ∧ FailsWith s t .noInverse)

/-- R320: SYM_ENC writes z || c || t with z the latched RNDBUF, and consumes it; without randomness it fails
NO_RND after the regions. -/
def Obligations.SymEncWritesTheBlob : Prop :=
  ∀ (s : State) (M pw z kk : Bytes), M = memRead s (arg s 0) (arg s 1) →
    pw = memRead s (arg s 2) (arg s 3) → z = s.latch.rndbuf.toList →
    kk = kmacxof256 (z ++ pw) [] 1024 [0x53] →
    (¬ (Fits s (arg s 0) (arg s 1) ∧ Fits s (arg s 2) (arg s 3) ∧ Fits s (arg s 4) (128 + arg s 1)) →
      ∃ t, exec .symEnc s = .next t ∧ FailsWith s t .bounds) ∧
    (Fits s (arg s 0) (arg s 1) → Fits s (arg s 2) (arg s 3) → Fits s (arg s 4) (128 + arg s 1) →
      (s.latch.rndValid = false → ∃ t, exec .symEnc s = .next t ∧ FailsWith s t .noRnd) ∧
      (s.latch.rndValid = true →
        ∃ t, exec .symEnc s = .next t ∧
          CompletesOk s t (arg s 4)
            (z ++ xorBytes (kmacxof256 (kk.take 64) [] (8 * M.length) [0x53, 0x4B, 0x45]) M ++
              kmacxof256 (kk.drop 64) M 512 [0x53, 0x4B, 0x41]) false true))

/-- R321: SYM_DEC accepts exactly when the recomputed tag equals the blob's last 64 bytes, then writes the
plaintext with EQ = 1, and otherwise fails AUTH_FAIL with BUF untouched; a blob shorter than 128 bytes fails
BAD_LENGTH before any region is checked. -/
def Obligations.SymDecReleasesOnlyAuthenticPlaintext : Prop :=
  ∀ (s : State) (z c M pw kk : Bytes),
    z = memRead s (arg s 0) 64 → c = memRead s (arg s 0 + 64) (arg s 1 - 128) →
    pw = memRead s (arg s 2) (arg s 3) → kk = kmacxof256 (z ++ pw) [] 1024 [0x53] →
    M = xorBytes (kmacxof256 (kk.take 64) [] (8 * c.length) [0x53, 0x4B, 0x45]) c →
    (arg s 1 < 128 → ∃ t, exec .symDec s = .next t ∧ FailsWith s t .badLength) ∧
    (128 ≤ arg s 1 → Fits s (arg s 0) (arg s 1) → Fits s (arg s 2) (arg s 3) →
      Fits s (arg s 4) (arg s 1 - 128) →
      (memRead s (arg s 0 + arg s 1 - 64) 64 = kmacxof256 (kk.drop 64) M 512 [0x53, 0x4B, 0x41] →
        ∃ t, exec .symDec s = .next t ∧ CompletesOk s t (arg s 4) M true false) ∧
      (memRead s (arg s 0 + arg s 1 - 64) 64 ≠ kmacxof256 (kk.drop 64) M 512 [0x53, 0x4B, 0x41] →
        ∃ t, exec .symDec s = .next t ∧ FailsWith s t .authFail))

/-- R322: SYM_DEC of the blob SYM_ENC wrote, under the same passphrase, accepts and returns the message. The
second state is any state whose LATCH names the blob SYM_ENC left at its destination and whose BUF still
holds that blob and the passphrase's bytes. -/
def Obligations.SymmetricRoundTripReturnsTheMessage : Prop :=
  ∀ (s t d : State) (pwAddr dst : Nat), exec .symEnc s = .next t → t.rc = .ok →
    arg d 0 = arg s 4 → arg d 1 = 128 + arg s 1 → arg d 2 = pwAddr → arg d 3 = arg s 3 →
    arg d 4 = dst →
    memRead d (arg d 0) (arg d 1) = memRead t (arg s 4) (128 + arg s 1) →
    memRead d pwAddr (arg s 3) = memRead s (arg s 2) (arg s 3) →
    Fits d (arg d 0) (arg d 1) → Fits d pwAddr (arg s 3) → Fits d dst (arg s 1) →
    ∃ u, exec .symDec d = .next u ∧ u.rc = .ok ∧ u.eqFlag = true ∧
      u.outlen.toNat = arg s 1 ∧ memRead u dst (arg s 1) = memRead s (arg s 0) (arg s 1)
end

