-- ==== Sys2Proof/Laws/Bytes.lean ====
section
/-! SUPPORT. The conversions between integers and byte strings are inverse to each other (00_scope.md
R16), and the lengths they give. -/

namespace Sys2Proof.Machine

@[simp] theorem length_zeros (n : Nat) : (zeros n).length = n := by simp [zeros]

@[simp] theorem length_natBe (k n : Nat) : (natBe k n).length = k := by
  induction k with
  | zero => rfl
  | succ k ih => simp [natBe, ih]

@[simp] theorem length_natLe (k n : Nat) : (natLe k n).length = k := by
  induction k generalizing n with
  | zero => rfl
  | succ k ih => simp [natLe, ih]

@[simp] theorem length_W66 (n : Nat) : (W66 n).length = 66 := length_natBe 66 n

theorem length_xorBytes (a b : Bytes) : (xorBytes a b).length = min a.length b.length := by
  simp [xorBytes]

/-- A value before the string counts 256^|s| times. -/
theorem intBeFrom_eq (acc : Nat) (s : Bytes) :
    intBeFrom acc s = acc * 256 ^ s.length + intBe s := by
  induction s generalizing acc with
  | nil => simp [intBeFrom, intBe]
  | cons b s ih =>
    unfold intBe
    rw [intBeFrom, intBeFrom, ih, ih (0 * 256 + b.toNat), List.length_cons, pow_succ]
    ring

@[simp] theorem intBe_nil : intBe [] = 0 := rfl

theorem intBe_cons (b : Byte) (s : Bytes) :
    intBe (b :: s) = b.toNat * 256 ^ s.length + intBe s := by
  unfold intBe
  rw [intBeFrom, intBeFrom_eq]
  simp [intBe]

theorem intBe_lt (s : Bytes) : intBe s < 256 ^ s.length := by
  induction s with
  | nil => simp
  | cons b s ih =>
    rw [intBe_cons, List.length_cons, pow_succ]
    have hb : b.toNat + 1 ≤ 256 := b.isLt
    nlinarith [Nat.mul_le_mul_right (256 ^ s.length) hb]

/-- int_be of the k-byte string of n is n modulo 256^k. -/
theorem intBe_natBe (k n : Nat) : intBe (natBe k n) = n % 256 ^ k := by
  induction k with
  | zero => simp [natBe, Nat.mod_one]
  | succ k ih =>
    rw [natBe, intBe_cons, ih, length_natBe, BitVec.toNat_ofNat]
    have h : (2 : Nat) ^ 8 = 256 := rfl
    rw [h, pow_succ, Nat.mod_mul, Nat.mul_comm, Nat.add_comm]

/-- The k-byte string depends on n modulo 256^k alone. -/
theorem natBe_mod (k n : Nat) : natBe k (n % 256 ^ k) = natBe k n := by
  have key : ∀ j, natBe k (n % 256 ^ (k + j)) = natBe k n := by
    induction k with
    | zero => intro j; rfl
    | succ k ih =>
      intro j
      have h1 : natBe k (n % 256 ^ (k + 1 + j)) = natBe k n := by
        have := ih (1 + j)
        rwa [← Nat.add_assoc] at this
      rw [natBe, natBe, h1]
      congr 1
      apply BitVec.eq_of_toNat_eq
      rw [BitVec.toNat_ofNat, BitVec.toNat_ofNat]
      have hk : (256 : Nat) ^ (k + 1 + j) = 256 ^ k * 256 ^ (1 + j) := by
        rw [← pow_add]; congr 1; omega
      rw [hk, Nat.mod_mul_right_div_self]
      have hd : (2 : Nat) ^ 8 ∣ 256 ^ (1 + j) := by
        rw [pow_add, pow_one]; exact Dvd.intro _ rfl
      exact Nat.mod_mod_of_dvd _ hd
  simpa using key 0

/-- The string of the value of a byte string is that byte string. -/
theorem natBe_intBe (s : Bytes) : natBe s.length (intBe s) = s := by
  induction s with
  | nil => rfl
  | cons b s ih =>
    have hlt := intBe_lt s
    rw [intBe_cons, List.length_cons, natBe]
    have h1 : (b.toNat * 256 ^ s.length + intBe s) / 256 ^ s.length = b.toNat := by
      rw [Nat.add_comm, Nat.add_mul_div_right _ _ (by positivity), Nat.div_eq_of_lt hlt,
        Nat.zero_add]
    have h2 : natBe s.length (b.toNat * 256 ^ s.length + intBe s) = s := by
      rw [← natBe_mod, Nat.add_comm, Nat.add_mul_mod_self_right, natBe_mod, ih]
    rw [h1, h2]
    simp

/-- Byte k of a big-endian string, the most significant first. -/
theorem getD_natBe {j k : Nat} (n : Nat) (h : k < j) :
    ((natBe j n).getD k 0).toNat = n / 256 ^ (j - 1 - k) % 256 := by
  induction j generalizing k with
  | zero => omega
  | succ j ih =>
    cases k with
    | zero => simp [natBe, BitVec.toNat_ofNat]
    | succ k =>
      rw [natBe, List.getD_cons_succ, ih (by omega)]
      congr 3
      omega

/-- W66 is inverted by int_be below 2^528 (R16). -/
theorem intBe_W66 {n : Nat} (h : n < 2 ^ 528) : intBe (W66 n) = n := by
  rw [W66, intBe_natBe]
  refine Nat.mod_eq_of_lt (lt_of_lt_of_eq h ?_)
  rw [show (256 : Nat) = 2 ^ 8 from rfl, ← pow_mul]

/-- XOR with one keystream twice gives the data back. -/
theorem xorBytes_cancel (k d : Bytes) (h : k.length = d.length) :
    xorBytes k (xorBytes k d) = d := by
  induction k generalizing d with
  | nil =>
    cases d with
    | nil => rfl
    | cons b d => simp at h
  | cons x k ih =>
    cases d with
    | nil => simp at h
    | cons b d =>
      have h' : k.length = d.length := by simpa using h
      have := ih d h'
      simp only [xorBytes] at this ⊢
      simp [this]

end Sys2Proof.Machine
end

