-- ==== Sys2Proof/Laws/Memory.lean ====
section
/-! SUPPORT. The laws of BUF: what a read gives after a write, and that every memory operation keeps the
canonical form. -/

namespace Sys2Proof.Machine

/-! ### Entries -/

theorem Memory.bounds_of_mem_cells {s : Bytes} {a : Nat} {c : Host.Cell}
    (h : c ∈ Memory.cells a s) : a ≤ c.1 ∧ c.1 < a + s.length ∧ c.2 ≠ Memory.unlisted := by
  induction s generalizing a with
  | nil => simp [Memory.cells] at h
  | cons b s ih =>
    by_cases hb : b = Memory.unlisted
    · rw [Memory.cells, if_pos hb] at h
      obtain ⟨h1, h2, h3⟩ := ih h
      exact ⟨by omega, by simp only [List.length_cons]; omega, h3⟩
    · rw [Memory.cells, if_neg hb, List.mem_cons] at h
      rcases h with rfl | h
      · exact ⟨le_refl _, by simp, hb⟩
      · obtain ⟨h1, h2, h3⟩ := ih h
        exact ⟨by omega, by simp only [List.length_cons]; omega, h3⟩

theorem Memory.pairwise_cells (a : Nat) (s : Bytes) :
    (Memory.cells a s).Pairwise (fun c d => c.1 < d.1) := by
  induction s generalizing a with
  | nil => simp [Memory.cells]
  | cons b s ih =>
    by_cases hb : b = Memory.unlisted
    · rw [Memory.cells, if_pos hb]
      exact ih (a + 1)
    · rw [Memory.cells, if_neg hb, List.pairwise_cons]
      refine ⟨fun d hd => ?_, ih (a + 1)⟩
      have := (Memory.bounds_of_mem_cells hd).1
      omega

/-! ### Reads -/

@[simp] theorem Memory.read_nil (a : Nat) : Memory.read [] a = Memory.unlisted := rfl

/-- A read of two stretches: the first where it lists the address, else the second. -/
theorem Memory.read_append (m m' : Memory) (a : Nat) :
    Memory.read (m ++ m') a =
      if ∃ c ∈ m, c.1 = a then Memory.read m a else Memory.read m' a := by
  induction m with
  | nil => simp
  | cons c m ih =>
    obtain ⟨b, v⟩ := c
    by_cases hb : a = b
    · subst hb
      simp [Memory.read]
    · have hb' : ¬ b = a := fun h => hb h.symm
      simp only [List.cons_append, Memory.read, if_neg hb, ih, List.mem_cons, exists_eq_or_imp,
        hb', false_or]

theorem Memory.read_eq_unlisted {m : Memory} {a : Nat} (h : ¬ ∃ c ∈ m, c.1 = a) :
    Memory.read m a = Memory.unlisted := by
  induction m with
  | nil => rfl
  | cons c m ih =>
    obtain ⟨b, v⟩ := c
    have hb : ¬ a = b := fun hab => h ⟨(b, v), by simp, hab.symm⟩
    rw [Memory.read, if_neg hb]
    exact ih fun ⟨c, hc, hca⟩ => h ⟨c, List.mem_cons_of_mem _ hc, hca⟩

theorem Memory.read_filter (m : Memory) (p : Nat → Bool) (a : Nat) :
    Memory.read (m.filter fun c => p c.1) a =
      if p a then Memory.read m a else Memory.unlisted := by
  induction m with
  | nil => simp
  | cons c m ih =>
    obtain ⟨b, v⟩ := c
    by_cases hp : p b
    · rw [List.filter_cons_of_pos (by simpa using hp)]
      by_cases hab : a = b
      · subst hab
        simp [Memory.read, hp]
      · simp only [Memory.read, if_neg hab, ih]
    · rw [List.filter_cons_of_neg (by simpa using hp)]
      by_cases hab : a = b
      · subst hab
        simp [hp, ih]
      · simp only [Memory.read, if_neg hab, ih]

theorem Memory.read_cells (a : Nat) (s : Bytes) (b : Nat) :
    Memory.read (Memory.cells a s) b =
      if a ≤ b ∧ b < a + s.length then s.getD (b - a) 0 else Memory.unlisted := by
  induction s generalizing a with
  | nil => simp [Memory.cells, Memory.unlisted]
  | cons v s ih =>
    have hz : Memory.unlisted = (0 : Byte) := rfl
    by_cases hba : b = a
    · subst hba
      by_cases hv : v = Memory.unlisted
      · rw [Memory.cells, if_pos hv, ih]
        simp [hv]
      · rw [Memory.cells, if_neg hv]
        simp [Memory.read]
    · have key : Memory.read (Memory.cells a (v :: s)) b =
          Memory.read (Memory.cells (a + 1) s) b := by
        by_cases hv : v = Memory.unlisted
        · rw [Memory.cells, if_pos hv]
        · rw [Memory.cells, if_neg hv, Memory.read, if_neg hba]
      rw [key, ih]
      by_cases hab : a + 1 ≤ b
      · have h1 : b - a = (b - (a + 1)) + 1 := by omega
        have h2 : (a + 1 ≤ b ∧ b < a + 1 + s.length) ↔ (a ≤ b ∧ b < a + (v :: s).length) := by
          simp only [List.length_cons]; omega
        simp only [h2, h1, List.getD_cons_succ]
      · rw [if_neg (by omega), if_neg (by omega)]

/-- THE law of a write: the written stretch reads as the written bytes, every other address as before. -/
theorem Memory.read_write (m : Memory) (a : Nat) (s : Bytes) (b : Nat) :
    (m.write a s).read b =
      if a ≤ b ∧ b < a + s.length then s.getD (b - a) 0 else m.read b := by
  unfold Memory.write
  have hlow := Memory.read_filter m (fun x => decide (x < a)) b
  have hhigh := Memory.read_filter m (fun x => decide (a + s.length ≤ x)) b
  rw [List.append_assoc, Memory.read_append, Memory.read_append, hlow, Memory.read_cells, hhigh]
  by_cases h1 : b < a
  · have hno : ¬ ∃ c ∈ Memory.cells a s, c.1 = b := by
      rintro ⟨c, hc, rfl⟩
      have := (Memory.bounds_of_mem_cells hc).1
      omega
    have h2 : ¬ (a ≤ b ∧ b < a + s.length) := by omega
    have h3 : ¬ a + s.length ≤ b := by omega
    simp only [h2, hno, h1, h3, decide_true, decide_false, if_true, if_false, Bool.false_eq_true]
    split
    · rfl
    · rename_i hnot
      refine (Memory.read_eq_unlisted fun ⟨c, hc, hcb⟩ => hnot ⟨c, ?_, hcb⟩).symm
      simp only [List.mem_filter, hc, decide_eq_true_eq, true_and]
      omega
  · have hno : ¬ ∃ c ∈ m.filter (fun c => decide (c.1 < a)), c.1 = b := by
      rintro ⟨c, hc, rfl⟩
      simp only [List.mem_filter, decide_eq_true_eq] at hc
      exact h1 hc.2
    rw [if_neg hno]
    by_cases h2 : b < a + s.length
    · have h3 : a ≤ b ∧ b < a + s.length := by omega
      have h4 : ¬ a + s.length ≤ b := by omega
      simp only [h3, h4, decide_false, Bool.false_eq_true, if_false, and_self, if_true]
      split
      · rfl
      · rename_i hnot
        have := Memory.read_eq_unlisted hnot
        rw [Memory.read_cells, if_pos h3] at this
        exact this.symm
    · have hno' : ¬ ∃ c ∈ Memory.cells a s, c.1 = b := by
        rintro ⟨c, hc, rfl⟩
        exact h2 (Memory.bounds_of_mem_cells hc).2.1
      have h3 : ¬ (a ≤ b ∧ b < a + s.length) := by omega
      have h4 : a + s.length ≤ b := by omega
      simp only [hno', h3, h4, decide_true, if_true, if_false]

/-! ### Byte strings -/

@[simp] theorem Memory.length_readBytes (m : Memory) (a n : Nat) :
    (m.readBytes a n).length = n := by
  induction n generalizing a with
  | zero => rfl
  | succ n ih => simp [Memory.readBytes, ih]

theorem Memory.readBytes_congr {m m' : Memory} {a n : Nat}
    (h : ∀ b, a ≤ b → b < a + n → m.read b = m'.read b) :
    m.readBytes a n = m'.readBytes a n := by
  induction n generalizing a with
  | zero => rfl
  | succ n ih =>
    rw [Memory.readBytes, Memory.readBytes, h a (le_refl _) (by omega),
      ih fun b h1 h2 => h b (by omega) (by omega)]

theorem Memory.getD_readBytes (m : Memory) (a n k : Nat) (h : k < n) :
    (m.readBytes a n).getD k 0 = m.read (a + k) := by
  induction n generalizing a k with
  | zero => omega
  | succ n ih =>
    cases k with
    | zero => simp [Memory.readBytes]
    | succ k =>
      rw [Memory.readBytes, List.getD_cons_succ, ih _ _ (by omega)]
      congr 1
      omega

theorem Memory.readBytes_eq_of_getD {m : Memory} {a : Nat} {s : Bytes}
    (h : ∀ k, k < s.length → m.read (a + k) = s.getD k 0) : m.readBytes a s.length = s := by
  induction s generalizing a with
  | nil => rfl
  | cons v s ih =>
    have h0 := h 0 (by simp)
    simp only [Nat.add_zero, List.getD_cons_zero] at h0
    simp only [List.length_cons, Memory.readBytes, h0, List.cons.injEq, true_and]
    refine ih fun k hk => ?_
    have := h (k + 1) (by simpa using hk)
    rw [List.getD_cons_succ] at this
    rw [← this]
    congr 1
    omega

/-- A byte string written at an address reads back. -/
theorem Memory.readBytes_write_same (m : Memory) (a : Nat) (s : Bytes) :
    (m.write a s).readBytes a s.length = s := by
  refine Memory.readBytes_eq_of_getD fun k hk => ?_
  rw [Memory.read_write, if_pos (by omega)]
  congr 1
  omega

/-- A write leaves every byte string outside its stretch. -/
theorem Memory.readBytes_write_disjoint (m : Memory) (a : Nat) (s : Bytes) (b n : Nat)
    (h : b + n ≤ a ∨ a + s.length ≤ b) : (m.write a s).readBytes b n = m.readBytes b n :=
  Memory.readBytes_congr fun c h1 h2 => by rw [Memory.read_write, if_neg (by omega)]

/-- A byte string splits at any place. -/
theorem Memory.readBytes_add (m : Memory) (a n k : Nat) :
    m.readBytes a (n + k) = m.readBytes a n ++ m.readBytes (a + n) k := by
  induction n generalizing a with
  | zero => simp [Memory.readBytes]
  | succ n ih =>
    rw [Nat.add_right_comm, Memory.readBytes, ih, Memory.readBytes, List.cons_append]
    congr 3
    omega

/-! ### The canonical form -/

theorem Memory.wf_nil : Memory.wf [] := ⟨List.Pairwise.nil, by simp⟩

/-- Every write keeps the canonical form. -/
theorem Memory.wf_write {m : Memory} (h : m.wf) (a : Nat) (s : Bytes) : (m.write a s).wf := by
  refine ⟨?_, fun c hc => ?_⟩
  · unfold Memory.write
    rw [List.pairwise_append, List.pairwise_append]
    refine ⟨⟨h.1.filter _, Memory.pairwise_cells a s, fun c hc d hd => ?_⟩, h.1.filter _,
      fun c hc d hd => ?_⟩
    · have := (Memory.bounds_of_mem_cells hd).1
      simp only [List.mem_filter, decide_eq_true_eq] at hc
      omega
    · simp only [List.mem_filter, decide_eq_true_eq] at hd
      rw [List.mem_append] at hc
      rcases hc with hc | hc
      · simp only [List.mem_filter, decide_eq_true_eq] at hc
        omega
      · have := (Memory.bounds_of_mem_cells hc).2.1
        omega
  · unfold Memory.write at hc
    simp only [List.mem_append, List.mem_filter] at hc
    rcases hc with (hc | hc) | hc
    · exact h.2 c hc.1
    · exact (Memory.bounds_of_mem_cells hc).2.2
    · exact h.2 c hc.1

/-- A write inside BUF lists no address outside it. -/
theorem Memory.bounded_write {m : Memory} {N : Nat} (h : ∀ c ∈ m, c.1 < N) {a : Nat} {s : Bytes}
    (ha : a + s.length ≤ N) : ∀ c ∈ m.write a s, c.1 < N := by
  intro c hc
  unfold Memory.write at hc
  simp only [List.mem_append, List.mem_filter] at hc
  rcases hc with (hc | hc) | hc
  · exact h c hc.1
  · have := (Memory.bounds_of_mem_cells hc).2.1
    omega
  · exact h c hc.1

/-- Power-on contents are canonical and lie inside BUF. -/
theorem Memory.wf_ofCells (N : Nat) (cs : List Host.Cell) {m : Memory} (h : m.wf)
    (hN : ∀ c ∈ m, c.1 < N) :
    (Memory.ofCells N cs m).wf ∧ ∀ c ∈ Memory.ofCells N cs m, c.1 < N := by
  induction cs generalizing m with
  | nil => exact ⟨h, hN⟩
  | cons c cs ih =>
    obtain ⟨a, b⟩ := c
    by_cases ha : a < N
    · rw [Memory.ofCells, if_pos ha]
      exact ih (Memory.wf_write h a [b]) (Memory.bounded_write hN (by simpa using ha))
    · rw [Memory.ofCells, if_neg ha]
      exact ih h hN

/-- Canonical memories that read alike are equal, so equal memories are equal data. -/
theorem Memory.ext_of_read {m m' : Memory} (h : m.wf) (h' : m'.wf)
    (hr : ∀ a, m.read a = m'.read a) : m = m' := by
  induction m generalizing m' with
  | nil =>
    cases m' with
    | nil => rfl
    | cons c m' =>
      exfalso
      have := hr c.1
      simp only [Memory.read, if_true] at this
      exact h'.2 c (by simp) this.symm
  | cons c m ih =>
    cases m' with
    | nil =>
      exfalso
      have := hr c.1
      simp only [Memory.read, if_true] at this
      exact h.2 c (by simp) this
    | cons d m' =>
      obtain ⟨a, v⟩ := c
      obtain ⟨b, w⟩ := d
      have hm := List.pairwise_cons.1 h.1
      have hm' := List.pairwise_cons.1 h'.1
      have hlow : ∀ {k : Memory} {x y : Nat}, (∀ e ∈ k, x < e.1) → y ≤ x →
          Memory.read k y = Memory.unlisted := fun hk hy =>
        Memory.read_eq_unlisted fun ⟨e, he, hey⟩ => by have := hk e he; omega
      have hab : a = b := by
        rcases Nat.lt_trichotomy a b with hlt | heq | hlt
        · exfalso
          have := hr a
          simp only [Memory.read, if_true, if_neg (Nat.ne_of_lt hlt),
            hlow hm'.1 (Nat.le_of_lt hlt)] at this
          exact h.2 (a, v) (by simp) this
        · exact heq
        · exfalso
          have := hr b
          simp only [Memory.read, if_true, if_neg (Nat.ne_of_lt hlt),
            hlow hm.1 (Nat.le_of_lt hlt)] at this
          exact h'.2 (b, w) (by simp) this.symm
      subst hab
      have hvw : v = w := by simpa [Memory.read] using hr a
      subst hvw
      have : m = m' := by
        refine ih ⟨hm.2, fun e he => h.2 e (List.mem_cons_of_mem _ he)⟩
          ⟨hm'.2, fun e he => h'.2 e (List.mem_cons_of_mem _ he)⟩ fun x => ?_
        by_cases hx : x = a
        · rw [hx, hlow hm.1 (le_refl _), hlow hm'.1 (le_refl _)]
        · simpa [Memory.read, hx] using hr x
      rw [this]

end Sys2Proof.Machine
end

