-- ==== Sys2Proof/Laws/State.lean ====
section
/-! SUPPORT. One lemma per field per update of the state, so that no proof unfolds a record update. -/

namespace Sys2Proof.Machine

variable (s : State)

/-! ### Fields after issue (40_command.md R140) -/

@[simp] theorem State.issue_params (v : Word) : (s.issue v).params = s.params := rfl
@[simp] theorem State.issue_irqEn (v : Word) : (s.issue v).irqEn = s.irqEn := rfl
@[simp] theorem State.issue_doneFlag (v : Word) : (s.issue v).doneFlag = false := rfl
@[simp] theorem State.issue_werrFlag (v : Word) : (s.issue v).werrFlag = s.werrFlag := rfl
@[simp] theorem State.issue_eqFlag (v : Word) : (s.issue v).eqFlag = false := rfl
@[simp] theorem State.issue_rc (v : Word) : (s.issue v).rc = .ok := rfl
@[simp] theorem State.issue_cmd (v : Word) : (s.issue v).cmd = v := rfl
@[simp] theorem State.issue_outlen (v : Word) : (s.issue v).outlen = 0 := rfl
@[simp] theorem State.issue_args (v : Word) : (s.issue v).args = s.args := rfl
@[simp] theorem State.issue_rndbuf (v : Word) : (s.issue v).rndbuf = s.rndbuf := rfl
@[simp] theorem State.issue_rndValid (v : Word) : (s.issue v).rndValid = s.rndValid := rfl
@[simp] theorem State.issue_phase (v : Word) : (s.issue v).phase = .busy := rfl
@[simp] theorem State.issue_latch (v : Word) :
    (s.issue v).latch = { cmd := v, args := s.args, rndbuf := s.rndbuf, rndValid := s.rndValid } := rfl
@[simp] theorem State.issue_buf (v : Word) : (s.issue v).buf = s.buf := rfl
@[simp] theorem State.issue_hostError (v : Word) : (s.issue v).hostError = s.hostError := rfl
@[simp] theorem State.issue_schedule (v : Word) : (s.issue v).schedule = s.schedule := rfl
@[simp] theorem State.issue_reply (v : Word) : (s.issue v).reply = s.reply := rfl
@[simp] theorem State.issue_draws (v : Word) : (s.issue v).draws = s.draws := rfl

/-! ### Fields after a completion with RC = OK (R141) -/

@[simp] theorem State.commit_params (e : Effect) : (s.commit e).params = s.params := rfl
@[simp] theorem State.commit_irqEn (e : Effect) : (s.commit e).irqEn = s.irqEn := rfl
@[simp] theorem State.commit_doneFlag (e : Effect) : (s.commit e).doneFlag = true := rfl
@[simp] theorem State.commit_werrFlag (e : Effect) : (s.commit e).werrFlag = s.werrFlag := rfl
@[simp] theorem State.commit_eqFlag (e : Effect) : (s.commit e).eqFlag = e.eq := rfl
@[simp] theorem State.commit_rc (e : Effect) : (s.commit e).rc = .ok := rfl
@[simp] theorem State.commit_cmd (e : Effect) : (s.commit e).cmd = s.cmd := rfl
@[simp] theorem State.commit_outlen (e : Effect) :
    (s.commit e).outlen = BitVec.ofNat 32 e.outlen := rfl
@[simp] theorem State.commit_args (e : Effect) : (s.commit e).args = s.args := rfl
@[simp] theorem State.commit_rndbuf (e : Effect) :
    (s.commit e).rndbuf = if e.consume then zeroRndbuf else s.rndbuf := rfl
@[simp] theorem State.commit_rndValid (e : Effect) :
    (s.commit e).rndValid = if e.consume then false else s.rndValid := rfl
@[simp] theorem State.commit_phase (e : Effect) : (s.commit e).phase = .idle := rfl
@[simp] theorem State.commit_latch (e : Effect) : (s.commit e).latch = s.latch := rfl
@[simp] theorem State.commit_buf (e : Effect) : (s.commit e).buf = s.buf.apply e.write := rfl
@[simp] theorem State.commit_hostError (e : Effect) : (s.commit e).hostError = s.hostError := rfl
@[simp] theorem State.commit_schedule (e : Effect) : (s.commit e).schedule = s.schedule := rfl
@[simp] theorem State.commit_reply (e : Effect) : (s.commit e).reply = s.reply := rfl
@[simp] theorem State.commit_draws (e : Effect) : (s.commit e).draws = s.draws := rfl

/-! ### Fields after a failing completion (R141, 60_exceptions.md R341) -/

@[simp] theorem State.failWith_params (c : ResultCode) : (s.failWith c).params = s.params := rfl
@[simp] theorem State.failWith_irqEn (c : ResultCode) : (s.failWith c).irqEn = s.irqEn := rfl
@[simp] theorem State.failWith_doneFlag (c : ResultCode) : (s.failWith c).doneFlag = true := rfl
@[simp] theorem State.failWith_werrFlag (c : ResultCode) :
    (s.failWith c).werrFlag = s.werrFlag := rfl
@[simp] theorem State.failWith_eqFlag (c : ResultCode) : (s.failWith c).eqFlag = false := rfl
@[simp] theorem State.failWith_rc (c : ResultCode) : (s.failWith c).rc = c := rfl
@[simp] theorem State.failWith_cmd (c : ResultCode) : (s.failWith c).cmd = s.cmd := rfl
@[simp] theorem State.failWith_outlen (c : ResultCode) : (s.failWith c).outlen = 0 := rfl
@[simp] theorem State.failWith_args (c : ResultCode) : (s.failWith c).args = s.args := rfl
@[simp] theorem State.failWith_rndbuf (c : ResultCode) : (s.failWith c).rndbuf = s.rndbuf := rfl
@[simp] theorem State.failWith_rndValid (c : ResultCode) :
    (s.failWith c).rndValid = s.rndValid := rfl
@[simp] theorem State.failWith_phase (c : ResultCode) : (s.failWith c).phase = .idle := rfl
@[simp] theorem State.failWith_latch (c : ResultCode) : (s.failWith c).latch = s.latch := rfl
@[simp] theorem State.failWith_buf (c : ResultCode) : (s.failWith c).buf = s.buf := rfl
@[simp] theorem State.failWith_hostError (c : ResultCode) :
    (s.failWith c).hostError = s.hostError := rfl
@[simp] theorem State.failWith_schedule (c : ResultCode) :
    (s.failWith c).schedule = s.schedule := rfl
@[simp] theorem State.failWith_reply (c : ResultCode) : (s.failWith c).reply = s.reply := rfl
@[simp] theorem State.failWith_draws (c : ResultCode) : (s.failWith c).draws = s.draws := rfl

/-! ### Fields after soft reset (70_reset_and_hazards.md R372) -/

@[simp] theorem State.softReset_params : (s.softReset).params = s.params := rfl
@[simp] theorem State.softReset_irqEn : (s.softReset).irqEn = false := rfl
@[simp] theorem State.softReset_doneFlag : (s.softReset).doneFlag = false := rfl
@[simp] theorem State.softReset_werrFlag : (s.softReset).werrFlag = false := rfl
@[simp] theorem State.softReset_eqFlag : (s.softReset).eqFlag = false := rfl
@[simp] theorem State.softReset_rc : (s.softReset).rc = .ok := rfl
@[simp] theorem State.softReset_cmd : (s.softReset).cmd = 0 := rfl
@[simp] theorem State.softReset_outlen : (s.softReset).outlen = 0 := rfl
@[simp] theorem State.softReset_args : (s.softReset).args = Vector.replicate 8 0 := rfl
@[simp] theorem State.softReset_rndbuf : (s.softReset).rndbuf = zeroRndbuf := rfl
@[simp] theorem State.softReset_rndValid : (s.softReset).rndValid = false := rfl
@[simp] theorem State.softReset_phase : (s.softReset).phase = .idle := rfl
@[simp] theorem State.softReset_latch : (s.softReset).latch = Latch.reset := rfl
@[simp] theorem State.softReset_buf : (s.softReset).buf = s.buf := rfl
@[simp] theorem State.softReset_hostError : (s.softReset).hostError = s.hostError := rfl
@[simp] theorem State.softReset_schedule : (s.softReset).schedule = s.schedule := rfl
@[simp] theorem State.softReset_reply : (s.softReset).reply = s.reply := rfl
@[simp] theorem State.softReset_draws : (s.softReset).draws = s.draws := rfl

/-! ### Fields after power-on reset (70 R370) -/

@[simp] theorem State.powerOn_params (cs : List Host.Cell) : (s.powerOn cs).params = s.params := rfl
@[simp] theorem State.powerOn_irqEn (cs : List Host.Cell) : (s.powerOn cs).irqEn = false := rfl
@[simp] theorem State.powerOn_doneFlag (cs : List Host.Cell) :
    (s.powerOn cs).doneFlag = false := rfl
@[simp] theorem State.powerOn_werrFlag (cs : List Host.Cell) :
    (s.powerOn cs).werrFlag = false := rfl
@[simp] theorem State.powerOn_eqFlag (cs : List Host.Cell) : (s.powerOn cs).eqFlag = false := rfl
@[simp] theorem State.powerOn_rc (cs : List Host.Cell) : (s.powerOn cs).rc = .ok := rfl
@[simp] theorem State.powerOn_cmd (cs : List Host.Cell) : (s.powerOn cs).cmd = 0 := rfl
@[simp] theorem State.powerOn_outlen (cs : List Host.Cell) : (s.powerOn cs).outlen = 0 := rfl
@[simp] theorem State.powerOn_args (cs : List Host.Cell) :
    (s.powerOn cs).args = Vector.replicate 8 0 := rfl
@[simp] theorem State.powerOn_rndbuf (cs : List Host.Cell) :
    (s.powerOn cs).rndbuf = zeroRndbuf := rfl
@[simp] theorem State.powerOn_rndValid (cs : List Host.Cell) :
    (s.powerOn cs).rndValid = false := rfl
@[simp] theorem State.powerOn_phase (cs : List Host.Cell) : (s.powerOn cs).phase = .idle := rfl
@[simp] theorem State.powerOn_latch (cs : List Host.Cell) :
    (s.powerOn cs).latch = Latch.reset := rfl
@[simp] theorem State.powerOn_buf (cs : List Host.Cell) :
    (s.powerOn cs).buf = Memory.ofCells s.params.bufSize cs [] := rfl
@[simp] theorem State.powerOn_hostError (cs : List Host.Cell) :
    (s.powerOn cs).hostError = s.hostError := rfl
@[simp] theorem State.powerOn_schedule (cs : List Host.Cell) :
    (s.powerOn cs).schedule = s.schedule := rfl
@[simp] theorem State.powerOn_reply (cs : List Host.Cell) : (s.powerOn cs).reply = s.reply := rfl
@[simp] theorem State.powerOn_draws (cs : List Host.Cell) : (s.powerOn cs).draws = s.draws := rfl

/-! ### Fields after a dropped write (20_memory.md R90) -/

@[simp] theorem State.dropWrite_params : (s.dropWrite).params = s.params := rfl
@[simp] theorem State.dropWrite_irqEn : (s.dropWrite).irqEn = s.irqEn := rfl
@[simp] theorem State.dropWrite_doneFlag : (s.dropWrite).doneFlag = s.doneFlag := rfl
@[simp] theorem State.dropWrite_werrFlag : (s.dropWrite).werrFlag = true := rfl
@[simp] theorem State.dropWrite_eqFlag : (s.dropWrite).eqFlag = s.eqFlag := rfl
@[simp] theorem State.dropWrite_rc : (s.dropWrite).rc = s.rc := rfl
@[simp] theorem State.dropWrite_cmd : (s.dropWrite).cmd = s.cmd := rfl
@[simp] theorem State.dropWrite_outlen : (s.dropWrite).outlen = s.outlen := rfl
@[simp] theorem State.dropWrite_args : (s.dropWrite).args = s.args := rfl
@[simp] theorem State.dropWrite_rndbuf : (s.dropWrite).rndbuf = s.rndbuf := rfl
@[simp] theorem State.dropWrite_rndValid : (s.dropWrite).rndValid = s.rndValid := rfl
@[simp] theorem State.dropWrite_phase : (s.dropWrite).phase = s.phase := rfl
@[simp] theorem State.dropWrite_latch : (s.dropWrite).latch = s.latch := rfl
@[simp] theorem State.dropWrite_buf : (s.dropWrite).buf = s.buf := rfl
@[simp] theorem State.dropWrite_hostError : (s.dropWrite).hostError = s.hostError := rfl
@[simp] theorem State.dropWrite_schedule : (s.dropWrite).schedule = s.schedule := rfl
@[simp] theorem State.dropWrite_reply : (s.dropWrite).reply = s.reply := rfl
@[simp] theorem State.dropWrite_draws : (s.dropWrite).draws = s.draws := rfl

/-! ### Fields after a write of STATUS (10_state.md R39) -/

@[simp] theorem State.writeStatus_params (v : Word) : (s.writeStatus v).params = s.params := rfl
@[simp] theorem State.writeStatus_irqEn (v : Word) : (s.writeStatus v).irqEn = s.irqEn := rfl
@[simp] theorem State.writeStatus_doneFlag (v : Word) :
    (s.writeStatus v).doneFlag = (s.doneFlag && !v.getLsbD 1) := rfl
@[simp] theorem State.writeStatus_werrFlag (v : Word) :
    (s.writeStatus v).werrFlag = (s.werrFlag && !v.getLsbD 3) := rfl
@[simp] theorem State.writeStatus_eqFlag (v : Word) : (s.writeStatus v).eqFlag = s.eqFlag := rfl
@[simp] theorem State.writeStatus_rc (v : Word) : (s.writeStatus v).rc = s.rc := rfl
@[simp] theorem State.writeStatus_cmd (v : Word) : (s.writeStatus v).cmd = s.cmd := rfl
@[simp] theorem State.writeStatus_outlen (v : Word) : (s.writeStatus v).outlen = s.outlen := rfl
@[simp] theorem State.writeStatus_args (v : Word) : (s.writeStatus v).args = s.args := rfl
@[simp] theorem State.writeStatus_rndbuf (v : Word) : (s.writeStatus v).rndbuf = s.rndbuf := rfl
@[simp] theorem State.writeStatus_rndValid (v : Word) :
    (s.writeStatus v).rndValid = s.rndValid := rfl
@[simp] theorem State.writeStatus_phase (v : Word) : (s.writeStatus v).phase = s.phase := rfl
@[simp] theorem State.writeStatus_latch (v : Word) : (s.writeStatus v).latch = s.latch := rfl
@[simp] theorem State.writeStatus_buf (v : Word) : (s.writeStatus v).buf = s.buf := rfl
@[simp] theorem State.writeStatus_hostError (v : Word) :
    (s.writeStatus v).hostError = s.hostError := rfl
@[simp] theorem State.writeStatus_schedule (v : Word) :
    (s.writeStatus v).schedule = s.schedule := rfl
@[simp] theorem State.writeStatus_reply (v : Word) : (s.writeStatus v).reply = s.reply := rfl
@[simp] theorem State.writeStatus_draws (v : Word) : (s.writeStatus v).draws = s.draws := rfl

/-! ### Fields after a bus error (60_exceptions.md R347) -/

@[simp] theorem State.busError_params (sp : Space) (a w : Nat) :
    (s.busError sp a w).params = s.params := rfl
@[simp] theorem State.busError_irqEn (sp : Space) (a w : Nat) :
    (s.busError sp a w).irqEn = s.irqEn := rfl
@[simp] theorem State.busError_doneFlag (sp : Space) (a w : Nat) :
    (s.busError sp a w).doneFlag = s.doneFlag := rfl
@[simp] theorem State.busError_werrFlag (sp : Space) (a w : Nat) :
    (s.busError sp a w).werrFlag = s.werrFlag := rfl
@[simp] theorem State.busError_eqFlag (sp : Space) (a w : Nat) :
    (s.busError sp a w).eqFlag = s.eqFlag := rfl
@[simp] theorem State.busError_rc (sp : Space) (a w : Nat) : (s.busError sp a w).rc = s.rc := rfl
@[simp] theorem State.busError_cmd (sp : Space) (a w : Nat) : (s.busError sp a w).cmd = s.cmd := rfl
@[simp] theorem State.busError_outlen (sp : Space) (a w : Nat) :
    (s.busError sp a w).outlen = s.outlen := rfl
@[simp] theorem State.busError_args (sp : Space) (a w : Nat) :
    (s.busError sp a w).args = s.args := rfl
@[simp] theorem State.busError_rndbuf (sp : Space) (a w : Nat) :
    (s.busError sp a w).rndbuf = s.rndbuf := rfl
@[simp] theorem State.busError_rndValid (sp : Space) (a w : Nat) :
    (s.busError sp a w).rndValid = s.rndValid := rfl
@[simp] theorem State.busError_phase (sp : Space) (a w : Nat) :
    (s.busError sp a w).phase = s.phase := rfl
@[simp] theorem State.busError_latch (sp : Space) (a w : Nat) :
    (s.busError sp a w).latch = s.latch := rfl
@[simp] theorem State.busError_buf (sp : Space) (a w : Nat) : (s.busError sp a w).buf = s.buf := rfl
@[simp] theorem State.busError_hostError (sp : Space) (a w : Nat) :
    (s.busError sp a w).hostError = some { space := sp, addr := a, width := w } := rfl
@[simp] theorem State.busError_schedule (sp : Space) (a w : Nat) :
    (s.busError sp a w).schedule = s.schedule := rfl
@[simp] theorem State.busError_reply (sp : Space) (a w : Nat) :
    (s.busError sp a w).reply = .none := rfl
@[simp] theorem State.busError_draws (sp : Space) (a w : Nat) :
    (s.busError sp a w).draws = s.draws := rfl

/-! ### A completion by its outcome -/

@[simp] theorem State.complete_ok (e : Effect) : s.complete (.ok e) = s.commit e := rfl
@[simp] theorem State.complete_error (c : ResultCode) : s.complete (.error c) = s.failWith c := rfl

end Sys2Proof.Machine
end

