-- ==== Sys2Proof/Laws/Completion.lean ====
section
/-! SUPPORT. What a completion can do, said once: exec is the completion for its command's outcome, and the
two completions leave what `CompletesOk` and `FailsWith` say. -/

namespace Sys2Proof.Machine

/-! ### Checks -/

@[simp] theorem require_true (c : ResultCode) : require true c = .ok () := rfl
@[simp] theorem require_false (c : ResultCode) : require false c = .error c := rfl

theorem require_eq_ok {b : Bool} {c : ResultCode} {u : Unit} : require b c = .ok u ↔ b = true := by
  cases b <;> simp

theorem checkRegion_eq_ok {s : State} {a n : Nat} {u : Unit} :
    checkRegion s a n = .ok u ↔ Fits s a n := by simp [checkRegion, require_eq_ok]

theorem checkField_eq_ok {v : Nat} {u : Unit} : checkField v = .ok u ↔ v < P := by
  simp [checkField, require_eq_ok]

theorem checkPoint_eq_ok {p : Point} {u : Unit} : checkPoint p = .ok u ↔ Reduced p := by
  simp [checkPoint, require_eq_ok]

theorem checkRegion_of_fits {s : State} {a n : Nat} (h : Fits s a n) : checkRegion s a n = .ok () :=
  checkRegion_eq_ok.2 h

theorem checkField_of_lt {v : Nat} (h : v < P) : checkField v = .ok () := checkField_eq_ok.2 h

theorem checkPoint_of_reduced {p : Point} (h : Reduced p) : checkPoint p = .ok () :=
  checkPoint_eq_ok.2 h

theorem require_of {b : Bool} {c : ResultCode} (h : b = true) : require b c = .ok () :=
  require_eq_ok.2 h

/-- A check that fails raises its own code. -/
theorem require_eq_error {b : Bool} {c d : ResultCode} :
    require b c = .error d ↔ b = false ∧ d = c := by
  cases b <;> simp [eq_comm]

@[simp] theorem except_ok_bind {α β : Type} (a : α) (f : α → Except ResultCode β) :
    (Except.ok a >>= f) = f a := rfl

@[simp] theorem except_error_bind {α β : Type} (c : ResultCode) (f : α → Except ResultCode β) :
    ((Except.error c : Except ResultCode α) >>= f) = .error c := rfl

/-- A sequence succeeds where its parts do. -/
theorem except_bind_eq_ok {α β : Type} {x : Except ResultCode α} {f : α → Except ResultCode β}
    {b : β} : (x >>= f) = .ok b ↔ ∃ a, x = .ok a ∧ f a = .ok b := by
  cases x <;> simp

/-! ### Exec -/

/-- Every command completes with the outcome of its Exec. -/
theorem exec_eq (i : Instr) (s : State) : exec i s = .next (s.complete (effectOf i s)) := by
  cases i <;> rfl

/-- The two ways a command ends. -/
theorem exec_cases {i : Instr} {s t : State} (h : exec i s = .next t) :
    (∃ e, effectOf i s = .ok e ∧ t = s.commit e) ∨
      ∃ c, effectOf i s = .error c ∧ t = s.failWith c := by
  rw [exec_eq] at h
  cases hr : effectOf i s with
  | ok e => exact .inl ⟨e, rfl, by simpa [hr] using h.symm⟩
  | error c => exact .inr ⟨c, rfl, by simpa [hr] using h.symm⟩

theorem exec_of_ok {i : Instr} {s : State} {e : Effect} (h : effectOf i s = .ok e) :
    exec i s = .next (s.commit e) := by rw [exec_eq, h, State.complete_ok]

theorem exec_of_error {i : Instr} {s : State} {c : ResultCode} (h : effectOf i s = .error c) :
    exec i s = .next (s.failWith c) := by rw [exec_eq, h, State.complete_error]

/-! ### The two completions -/

theorem sameRegisters_commit (s : State) (e : Effect) : SameRegisters s (s.commit e) := by
  constructor <;> rfl

theorem sameRegisters_failWith (s : State) (c : ResultCode) : SameRegisters s (s.failWith c) := by
  constructor <;> rfl

theorem failsWith_failWith (s : State) (c : ResultCode) : FailsWith s (s.failWith c) c := by
  constructor <;> first | rfl | exact sameRegisters_failWith s c

/-- An effect that stores a byte string leaves what `CompletesOk` says. -/
theorem completesOk_commit (s : State) {e : Effect} {a : Nat} {v : Bytes}
    (hw : e.write = some { addr := a, data := v }) (hn : e.outlen = v.length) :
    CompletesOk s (s.commit e) a v e.eq e.consume where
  registers := sameRegisters_commit s e
  rc := rfl
  doneFlag := rfl
  phase := rfl
  eqFlag := rfl
  outlen := by rw [State.commit_outlen, hn]
  bytes b := by rw [State.commit_buf, hw, Memory.apply, Memory.read_write]
  rndbuf := rfl
  rndValid := rfl

theorem completesOk_store (s : State) {a n : Nat} {v : Bytes} (hn : v.length = n) :
    CompletesOk s (s.commit (Effect.store a n v)) a v false false :=
  completesOk_commit s rfl hn.symm

/-- An effect that stores nothing leaves every byte. -/
theorem completesOk_flag (s : State) (eq : Bool) (a : Nat) :
    CompletesOk s (s.commit (Effect.flag eq)) a [] eq false where
  registers := sameRegisters_commit s _
  rc := rfl
  doneFlag := rfl
  phase := rfl
  eqFlag := rfl
  outlen := rfl
  bytes b := by simp [Effect.flag, Memory.apply]
  rndbuf := rfl
  rndValid := rfl

end Sys2Proof.Machine
end

