-- ==== Sys2Proof/Laws/Field.lean ====
section
/-! SUPPORT. What the field operations compute: square and multiply is the power, and P is prime, so the
power of finv is the inverse. -/

namespace Sys2Proof.Machine

/-- The powers of Machine/Constants.lean are those of 00_scope.md R10 and R11. -/
theorem P_eq : P = 2 ^ 521 - 1 := by decide +kernel

theorem ENC_LIMIT_eq : ENC_LIMIT = 2 ^ 2040 := by decide +kernel

theorem R_ORDER_eq : R_ORDER =
    2 ^ 519 -
      337554763258501705789107630418782636071904961214051226618635150085779108655765 := by
  decide +kernel

theorem P_pos : 0 < P := by decide +kernel

theorem one_lt_P : 1 < P := by decide +kernel

/-- 2^521 - 1 is prime (44_field.md R235), by the Lucas-Lehmer test. -/
theorem prime_P : Nat.Prime P :=
  P_eq ▸ lucas_lehmer_sufficiency 521 (by norm_num) (by norm_num)

/-- A number is below 2^bitlen. -/
theorem lt_two_pow_bitLen (n : Nat) : n < 2 ^ bitLen n := by
  unfold bitLen
  split
  · rename_i h
    simp [h]
  · exact Nat.lt_log2_self

theorem fpowFrom_modEq (a e n acc : Nat) :
    fpowFrom a e n acc % P = acc ^ 2 ^ n * a ^ (e % 2 ^ n) % P := by
  induction n generalizing acc with
  | zero => simp [fpowFrom, Nat.mod_one]
  | succ n ih =>
    rw [fpowFrom, ih, Nat.mod_pow_succ, ← Nat.toNat_testBit]
    have hsq : (acc * acc) ^ 2 ^ n = acc ^ 2 ^ (n + 1) := by
      rw [← pow_two, ← pow_mul, pow_succ, Nat.mul_comm]
    have hbit : (if e.testBit n then a else 1) ^ 2 ^ n = a ^ (2 ^ n * (e.testBit n).toNat) := by
      cases e.testBit n <;> simp
    have hmod : (acc * acc % P * (if e.testBit n then a else 1) % P) ^ 2 ^ n % P =
        acc ^ 2 ^ (n + 1) * a ^ (2 ^ n * (e.testBit n).toNat) % P := by
      rw [← Nat.pow_mod, Nat.mul_pow, Nat.mul_mod, ← Nat.pow_mod, ← Nat.mul_mod, hsq, hbit]
    rw [Nat.mul_mod, hmod, ← Nat.mul_mod, pow_add]
    congr 1
    ring

theorem fpowFrom_lt (a e n : Nat) {acc : Nat} (h : acc < P) : fpowFrom a e n acc < P := by
  induction n generalizing acc with
  | zero => exact h
  | succ n ih => exact ih (Nat.mod_lt _ P_pos)

/-- fpow is the power modulo P (44_field.md R236). -/
theorem fpow_eq_pow_mod (a e : Nat) : fpow a e = a ^ e % P := by
  have h := fpowFrom_modEq a e (bitLen e) 1
  rw [Nat.mod_eq_of_lt (fpowFrom_lt a e _ one_lt_P), one_pow, Nat.one_mul,
    Nat.mod_eq_of_lt (lt_two_pow_bitLen e)] at h
  exact h

theorem fpow_lt (a e : Nat) : fpow a e < P := fpowFrom_lt a e _ one_lt_P

/-- The non-negative residue of a difference is congruent to it. -/
theorem subMod_cast (a b : Nat) {m : Nat} (hm : 0 < m) :
    ((subMod a b m : Nat) : ZMod m) = (a : ZMod m) - b := by
  unfold subMod
  have hnn : 0 ≤ ((a : Int) - b) % (m : Int) := Int.emod_nonneg _ (by omega)
  have : (((((a : Int) - b) % (m : Int)).toNat : Int) : ZMod m) = ((a : Int) - b : Int) := by
    rw [Int.toNat_of_nonneg hnn]
    exact (ZMod.intCast_mod _ m)
  push_cast at this
  simpa using this

theorem subMod_lt (a b : Nat) {m : Nat} (hm : 0 < m) : subMod a b m < m := by
  unfold subMod
  have h1 := Int.emod_lt_of_pos ((a : Int) - b) (by omega : (0 : Int) < m)
  have h2 : 0 ≤ ((a : Int) - b) % (m : Int) := Int.emod_nonneg _ (by omega)
  omega

end Sys2Proof.Machine
end

