-- ==== Sys2Proof/Laws/Curve.lean ====
section
/-! SUPPORT. The mathematics of the curve (45_edwards.md R260 to R263): D_CURVE is no square, so the
addition law is complete on the curve (Bernstein and Lange), and a sum of points of the curve lies on it. -/

namespace Sys2Proof.Machine

/-! ### Over any field -/

section Field

variable {F : Type} [Field F] {d x₁ y₁ x₂ y₂ : F}

/-- On the curve with d no square, d·x1·x2·y1·y2 is neither 1 nor -1. -/
theorem edwards_complete (hd : ¬ IsSquare d) (h1 : x₁ ^ 2 + y₁ ^ 2 = 1 + d * x₁ ^ 2 * y₁ ^ 2)
    (h2 : x₂ ^ 2 + y₂ ^ 2 = 1 + d * x₂ ^ 2 * y₂ ^ 2) {e : F} (he : e = d * x₁ * x₂ * y₁ * y₂) :
    e ^ 2 ≠ 1 := by
  intro hsq
  have hne : e ≠ 0 := fun h => by simp [h] at hsq
  have hx1 : x₁ ≠ 0 := fun h => hne (by simp [he, h])
  have hy1 : y₁ ≠ 0 := fun h => hne (by simp [he, h])
  have hx2 : x₂ ≠ 0 := fun h => hne (by simp [he, h])
  have key : d * x₁ ^ 2 * y₁ ^ 2 * (x₂ ^ 2 + y₂ ^ 2) = x₁ ^ 2 + y₁ ^ 2 := by
    have : e ^ 2 = d * x₁ ^ 2 * y₁ ^ 2 * (d * x₂ ^ 2 * y₂ ^ 2) := by rw [he]; ring
    rw [h2, h1, mul_add, mul_one, ← this, hsq, add_comm]
  -- d is a square as soon as one of x2 + y2, x2 - y2 is not 0
  have square : ∀ sgn : F, sgn ^ 2 = 1 → x₂ + sgn * y₂ = 0 := by
    intro sgn hs
    by_contra hz
    refine hd ⟨(x₁ + sgn * e * y₁) / (x₁ * y₁ * (x₂ + sgn * y₂)), ?_⟩
    have hexp : (x₁ + sgn * e * y₁) ^ 2 = d * (x₁ * y₁ * (x₂ + sgn * y₂)) ^ 2 := by
      have h3 : (x₁ + sgn * e * y₁) ^ 2 =
          x₁ ^ 2 + sgn ^ 2 * e ^ 2 * y₁ ^ 2 + 2 * sgn * e * x₁ * y₁ := by ring
      rw [h3, hs, hsq, one_mul, one_mul, ← key, he]
      linear_combination (-(d * x₁ ^ 2 * y₁ ^ 2 * y₂ ^ 2)) * hs
    have hden : x₁ * y₁ * (x₂ + sgn * y₂) ≠ 0 := mul_ne_zero (mul_ne_zero hx1 hy1) hz
    field_simp
    linear_combination -hexp
  have hp := square 1 (by ring)
  have hm := square (-1) (by ring)
  have h2x : (2 : F) * x₂ = 0 := by linear_combination hp + hm
  rcases mul_eq_zero.1 h2x with h | h
  · -- characteristic 2: every element that matters is its own negative
    have hone : e ^ 2 = 1 := hsq
    have hxy : x₂ = y₂ := by linear_combination hm
    have h3 : d * x₂ ^ 2 * y₂ ^ 2 = -1 := by
      have : x₂ ^ 2 + y₂ ^ 2 = 0 := by rw [hxy]; linear_combination y₂ ^ 2 * h
      linear_combination this - h2
    refine hd ⟨1 / (x₂ * y₂), ?_⟩
    have hy2 : y₂ ≠ 0 := hxy ▸ hx2
    field_simp
    linear_combination h3 - h
  · exact hx2 h

/-- The sum of two points of the curve lies on the curve. -/
theorem edwards_closed (h1 : x₁ ^ 2 + y₁ ^ 2 = 1 + d * x₁ ^ 2 * y₁ ^ 2)
    (h2 : x₂ ^ 2 + y₂ ^ 2 = 1 + d * x₂ ^ 2 * y₂ ^ 2) {e X Y : F}
    (he : e = d * x₁ * x₂ * y₁ * y₂) (hp : 1 + e ≠ 0) (hm : 1 - e ≠ 0)
    (hX : X * (1 + e) = x₁ * y₂ + y₁ * x₂) (hY : Y * (1 - e) = y₁ * y₂ - x₁ * x₂) :
    X ^ 2 + Y ^ 2 = 1 + d * X ^ 2 * Y ^ 2 := by
  have hN : (X ^ 2 + Y ^ 2 - (1 + d * X ^ 2 * Y ^ 2)) * ((1 + e) ^ 2 * (1 - e) ^ 2) = 0 := by
    have hpoly : (X ^ 2 + Y ^ 2 - (1 + d * X ^ 2 * Y ^ 2)) * ((1 + e) ^ 2 * (1 - e) ^ 2) =
        (X * (1 + e)) ^ 2 * (1 - e) ^ 2 + (Y * (1 - e)) ^ 2 * (1 + e) ^ 2 - (1 - e ^ 2) ^ 2 -
          d * (X * (1 + e)) ^ 2 * (Y * (1 - e)) ^ 2 := by ring
    have hsum : (x₁ * y₂ + y₁ * x₂) ^ 2 * (1 - e) ^ 2 + (y₁ * y₂ - x₁ * x₂) ^ 2 * (1 + e) ^ 2 -
        (1 - e ^ 2) ^ 2 - d * (x₁ * y₂ + y₁ * x₂) ^ 2 * (y₁ * y₂ - x₁ * x₂) ^ 2 =
        (x₁ ^ 2 + y₁ ^ 2) * (x₂ ^ 2 + y₂ ^ 2) * (1 + e ^ 2) - (1 - e ^ 2) ^ 2 -
          d * x₁ ^ 2 * y₁ ^ 2 * (x₂ ^ 2 + y₂ ^ 2) ^ 2 -
          d * x₂ ^ 2 * y₂ ^ 2 * (x₁ ^ 2 + y₁ ^ 2) ^ 2 := by rw [he]; ring
    rw [hpoly, hX, hY, hsum, h1, h2, he]
    ring
  have hne : (1 + e) ^ 2 * (1 - e) ^ 2 ≠ 0 := mul_ne_zero (pow_ne_zero _ hp) (pow_ne_zero _ hm)
  exact sub_eq_zero.1 ((mul_eq_zero.1 hN).resolve_right hne)

end Field

/-! ### Over the integers modulo P

The modulus stands as a variable m with m = P, so that no unification ever looks inside 2^521 - 1. -/

section Modulo

variable {m : Nat} (hm : m = P)

include hm

theorem fact_prime : Fact (Nat.Prime m) := ⟨hm ▸ prime_P⟩

theorem cast_mod_P (n : Nat) : ((n % P : Nat) : ZMod m) = n := by
  rw [← hm]
  exact ZMod.natCast_mod n m

/-- A residue below P is 0 in the field only if it is 0. -/
theorem cast_eq_zero_iff {n : Nat} (h : n < P) : (n : ZMod m) = 0 ↔ n = 0 := by
  rw [ZMod.natCast_eq_zero_iff, hm]
  exact ⟨fun hd => Nat.eq_zero_of_dvd_of_lt hd h, fun h0 => h0 ▸ dvd_zero P⟩

/-- Equality in the field is congruence modulo P. -/
theorem cast_eq_iff (a b : Nat) : (a : ZMod m) = b ↔ a % P = b % P := by
  rw [ZMod.natCast_eq_natCast_iff', hm]

/-- Residues below P that are equal in the field are equal. -/
theorem eq_of_cast_eq {a b : Nat} (ha : a < P) (hb : b < P) (h : (a : ZMod m) = b) : a = b := by
  have := (cast_eq_iff hm a b).1 h
  rwa [Nat.mod_eq_of_lt ha, Nat.mod_eq_of_lt hb] at this

theorem cast_D_CURVE : ((D_CURVE : Nat) : ZMod m) = -376014 := by
  have h : (D_CURVE : Nat) + 376014 = m := by rw [hm]; decide +kernel
  have h2 : ((D_CURVE + 376014 : Nat) : ZMod m) = 0 := by rw [h]; exact ZMod.natCast_self m
  push_cast at h2
  linear_combination h2

theorem cast_fpow (a e : Nat) : ((fpow a e : Nat) : ZMod m) = (a : ZMod m) ^ e := by
  rw [fpow_eq_pow_mod, cast_mod_P hm, Nat.cast_pow]

/-- finv is the inverse of the field, also 0 of 0. -/
theorem cast_finv (a : Nat) : ((finv a : Nat) : ZMod m) = (a : ZMod m)⁻¹ := by
  have := fact_prime hm
  have h2 : P - 2 + 1 = m - 1 := by rw [hm]; decide +kernel
  have h3 : P - 2 ≠ 0 := by decide +kernel
  by_cases h : (a : ZMod m) = 0
  · rw [finv, cast_fpow hm, h, inv_zero, zero_pow h3]
  · rw [finv, cast_fpow hm]
    refine eq_inv_of_mul_eq_one_left ?_
    rw [← pow_succ, h2]
    exact ZMod.pow_card_sub_one_eq_one h

theorem cast_subMod_P (a b : Nat) : ((subMod a b P : Nat) : ZMod m) = (a : ZMod m) - b := by
  rw [← hm]
  exact subMod_cast a b (hm ▸ P_pos)

/-- D_CURVE is no square modulo P (45_edwards.md R261), by Euler's criterion. -/
theorem not_isSquare_D_CURVE : ¬ IsSquare ((D_CURVE : Nat) : ZMod m) := by
  have := fact_prime hm
  have hpow : ((D_CURVE : Nat) : ZMod m) ^ (m / 2) = ((P - 1 : Nat) : ZMod m) := by
    have h2 : m / 2 = P / 2 := by rw [hm]
    rw [h2, ← cast_fpow hm]
    exact congrArg _ (by decide +kernel)
  have h0 : ((D_CURVE : Nat) : ZMod m) ≠ 0 := by
    rw [Ne, cast_eq_zero_iff hm (by decide +kernel)]
    decide +kernel
  rw [ZMod.euler_criterion m h0, hpow]
  intro h
  have h1 : ((P - 1 : Nat) : ZMod m) = ((1 : Nat) : ZMod m) := by rw [h, Nat.cast_one]
  exact absurd (eq_of_cast_eq hm (by decide +kernel) one_lt_P h1) (by decide +kernel)

/-- The check of the curve equation says it in the field. -/
theorem onCurve_iff {p : Point} :
    onCurve p = true ↔ (p.x : ZMod m) ^ 2 + (p.y : ZMod m) ^ 2 =
      1 + ((D_CURVE : Nat) : ZMod m) * (p.x : ZMod m) ^ 2 * (p.y : ZMod m) ^ 2 := by
  rw [onCurve, beq_iff_eq, ← cast_eq_iff hm]
  push_cast
  constructor <;> intro h <;> linear_combination h

/-- padd computes the law of R261, in the field: what it answers, and that only a zero denominator stops
it. -/
theorem padd_spec (p q : Point) {e : ZMod m}
    (he : e = ((D_CURVE : Nat) : ZMod m) * p.x * q.x * p.y * q.y) :
    if 1 + e = 0 ∨ 1 - e = 0 then padd p q = .error .noInverse
    else ∃ r, padd p q = .ok r ∧ Reduced r ∧
      (r.x : ZMod m) * (1 + e) = p.x * q.y + p.y * q.x ∧
      (r.y : ZMod m) * (1 - e) = p.y * q.y - p.x * q.x := by
  have ht : ((D_CURVE * p.x * q.x * p.y * q.y % P : Nat) : ZMod m) = e := by
    rw [cast_mod_P hm, he]; push_cast; ring
  have hd1 : (((1 + D_CURVE * p.x * q.x * p.y * q.y % P) % P : Nat) : ZMod m) = 1 + e := by
    rw [cast_mod_P hm, Nat.cast_add, ht, Nat.cast_one]
  have hd2 : ((subMod 1 (D_CURVE * p.x * q.x * p.y * q.y % P) P : Nat) : ZMod m) = 1 - e := by
    rw [cast_subMod_P hm, ht, Nat.cast_one]
  have hz1 := cast_eq_zero_iff hm (Nat.mod_lt (1 + D_CURVE * p.x * q.x * p.y * q.y % P) P_pos)
  have hz2 := cast_eq_zero_iff hm (subMod_lt 1 (D_CURVE * p.x * q.x * p.y * q.y % P) P_pos)
  rw [hd1] at hz1
  rw [hd2] at hz2
  unfold padd
  simp only [← hz1, ← hz2]
  have := fact_prime hm
  split
  · rfl
  · rename_i hne
    rw [not_or] at hne
    refine ⟨_, rfl, ⟨Nat.mod_lt _ P_pos, Nat.mod_lt _ P_pos⟩, ?_, ?_⟩
    · rw [cast_mod_P hm, Nat.cast_mul, cast_finv hm, hd1, inv_mul_cancel_right₀ hne.1]
      push_cast
      ring
    · rw [cast_mod_P hm, Nat.cast_mul, cast_finv hm, hd2, inv_mul_cancel_right₀ hne.2,
        cast_subMod_P hm]
      push_cast
      ring

end Modulo

theorem finv_lt (a : Nat) : finv a < P := fpow_lt _ _

/-- On the curve the addition law is complete and closed. -/
theorem padd_onCurve {p q : Point} (hp : onCurve p = true) (hq : onCurve q = true) :
    ∃ r, padd p q = .ok r ∧ onCurve r = true ∧ Reduced r := by
  obtain ⟨m, hm⟩ : ∃ m, m = P := ⟨P, rfl⟩
  have := fact_prime hm
  rw [onCurve_iff hm] at hp hq
  have h1 := edwards_complete (not_isSquare_D_CURVE hm) hp hq rfl
  have hplus : 1 + ((D_CURVE : Nat) : ZMod m) * p.x * q.x * p.y * q.y ≠ 0 := fun h => h1 (by
    linear_combination
      (((D_CURVE : Nat) : ZMod m) * p.x * q.x * p.y * q.y - 1) * h)
  have hminus : 1 - ((D_CURVE : Nat) : ZMod m) * p.x * q.x * p.y * q.y ≠ 0 := fun h => h1 (by
    linear_combination
      (-((D_CURVE : Nat) : ZMod m) * p.x * q.x * p.y * q.y - 1) * h)
  have hs := padd_spec hm p q rfl
  rw [if_neg (by tauto)] at hs
  obtain ⟨r, hr, hred, hx, hy⟩ := hs
  exact ⟨r, hr, (onCurve_iff hm).2 (edwards_closed hp hq rfl hplus hminus hx hy), hred⟩

/-- pmul of a point of the curve always answers, with a point of the curve. -/
theorem pmulFrom_onCurve {Q : Point} (hQ : onCurve Q = true) (k n : Nat) {V : Point}
    (hV : onCurve V = true ∧ Reduced V) :
    ∃ R, pmulFrom Q k n V = .ok R ∧ onCurve R = true ∧ Reduced R := by
  induction n generalizing V with
  | zero => exact ⟨V, rfl, hV⟩
  | succ n ih =>
    obtain ⟨W, hW, hWc, hWr⟩ := padd_onCurve hV.1 hV.1
    rw [pmulFrom, hW, except_ok_bind]
    split
    · obtain ⟨W', hW', hc, hr⟩ := padd_onCurve hWc hQ
      rw [hW', except_ok_bind]
      exact ih ⟨hc, hr⟩
    · rw [except_ok_bind]
      exact ih ⟨hWc, hWr⟩

theorem onCurve_NEUTRAL : onCurve NEUTRAL = true := by decide +kernel

theorem reduced_NEUTRAL : Reduced NEUTRAL := by decide +kernel

theorem pmul_onCurve {Q : Point} (hQ : onCurve Q = true) (k : Nat) :
    ∃ R, pmul Q k = .ok R ∧ onCurve R = true ∧ Reduced R :=
  pmulFrom_onCurve hQ k _ ⟨onCurve_NEUTRAL, reduced_NEUTRAL⟩

end Sys2Proof.Machine
end

