-- ==== Sys2Proof/Laws/Lengths.lean ====
section
/-! SUPPORT. The lengths of what the engine computes: a state keeps 200 bytes, a sponge gives as many bytes
as it is asked for, a field takes 66. -/

namespace Sys2Proof.Machine

@[simp] theorem length_mkLanes (f : Nat → Nat → Lane) : (mkLanes f).length = 25 := by
  simp [mkLanes]

@[simp] theorem length_keccakRound (A : Lanes) (ir : Nat) : (keccakRound A ir).length = 25 := by
  simp [keccakRound, iota]

theorem length_keccakRounds {A : Lanes} (h : A.length = 25) (n : Nat) :
    (keccakRounds A n).length = 25 := by
  cases n with
  | zero => exact h
  | succ n => simp [keccakRounds]

@[simp] theorem length_lanesOf (n : Nat) (S : Bytes) : (lanesOf n S).length = n := by
  induction n generalizing S with
  | zero => rfl
  | succ n ih => simp [lanesOf, ih]

@[simp] theorem length_bytesOf (A : Lanes) : (bytesOf A).length = 8 * A.length := by
  induction A with
  | nil => rfl
  | cons v A ih => simp [bytesOf, ih]; ring

/-- The permutation gives 200 bytes (41_keccak.md R167). -/
@[simp] theorem length_keccakF (S : Bytes) : (keccakF S).length = 200 := by
  rw [keccakF, length_bytesOf, length_keccakRounds (length_lanesOf 25 S)]

theorem length_squeezeBlocks (m : Nat) {S : Bytes} (h : S.length = 200) :
    (squeezeBlocks m S).length = 136 * m := by
  induction m generalizing S with
  | zero => rfl
  | succ m ih =>
    rw [squeezeBlocks, List.length_append, ih (length_keccakF S)]
    simp [RATE, h]
    ring

/-- squeeze(S, n) has n bytes (42_sponge.md R186). -/
theorem length_squeeze {S : Bytes} (h : S.length = 200) (n : Nat) : (squeeze S n).length = n := by
  rw [squeeze, List.length_take, length_squeezeBlocks _ h]
  simp only [RATE]
  omega

theorem length_absorbBlocks (m : Nat) (Q : Bytes) {S : Bytes} (h : S.length = 200) :
    (absorbBlocks m Q S).length = 200 := by
  induction m generalizing Q S with
  | zero => exact h
  | succ m ih => exact ih _ (length_keccakF _)

@[simp] theorem length_sponge (p : Bytes) (c : Byte) (n : Nat) : (sponge p c n).length = n :=
  length_squeeze (length_absorbBlocks _ _ (length_zeros _)) n

/-- CSHAKE256 gives L/8 bytes (42_sponge.md R188). -/
@[simp] theorem length_cshake256 (X : Bytes) (L : Nat) (N S : Bytes) :
    (cshake256 X L N S).length = L / 8 := by
  unfold cshake256
  split <;> simp

@[simp] theorem length_kmacxof256 (K X : Bytes) (L : Nat) (S : Bytes) :
    (kmacxof256 K X L S).length = L / 8 := length_cshake256 _ _ _ _

@[simp] theorem length_kmac256 (K X : Bytes) (L : Nat) (S : Bytes) :
    (kmac256 K X L S).length = L / 8 := length_cshake256 _ _ _ _

@[simp] theorem length_encodeLeft (x : Nat) : (encodeLeft x).length = encodingBytes x + 1 := by
  simp [encodeLeft]

@[simp] theorem length_encodeRight (x : Nat) : (encodeRight x).length = encodingBytes x + 1 := by
  simp [encodeRight]

/-- bytepad has the length that its lengths alone give (42_sponge.md R192). -/
theorem length_bytepad (x : Bytes) {w : Nat} (hw : w ≠ 0) :
    (bytepad x w).length = bytepadLength x.length w := by
  unfold bytepad bytepadLength
  simp only [List.length_append, length_zeros]
  generalize (encodeLeft w).length + x.length = n
  have hpos : 0 < w := Nat.pos_of_ne_zero hw
  have hdm := Nat.div_add_mod n w
  have hlt := Nat.mod_lt n hpos
  by_cases h0 : n % w = 0
  · have h1 : (n + (w - 1)) / w = n / w := by
      rw [Nat.div_eq_iff hpos]
      constructor
      · rw [Nat.mul_comm]; omega
      · have : n / w * w = w * (n / w) := Nat.mul_comm _ _
        omega
    rw [h1, h0, Nat.sub_zero, Nat.mod_self]
    omega
  · have h1 : (n + (w - 1)) / w = n / w + 1 := by
      rw [Nat.div_eq_iff hpos]
      have : (n / w + 1) * w = w * (n / w) + w := by ring
      constructor <;> omega
    rw [h1, Nat.mod_eq_of_lt (by omega)]
    have : w * (n / w + 1) = w * (n / w) + w := by ring
    omega

@[simp] theorem length_pointBytes (p : Point) : (pointBytes p).length = 132 := by
  simp [pointBytes]

@[simp] theorem length_streamXor (ke data S : Bytes) : (streamXor ke data S).length = data.length := by
  simp [streamXor, length_xorBytes]

@[simp] theorem length_memRead (s : State) (a n : Nat) : (memRead s a n).length = n :=
  Memory.length_readBytes _ _ _

@[simp] theorem length_latchedRnd (s : State) : (latchedRnd s).length = 64 := by simp [latchedRnd]

@[simp] theorem length_challenge (U : Point) (M : Bytes) : (challenge U M).length = 64 := by
  simp [challenge]

end Sys2Proof.Machine
end

