-- ==== Sys2Proof/Laws/Effects.lean ====
section
/-! SUPPORT. What the outcome of a command can be, said once: where an OK outcome writes and which flags it
sets, and which codes the shared operations raise. -/

namespace Sys2Proof.Machine

/-! ### Failing checks -/

theorem except_bind_eq_error {α β : Type} {x : Except ResultCode α} {f : α → Except ResultCode β}
    {c : ResultCode} :
    (x >>= f) = .error c ↔ x = .error c ∨ ∃ a, x = .ok a ∧ f a = .error c := by
  cases x <;> simp

theorem checkRegion_eq_error {s : State} {a n : Nat} {c : ResultCode} :
    checkRegion s a n = .error c ↔ ¬ Fits s a n ∧ c = .bounds := by
  simp [checkRegion, require_eq_error]

theorem checkField_eq_error {v : Nat} {c : ResultCode} :
    checkField v = .error c ↔ ¬ v < P ∧ c = .range := by
  simp [checkField, require_eq_error]

theorem checkPoint_eq_error {p : Point} {c : ResultCode} :
    checkPoint p = .error c ↔ ¬ Reduced p ∧ c = .range := by
  simp [checkPoint, require_eq_error]

/-- The addition law stops at a zero denominator alone (45_edwards.md R261). -/
theorem padd_eq_error {p q : Point} {c : ResultCode} (h : padd p q = .error c) : c = .noInverse := by
  unfold padd at h
  simp only at h
  split at h
  · injection h with h
    exact h.symm
  · simp only [reduceCtorEq] at h

theorem pmulFrom_eq_error {Q V : Point} {k n : Nat} {c : ResultCode}
    (h : pmulFrom Q k n V = .error c) : c = .noInverse := by
  induction n generalizing V with
  | zero => simp only [pmulFrom, reduceCtorEq] at h
  | succ n ih =>
    simp only [pmulFrom, except_bind_eq_error] at h
    rcases h with h | ⟨W, _, h⟩
    · exact padd_eq_error h
    · split at h
      · simp only [except_bind_eq_error] at h
        rcases h with h | ⟨_, _, h⟩
        · exact padd_eq_error h
        · exact ih h
      · exact ih h

theorem pmul_eq_error {Q : Point} {k : Nat} {c : ResultCode} (h : pmul Q k = .error c) :
    c = .noInverse := pmulFrom_eq_error h

theorem fsqrt_eq_error {v par : Nat} {c : ResultCode} (h : fsqrt v par = .error c) :
    c = .noSuchPoint := by
  unfold fsqrt at h
  simp only at h
  split at h
  · injection h with h
    exact h.symm
  · split at h
    · injection h with h
      exact h.symm
    · simp only [reduceCtorEq] at h

theorem pointFromX_eq_error {x par : Nat} {c : ResultCode} (h : pointFromX x par = .error c) :
    c = .noSuchPoint := by
  simp only [pointFromX, except_bind_eq_error, require_eq_error, pure, Except.pure, reduceCtorEq,
    and_false, exists_false, or_false] at h
  rcases h with h | ⟨_, _, h⟩
  · exact h.2
  · exact fsqrt_eq_error h

/-! ### OK outcomes -/

/-- What an OK outcome of command i is: it writes OUTLEN bytes at the destination, inside BUF, or nothing
where the command has no destination; it consumes the randomness for PK_ENC and SYM_ENC alone; it sets EQ
for PK_DEC, VERIFY and SYM_DEC, and for PEQ where the points are equal. -/
structure OkEffect (i : Instr) (s : State) (e : Effect) : Prop where
  nothing : dstArg i = none → e.write = none ∧ e.outlen = 0
  region : ∀ k, dstArg i = some k →
    ∃ v, e.write = some { addr := arg s k, data := v } ∧ e.outlen = v.length ∧
      Fits s (arg s k) v.length
  consume : e.consume = decide (i = .pkEnc ∨ i = .symEnc)
  eq : i ≠ .peq → e.eq = decide (i = .pkDec ∨ i = .verify ∨ i = .symDec)

theorem OkEffect.flag {i : Instr} {s : State} {b : Bool} (hd : dstArg i = none)
    (hb : i ≠ .peq → b = decide (i = .pkDec ∨ i = .verify ∨ i = .symDec)) :
    OkEffect i s (Effect.flag b) where
  nothing _ := ⟨rfl, rfl⟩
  region k hk := by rw [hd] at hk; cases hk
  consume := by
    have : i ≠ .pkEnc ∧ i ≠ .symEnc := by constructor <;> rintro rfl <;> simp [dstArg] at hd
    simp [Effect.flag, this]
  eq := hb

theorem OkEffect.store {i : Instr} {s : State} {k : Fin 8} {n : Nat} {v : Bytes} {e : Effect}
    (hf : Fits s (arg s k) n) (hv : v.length = n) (hk : dstArg i = some k)
    (hw : e.write = some { addr := arg s k, data := v }) (ho : e.outlen = n)
    (hc : e.consume = decide (i = .pkEnc ∨ i = .symEnc))
    (he : e.eq = decide (i = .pkDec ∨ i = .verify ∨ i = .symDec)) : OkEffect i s e where
  nothing hn := by rw [hk] at hn; cases hn
  region j hj := by
    rw [hk] at hj
    cases hj
    exact ⟨v, hw, ho.trans hv.symm, hv ▸ hf⟩
  consume := hc
  eq _ := he

/-- Every OK outcome is one of these. -/
theorem effect_ok {i : Instr} {s : State} {e : Effect} (h : effectOf i s = .ok e) :
    OkEffect i s e := by
  cases i <;>
    simp only [effectOf, effectNop, effectKeccakf, effectCshake256, effectKmacxof256, effectKmac256,
      stringCommand, effectEncLeft, effectEncRight, encodeInteger, effectEncString, effectBytepad,
      effectFadd, effectFsub, effectFmul, fieldBinary, effectFinv, effectFexp, effectFsqrt,
      effectPadd, effectPmul, effectPfromx, effectPeq, effectKeygen, effectPkEnc, effectPkDec,
      effectSign, effectVerify, effectSymEnc, effectSymDec, except_bind_eq_ok, checkRegion_eq_ok,
      require_eq_ok, pure, Except.pure, Except.ok.injEq, checkField_eq_ok, checkPoint_eq_ok,
      decide_eq_true_eq, exists_const] at h
  case nop => exact h ▸ .flag rfl fun _ => rfl
  case peq =>
    obtain ⟨_, _, _, _, rfl⟩ := h
    exact .flag rfl fun h => absurd rfl h
  case verify =>
    obtain ⟨_, _, _, _, _, _, _, _, _, _, _, rfl⟩ := h
    exact .flag rfl fun _ => rfl
  case keccakf =>
    obtain ⟨_, h, rfl⟩ := h
    exact .store h (by simp [STATE_BYTES]) rfl rfl rfl rfl rfl
  case cshake256 | kmacxof256 | kmac256 =>
    obtain ⟨_, _, _, _, h, rfl⟩ := h
    exact .store h (by simp) rfl rfl rfl rfl rfl
  case encLeft | encRight =>
    obtain ⟨_, _, h, rfl⟩ := h
    exact .store h (by simp) rfl rfl rfl rfl rfl
  case encString =>
    obtain ⟨_, h, rfl⟩ := h
    exact .store h (by simp) rfl rfl rfl rfl rfl
  case bytepad =>
    obtain ⟨h0, _, h, rfl⟩ := h
    exact .store h (by rw [length_bytepad _ h0]; simp) rfl rfl rfl rfl rfl
  case fadd | fsub | fmul =>
    obtain ⟨_, _, h, _, _, rfl⟩ := h
    exact .store h (by simp [W_BYTES]) rfl rfl rfl rfl rfl
  case finv =>
    obtain ⟨_, h, _, _, rfl⟩ := h
    exact .store h (by simp [W_BYTES]) rfl rfl rfl rfl rfl
  case fexp =>
    obtain ⟨_, _, h, _, rfl⟩ := h
    exact .store h (by simp [W_BYTES]) rfl rfl rfl rfl rfl
  case fsqrt =>
    obtain ⟨_, _, h, _, _, _, rfl⟩ := h
    exact .store h (by simp [W_BYTES]) rfl rfl rfl rfl rfl
  case padd =>
    obtain ⟨_, _, h, _, _, _, _, rfl⟩ := h
    exact .store h (by simp [POINT_BYTES]) rfl rfl rfl rfl rfl
  case pmul | pfromx =>
    obtain ⟨_, _, h, _, _, _, rfl⟩ := h
    exact .store h (by simp [POINT_BYTES]) rfl rfl rfl rfl rfl
  case keygen =>
    obtain ⟨_, h, _, _, rfl⟩ := h
    exact .store h (by simp [POINT_BYTES]) rfl rfl rfl rfl rfl
  case pkEnc =>
    obtain ⟨_, _, h, _, _, _, _, _, _, rfl⟩ := h
    exact .store h (by simp; omega) rfl rfl rfl rfl rfl
  case pkDec =>
    obtain ⟨_, _, _, h, _, _, _, _, rfl⟩ := h
    exact .store h (by simp; omega) rfl rfl rfl rfl rfl
  case sign =>
    obtain ⟨_, _, h, _, _, rfl⟩ := h
    exact .store h (by simp) rfl rfl rfl rfl rfl
  case symEnc =>
    obtain ⟨_, _, h, _, rfl⟩ := h
    exact .store h (by simp; omega) rfl rfl rfl rfl rfl
  case symDec =>
    obtain ⟨_, _, _, h, _, rfl⟩ := h
    exact .store h (by simp; omega) rfl rfl rfl rfl rfl

/-- A failing outcome never carries the code OK. -/
theorem effect_error_ne_ok (i : Instr) (s : State) : effectOf i s ≠ .error .ok := by
  intro h
  have hadd (p q : Point) : padd p q ≠ .error .ok := fun h => by cases padd_eq_error h
  have hmul (Q : Point) (k : Nat) : pmul Q k ≠ .error .ok := fun h => by cases pmul_eq_error h
  have hroot (v par : Nat) : fsqrt v par ≠ .error .ok := fun h => by cases fsqrt_eq_error h
  have hpoint (x par : Nat) : pointFromX x par ≠ .error .ok := fun h => by
    cases pointFromX_eq_error h
  cases i <;>
    simp only [effectOf, effectNop, effectKeccakf, effectCshake256, effectKmacxof256, effectKmac256,
      stringCommand, effectEncLeft, effectEncRight, encodeInteger, effectEncString, effectBytepad,
      effectFadd, effectFsub, effectFmul, fieldBinary, effectFinv, effectFexp, effectFsqrt,
      effectPadd, effectPmul, effectPfromx, effectPeq, effectKeygen, effectPkEnc, effectPkDec,
      effectSign, effectVerify, effectSymEnc, effectSymDec, except_bind_eq_error, require_eq_error,
      checkRegion_eq_error, checkField_eq_error, checkPoint_eq_error, pure, Except.pure,
      reduceCtorEq, and_false, exists_false, or_false, hadd, hmul, hroot, hpoint] at h

/-! ### Byte strings of BUF -/

/-- A byte string read at an address starts with every shorter one read there. -/
theorem take_memRead (s : State) (a n k : Nat) (h : k ≤ n) :
    (memRead s a n).take k = memRead s a k := by
  obtain ⟨j, rfl⟩ := Nat.exists_eq_add_of_le h
  rw [memRead, Memory.readBytes_add, List.take_left' (by simp), memRead]

/-- The rest of a byte string read at an address is read after its start. -/
theorem drop_memRead (s : State) (a n k : Nat) (h : k ≤ n) :
    (memRead s a n).drop k = memRead s (a + k) (n - k) := by
  obtain ⟨j, rfl⟩ := Nat.exists_eq_add_of_le h
  rw [memRead, Memory.readBytes_add, List.drop_left' (by simp), Nat.add_sub_cancel_left, memRead]

/-- What a command stored reads back. -/
theorem memRead_commit {s : State} {e : Effect} {a : Nat} {v : Bytes}
    (hw : e.write = some { addr := a, data := v }) : memRead (s.commit e) a v.length = v := by
  rw [memRead, State.commit_buf, hw, Memory.apply, Memory.readBytes_write_same]

/-! ### The instance and the command in flight -/

theorem wfBufAw_of_accepted {p : Params} (h : paramsAccepted p = true) : p.wfBufAw = true := by
  simp only [paramsAccepted, Bool.and_eq_true] at h
  exact h.1

/-- BUF has at most 2^30 bytes (00_scope.md R11). -/
theorem bufSize_le {p : Params} (h : p.wfBufAw = true) : p.bufSize ≤ 2 ^ 30 := by
  simp only [Params.wfBufAw, Bool.and_eq_true, decide_eq_true_eq] at h
  exact Nat.pow_le_pow_right (by omega) h.2

/-- The command in flight has an OK outcome only where its word decodes. -/
theorem inFlightResult_eq_ok {s : State} {e : Effect} (h : inFlightResult s = .ok e) :
    ∃ i, decode s.latch.cmd = .ok i ∧ effectOf i s = .ok e := by
  unfold inFlightResult at h
  split at h
  · exact ⟨_, by assumption, h⟩
  · cases h

@[simp] theorem length_abortedBytes (d n : Nat) : (abortedBytes d n).length = n := by
  induction n generalizing d with
  | zero => rfl
  | succ n ih => simp [abortedBytes, ih]

end Sys2Proof.Machine
end

