-- ==== Sys2Proof/Laws/Order.lean ====
section
/-! SUPPORT. Which instances are accepted: the default base point meets the conditions of 00_scope.md R12.
Its multiple by R_ORDER is computed with denominators carried along and not inverted, which takes a
thousandth of the work. -/

namespace Sys2Proof.Machine

/-- A point as two numerators over one denominator, modulo P. -/
structure Fraction where
  x : Nat
  y : Nat
  z : Nat

/-- The addition law of R261 on fractions. -/
def Fraction.add (p q : Fraction) : Fraction :=
  let A := p.z * q.z % P
  let B := A * A % P
  let C := p.x * q.x % P
  let D := p.y * q.y % P
  let E := D_CURVE * (C * D % P) % P
  let F := subMod B E P
  let H := (B + E) % P
  { x := (p.x * q.y + p.y * q.x) * (A * F % P) % P
    y := subMod D C P * (A * H % P) % P
    z := F * H % P }

/-- The double-and-add of R262 on fractions. -/
def Fraction.mulFrom (q : Fraction) (k : Nat) : Nat → Fraction → Fraction
  | 0, v => v
  | n + 1, v => q.mulFrom k n (if k.testBit n then (v.add v).add q else v.add v)

section Modulo

variable {m : Nat} (hm : m = P)
include hm

/-- The fraction stands for the point, in the field. -/
structure Stands (m : Nat) (p : Fraction) (a : Point) : Prop where
  x : (a.x : ZMod m) * p.z = p.x
  y : (a.y : ZMod m) * p.z = p.y
  z : (p.z : ZMod m) ≠ 0

/-- A sum of fractions stands for the sum of the points, where padd has one. -/
theorem add_stands {p q : Fraction} {a b r : Point} (hp : Stands m p a) (hq : Stands m q b)
    (hr : padd a b = .ok r) : Stands m (p.add q) r := by
  have := fact_prime hm
  obtain ⟨e, he⟩ : ∃ e, e = ((D_CURVE : Nat) : ZMod m) * a.x * b.x * a.y * b.y := ⟨_, rfl⟩
  have hs := padd_spec hm a b he
  split at hs
  · rw [hs] at hr; cases hr
  rename_i hne
  rw [not_or] at hne
  obtain ⟨r', hr', -, hx, hy⟩ := hs
  obtain rfl : r' = r := Except.ok.inj (hr'.symm.trans hr)
  have hzz : (p.z : ZMod m) * q.z ≠ 0 := mul_ne_zero hp.z hq.z
  refine ⟨?_, ?_, ?_⟩ <;>
    simp only [Fraction.add, cast_mod_P hm, cast_subMod_P hm, Nat.cast_mul, Nat.cast_add, ← hp.x, ← hp.y,
      ← hq.x, ← hq.y]
  · subst he
    linear_combination ((p.z : ZMod m) * q.z) ^ 4 *
      (1 - ((D_CURVE : Nat) : ZMod m) * a.x * b.x * a.y * b.y) * hx
  · subst he
    linear_combination ((p.z : ZMod m) * q.z) ^ 4 *
      (1 + ((D_CURVE : Nat) : ZMod m) * a.x * b.x * a.y * b.y) * hy
  · have hprod : ((p.z : ZMod m) * q.z) ^ 4 * ((1 - e) * (1 + e)) ≠ 0 :=
      mul_ne_zero (pow_ne_zero _ hzz) (mul_ne_zero hne.2 hne.1)
    refine fun h0 => hprod ?_
    subst he
    linear_combination h0

/-- A multiple of a fraction stands for the multiple of the point, where pmul has one. -/
theorem mulFrom_stands {q : Fraction} {Q : Point} (hq : Stands m q Q) (k n : Nat) {v : Fraction}
    {V R : Point} (hv : Stands m v V) (h : pmulFrom Q k n V = .ok R) :
    Stands m (q.mulFrom k n v) R := by
  induction n generalizing v V with
  | zero => cases h; exact hv
  | succ n ih =>
    rw [pmulFrom] at h
    cases hW : padd V V with
    | error c => rw [hW] at h; cases h
    | ok W =>
      rw [hW, except_ok_bind] at h
      have hw := add_stands hm hv hv hW
      rw [Fraction.mulFrom]
      split at h
      · cases hW' : padd W Q with
        | error c => rw [hW'] at h; cases h
        | ok W' =>
          rw [hW', except_ok_bind] at h
          rw [if_pos (by assumption)]
          exact ih (add_stands hm hw hq hW') h
      · rw [except_ok_bind] at h
        rw [if_neg (by assumption)]
        exact ih hw h

end Modulo

/-- A point of the curve with coordinates below P, as a fraction over 1. -/
def Point.over (p : Point) : Fraction := { x := p.x, y := p.y, z := 1 }

theorem over_stands {m : Nat} (hm : m = P) (p : Point) : Stands m (Point.over p) p := by
  have := fact_prime hm
  exact ⟨by simp [Point.over], by simp [Point.over], by simp [Point.over]⟩

/-- R_ORDER times the default base point, as a fraction. -/
theorem default_multiple :
    let r := (Point.over Params.default.basePoint).mulFrom R_ORDER (bitLen R_ORDER) (Point.over NEUTRAL)
    r.x = 0 ∧ r.y = r.z := by decide +kernel

theorem onCurve_default : onCurve Params.default.basePoint = true := by decide +kernel

/-- R_ORDER times the default base point is the neutral element (95_test_vectors.md section 2.6). -/
theorem order_default : pmul Params.default.basePoint R_ORDER = .ok NEUTRAL := by
  obtain ⟨R, hR, -, hred⟩ := pmul_onCurve onCurve_default R_ORDER
  obtain ⟨m, hm⟩ : ∃ m, m = P := ⟨P, rfl⟩
  have := fact_prime hm
  obtain ⟨hx, hy, hz⟩ := mulFrom_stands hm (over_stands hm _) _ _ (over_stands hm _) hR
  obtain ⟨h0, h1⟩ := default_multiple
  rw [h0, Nat.cast_zero, mul_eq_zero, or_iff_left hz] at hx
  rw [h1, mul_eq_right₀ hz] at hy
  have hx' : R.x = 0 := (cast_eq_zero_iff hm hred.1).1 hx
  have hy' : R.y = 1 := eq_of_cast_eq hm hred.2 one_lt_P (by rw [hy, Nat.cast_one])
  rw [hR]
  cases R
  cases hx'
  cases hy'
  rfl

/-- The default base point meets the conditions of R12. -/
theorem baseAccepted_default : baseAccepted Params.default.basePoint = true := by
  have h : decide (Reduced Params.default.basePoint) = true ∧
      decide (Params.default.basePoint ≠ NEUTRAL) = true := by decide +kernel
  rw [baseAccepted, order_default, onCurve_default, h.1, h.2]
  rfl

/-- The instances the model accepts are those of R11 and R12, the default one included. -/
theorem paramsAccepted_iff {p : Params} : paramsAccepted p = true ↔
    (10 ≤ p.bufAw ∧ p.bufAw ≤ 30) ∧ Reduced p.basePoint ∧ onCurve p.basePoint = true ∧
      p.basePoint ≠ NEUTRAL ∧ pmul p.basePoint R_ORDER = .ok NEUTRAL := by
  have hbase : baseAccepted p.basePoint = true ↔
      Reduced p.basePoint ∧ onCurve p.basePoint = true ∧
      p.basePoint ≠ NEUTRAL ∧ pmul p.basePoint R_ORDER = .ok NEUTRAL := by
    unfold baseAccepted
    cases pmul p.basePoint R_ORDER <;> simp [and_assoc]
  have hdef : p.basePoint = Params.default.basePoint → baseAccepted p.basePoint = true :=
    fun h => h ▸ baseAccepted_default
  rw [← hbase, paramsAccepted, Params.wfBufAw]
  simp only [Bool.and_eq_true, Bool.or_eq_true, decide_eq_true_eq]
  exact and_congr_right fun _ => or_iff_right_of_imp hdef

/-- A base point of an accepted instance lies on the curve. -/
theorem onCurve_of_accepted {p : Params} (h : paramsAccepted p = true) :
    onCurve p.basePoint = true := (paramsAccepted_iff.1 h).2.2.1

end Sys2Proof.Machine
end

