-- ==== Sys2Proof/Laws/PerInstr.lean ====
section
/-! SUPPORT. One law of every command as syntax: its word and its operand format (30_encoding.md R110 to
R115). -/

namespace Sys2Proof.Laws.WordShape

open Sys2Proof Sys2Proof.Machine

/-- The command word has no bit above its opcode, an opcode of R110 and the shape WellFormed asks for, and the
register that holds the destination is the one register of the format with that role. -/
def Statement (i : Instr) : Prop :=
  (encode i).toNat = (opcode i).toNat ∧ (opcode i).toNat ∈ assignedOpcodes ∧
    wfCommandWord (encode i) = true ∧
    ∀ k : Fin 8, (argRoles i)[k] = .dst ↔ dstArg i = some k

theorem nop : Statement .nop := by unfold Statement; decide

theorem keccakf : Statement .keccakf := by unfold Statement; decide

theorem cshake256 : Statement .cshake256 := by unfold Statement; decide

theorem kmacxof256 : Statement .kmacxof256 := by unfold Statement; decide

theorem kmac256 : Statement .kmac256 := by unfold Statement; decide

theorem encLeft : Statement .encLeft := by unfold Statement; decide

theorem encRight : Statement .encRight := by unfold Statement; decide

theorem encString : Statement .encString := by unfold Statement; decide

theorem bytepad : Statement .bytepad := by unfold Statement; decide

theorem fadd : Statement .fadd := by unfold Statement; decide

theorem fsub : Statement .fsub := by unfold Statement; decide

theorem fmul : Statement .fmul := by unfold Statement; decide

theorem finv : Statement .finv := by unfold Statement; decide

theorem fexp : Statement .fexp := by unfold Statement; decide

theorem fsqrt : Statement .fsqrt := by unfold Statement; decide

theorem padd : Statement .padd := by unfold Statement; decide

theorem pmul : Statement .pmul := by unfold Statement; decide

theorem pfromx : Statement .pfromx := by unfold Statement; decide

theorem peq : Statement .peq := by unfold Statement; decide

theorem keygen : Statement .keygen := by unfold Statement; decide

theorem pkEnc : Statement .pkEnc := by unfold Statement; decide

theorem pkDec : Statement .pkDec := by unfold Statement; decide

theorem sign : Statement .sign := by unfold Statement; decide

theorem verify : Statement .verify := by unfold Statement; decide

theorem symEnc : Statement .symEnc := by unfold Statement; decide

theorem symDec : Statement .symDec := by unfold Statement; decide

end Sys2Proof.Laws.WordShape
end

