-- ==== Sys2Proof/Laws/Roots.lean ====
section
/-! SUPPORT. The square root of R237 and the point of R263 are found exactly where they exist. -/

namespace Sys2Proof.Machine

/-- fsqrt(v, par) is the root of v of that parity, where there is one (44_field.md R237). -/
theorem fsqrt_spec {v par : Nat} (hpar : par ≤ 1) :
    (∀ r, r < P → r * r % P = v → r % 2 = par → fsqrt v par = .ok r) ∧
    ((∀ r, r < P → r * r % P = v → r % 2 ≠ par) → fsqrt v par = .error .noSuchPoint) := by
  obtain ⟨m, hm⟩ : ∃ m, m = P := ⟨P, rfl⟩
  have := fact_prime hm
  have hlt : sqrtCandidate v par < P := by
    unfold sqrtCandidate
    simp only
    split
    · exact Nat.mod_lt _ P_pos
    · exact fpow_lt _ _
  unfold fsqrt
  simp only
  constructor
  · intro r hr hrr hrp
    have hc : (fpow v ((P + 1) / 4) : ZMod m) = r ∨ (fpow v ((P + 1) / 4) : ZMod m) = -r := by
      rw [cast_fpow hm]
      have hvr : (v : ZMod m) = (r : ZMod m) ^ 2 := by
        rw [← hrr, cast_mod_P hm]; push_cast; ring
      have h4 : 2 * ((P + 1) / 4) = (m + 1) / 2 := by rw [hm]; decide +kernel
      rw [hvr, ← pow_mul, h4]
      have hm2 : (m + 1) / 2 = m / 2 + 1 := by rw [hm]; decide +kernel
      rw [hm2, pow_succ]
      by_cases h0 : (r : ZMod m) = 0
      · left; rw [h0]; simp
      · rcases ZMod.pow_div_two_eq_neg_one_or_one m h0 with h | h <;> rw [h] <;> simp
    have hcl := fpow_lt v ((P + 1) / 4)
    have hodd : P % 2 = 1 := by decide +kernel
    have hcand : sqrtCandidate v par = r := by
      unfold sqrtCandidate
      simp only
      generalize fpow v ((P + 1) / 4) = c at *
      rcases hc with hc | hc
      · have : c = r := eq_of_cast_eq hm hcl hr hc
        subst this
        rw [if_neg (by simp [hrp])]
      · by_cases h0 : r = 0
        · subst h0
          have : c = 0 := eq_of_cast_eq hm hcl P_pos (by simpa using hc)
          subst this
          rw [if_neg (by simpa using hrp)]
        · have : c = P - r := by
            apply eq_of_cast_eq hm hcl (by omega)
            rw [Nat.cast_sub hr.le, hc]
            rw [← hm]; simp
          have hp2 : c % 2 ≠ par := by omega
          rw [if_pos hp2]
          rw [Nat.mod_eq_of_lt (by omega)]
          omega
    rw [hcand, if_neg (by simpa using hrr), if_neg (by simpa using hrp)]
  · intro h
    by_cases h1 : sqrtCandidate v par * sqrtCandidate v par % P = v
    · rw [if_neg (by simpa using h1), if_pos (h _ hlt h1)]
    · rw [if_pos h1]

/-- point_from_x(x, par) is the point of the curve with x and that parity of y, where there is one
(45_edwards.md R263). -/
theorem pointFromX_spec {x par : Nat} (hpar : par ≤ 1) :
    (∀ y, y < P → onCurve { x := x, y := y } = true → y % 2 = par →
      pointFromX x par = .ok { x := x, y := y }) ∧
    ((∀ y, y < P → onCurve { x := x, y := y } = true → y % 2 ≠ par) →
      pointFromX x par = .error .noSuchPoint) := by
  obtain ⟨m, hm⟩ : ∃ m, m = P := ⟨P, rfl⟩
  have := fact_prime hm
  have hd : (((1 + 376014 * x * x) % P : Nat) : ZMod m) = 1 + 376014 * (x : ZMod m) ^ 2 := by
    rw [cast_mod_P hm]; push_cast; ring
  have hz := cast_eq_zero_iff hm (Nat.mod_lt (1 + 376014 * x * x) P_pos)
  have hv : ((subMod 1 (x * x) P * finv ((1 + 376014 * x * x) % P) % P : Nat) : ZMod m) =
      (1 - (x : ZMod m) ^ 2) * (1 + 376014 * (x : ZMod m) ^ 2)⁻¹ := by
    rw [cast_mod_P hm, Nat.cast_mul, cast_finv hm, hd, cast_subMod_P hm]; push_cast; ring
  have hcurve : ∀ y, onCurve { x := x, y := y } = true ↔
      (y : ZMod m) ^ 2 * (1 + 376014 * (x : ZMod m) ^ 2) = 1 - (x : ZMod m) ^ 2 := by
    intro y
    rw [onCurve_iff hm, cast_D_CURVE hm]
    constructor <;> intro h <;> linear_combination h
  unfold pointFromX
  simp only
  by_cases h0 : (1 + 376014 * x * x) % P = 0
  · simp only [h0, ne_eq, not_true_eq_false, decide_false, require_false, except_error_bind]
    refine ⟨fun y hy hc hp => ?_, fun _ => trivial⟩
    exfalso
    have h1 := (hcurve y).1 hc
    have h2 := hz.2 h0
    rw [hd] at h2
    rw [h2, mul_zero] at h1
    have h3 : ((376015 : Nat) : ZMod m) = 0 := by
      push_cast
      linear_combination -376014 * h1 + h2
    exact absurd ((cast_eq_zero_iff hm (by decide +kernel)).1 h3) (by decide)
  · simp only [ne_eq, h0, not_false_eq_true, decide_true, require_true, except_ok_bind]
    have h0' : 1 + 376014 * (x : ZMod m) ^ 2 ≠ 0 := fun h => h0 (hz.1 (hd ▸ h))
    have hlt := Nat.mod_lt (subMod 1 (x * x) P * finv ((1 + 376014 * x * x) % P)) P_pos
    generalize subMod 1 (x * x) P * finv ((1 + 376014 * x * x) % P) % P = v at *
    have hyc : ∀ y : Nat, onCurve { x := x, y := y } = true ↔ y * y % P = v := by
      intro y
      rw [hcurve, ← eq_mul_inv_iff_mul_eq₀ h0', ← hv]
      constructor
      · intro h
        apply eq_of_cast_eq hm (Nat.mod_lt _ P_pos) hlt
        rw [cast_mod_P hm, ← h]; push_cast; ring
      · intro h
        rw [← h, cast_mod_P hm]; push_cast; ring
    refine ⟨fun y hy hc hp => ?_, fun h => ?_⟩
    · rw [(fsqrt_spec hpar).1 y hy ((hyc y).1 hc) hp]; rfl
    · rw [(fsqrt_spec hpar).2 fun r hr hrr => h r hr ((hyc r).2 hrr)]; rfl

end Sys2Proof.Machine
end

