-- ==== Sys2Proof/Laws/Step.lean ====
section
/-! SUPPORT. What a step can do, said once; what a host access leaves of the host's side; and the register
behind each offset of the REG space. -/

namespace Sys2Proof.Machine

/-! ### The step -/

/-- A completion step completes with the outcome of the command in flight. -/
theorem completionStep_eq (s : State) : completionStep s = .next (s.complete (inFlightResult s)) := by
  unfold completionStep inFlightResult
  cases decode s.latch.cmd <;> simp [exec_eq]

/-- A step is refused only for the parameters of the instance. -/
theorem step_refused_iff (s : State) :
    step s = .refused .invalidConfiguration ↔ paramsAccepted s.params = false := by
  have hturn : turn s ≠ .refused .invalidConfiguration := by
    unfold turn quietTurn engineTurn
    simp only [completionStep_eq]
    repeat' split
    all_goals simp
  unfold step
  split <;> simp [*]

/-- Everything that a step which answers a next state can have been. -/
theorem step_cases {s t : State} (h : step s = .next t) :
    paramsAccepted s.params = true ∧ ∃ u : State,
      (u = s ∨ ∃ e, s.schedule = e :: u.schedule ∧ u = { s with schedule := u.schedule }) ∧
      ((s.phase = .busy ∧ t = u.complete (inFlightResult u)) ∨
        (s.phase = .idle ∧ t = u) ∨
        (∃ cs, s.schedule = .powerOn cs :: u.schedule ∧ t = u.powerOn cs) ∨
        (∃ a, s.schedule = .host a :: u.schedule ∧ s.hostError = none ∧ t = u.access a)) := by
  unfold step at h
  split at h
  case isFalse => cases h
  refine ⟨by assumption, ?_⟩
  have hq : ∀ {r : State}, quietTurn s = .next r →
      (s.phase = .busy ∧ r = s.complete (inFlightResult s)) ∨ (s.phase = .idle ∧ r = s) := by
    intro r hr
    unfold quietTurn at hr
    split at hr
    · rename_i hp
      rw [completionStep_eq] at hr; cases hr; exact .inl ⟨hp, rfl⟩
    · rename_i hp
      split at hr <;> cases hr
      exact .inr ⟨hp, rfl⟩
  unfold turn at h
  split at h
  · rename_i hs
    refine ⟨s, .inl rfl, ?_⟩
    rcases hq h with h | h
    · exact .inl h
    · exact .inr (.inl h)
  · rename_i rest hs
    refine ⟨{ s with schedule := rest }, .inr ⟨_, hs, rfl⟩, ?_⟩
    unfold engineTurn at h
    split at h
    · rename_i hp
      rw [completionStep_eq] at h; cases h; exact .inl ⟨hp, rfl⟩
    · rename_i hp
      cases h; exact .inr (.inl ⟨hp, rfl⟩)
  · rename_i cs rest hs
    cases h
    exact ⟨{ s with schedule := rest }, .inr ⟨_, hs, rfl⟩, .inr (.inr (.inl ⟨cs, hs, rfl⟩))⟩
  · rename_i a rest hs
    split at h
    · refine ⟨s, .inl rfl, ?_⟩
      rcases hq h with h | h
      · exact .inl h
      · exact .inr (.inl h)
    · rename_i he
      cases h
      exact ⟨{ s with schedule := rest }, .inr ⟨_, hs, rfl⟩, .inr (.inr (.inr ⟨a, hs, he, rfl⟩))⟩

/-- The step of a host access that is taken. -/
theorem step_host {s : State} {a : Access} {rest : List Event} (h : NextEvent s (.host a) rest) :
    step s = .next (({ s with schedule := rest } : State).access a) := by
  simp [step, h.accepted, turn, h.schedule, h.running]

/-! ### Host accesses -/

/-- An abort leaves the parameters and the host's side. -/
theorem abort_host (s : State) (r : Result) :
    (s.abort r).params = s.params ∧ (s.abort r).hostError = s.hostError ∧
      (s.abort r).schedule = s.schedule ∧ (s.abort r).reply = s.reply := by
  unfold State.abort
  split
  · simp
  · split <;> simp

/-- A register write leaves the parameters and the host's side. -/
theorem regWrite_host (s : State) (r : Reg) (v : Word) :
    (s.regWrite r v).params = s.params ∧ (s.regWrite r v).hostError = s.hostError ∧
      (s.regWrite r v).schedule = s.schedule ∧ (s.regWrite r v).reply = s.reply := by
  cases r <;> simp only [State.regWrite]
  all_goals try trivial
  all_goals try (split <;> simp)
  unfold State.writeCtrl
  split
  · split
    · simp
    · exact abort_host s _
  · simp

/-- No access changes the parameters or the events to come. -/
theorem access_host (s : State) (a : Access) :
    (s.access a).params = s.params ∧ (s.access a).schedule = s.schedule := by
  cases a <;> simp only [State.access] <;> split <;> try simp
  · exact ⟨(regWrite_host s _ _).1, (regWrite_host s _ _).2.2.1⟩
  · unfold State.bufRead; split <;> simp
  · unfold State.bufWrite; split <;> simp

/-! ### The REG space -/

theorem regAt_id : regAt 0x000 32 = some .id := by decide
theorem regAt_config : regAt 0x004 32 = some .config := by decide
theorem regAt_ctrl : regAt 0x008 32 = some .ctrl := by decide
theorem regAt_status : regAt 0x00C 32 = some .status := by decide
theorem regAt_cmd : regAt 0x010 32 = some .cmd := by decide
theorem regAt_outlen : regAt 0x014 32 = some .outlen := by decide

theorem regAt_arg (i : Fin 8) : regAt (0x020 + 4 * i.val) 32 = some (.arg i) := by
  fin_cases i <;> decide

theorem regAt_rnd (j : Fin 16) : regAt (0x040 + 4 * j.val) 32 = some (.rnd j) := by
  fin_cases j <;> decide

end Sys2Proof.Machine
end

