-- ==== Sys2Proof/Tests/Slice0.lean ====
section
/-! SUPPORT. The model's own tests and, for every statement of Certificates/Slice0/Obligations.lean with
hypotheses, a witness that meets them. Expected values are those of spec/95_test_vectors.md (the section is
named) or are worked out by hand from the rule that is named. -/

namespace Sys2Proof.Tests

open Sys2Proof Sys2Proof.Machine

-- One theorem at a time: many kernel evaluations at once would fill the memory.
set_option Elab.async false

/-! ### Small states -/

/-- The command i in flight, on these ARG values and this BUF, with no randomness loaded. -/
def flight (i : Instr) (args : List Nat) (m : Memory) : State :=
  let a : Vector Word 8 := Vector.ofFn fun k => BitVec.ofNat 32 (args.getD k.val 0)
  { State.reset with
    cmd := encode i, args := a, phase := .busy, buf := m
    latch := { cmd := encode i, args := a, rndbuf := zeroRndbuf, rndValid := false } }

/-- The same with randomness loaded: 63 zero bytes, then the byte 1. -/
def flightRnd (i : Instr) (args : List Nat) (m : Memory) : State :=
  let s := flight i args m
  let r : Vector Byte 64 := Vector.ofFn fun k => if k.val = 63 then 1 else 0
  { s with rndbuf := r, rndValid := true, latch := { s.latch with rndbuf := r, rndValid := true } }

/-- The idle machine before an event. -/
def idleAt (e : Event) : State := { State.reset with schedule := [e] }

/-- The machine with a command in flight before an event. -/
def busyAt (i : Instr) (e : Event) : State := { flight i [] [] with schedule := [e] }

/-- STATUS, OUTLEN and, as a big-endian number, n bytes of BUF after a command. -/
def outcome (i : Instr) (s : State) (a n : Nat) : Option (Nat × Nat × Nat) :=
  match exec i s with
  | .next t => some (t.statusWord.toNat, t.outlen.toNat, intBe (memRead t a n))
  | _ => none

/-- The state after a step, where there is one. -/
def after (s : State) : Option State :=
  match step s with
  | .next t => some t
  | _ => none

/-- STATUS after a step, where there is a next state. -/
def statusAfter (s : State) : Option Nat := (after s).map fun t => t.statusWord.toNat

/-- BUF with the W66 fields a at 0x0000 and b at 0x0200. -/
def fields (a b : Nat) : Memory := (Memory.write [] 0 (W66 a)).write 0x200 (W66 b)

/-- BUF with the points p at 0x0000 and q at 0x0200. -/
def points (p q : Point) : Memory := (Memory.write [] 0 (pointBytes p)).write 0x200 (pointBytes q)

/-- The default base point G_T (95_test_vectors.md section 2.6). -/
def G : Point := Params.default.basePoint

theorem accepted_reset : paramsAccepted State.reset.params = true := by decide +kernel

/-! ### What the well-formedness checks refuse -/

theorem test_wf_opcode : wfCommandWord 0x00000005 = false := by decide
theorem test_wf_reserved_bits : wfCommandWord 0x00000100 = false := by decide
theorem test_wf_width : Access.wf 0x10000 (.regRead 0x00 16) = false := by decide
theorem test_wf_alignment : Access.wf 0x10000 (.regWrite 0x02 32 0) = false := by decide
theorem test_wf_offset : Access.wf 0x10000 (.regRead 0x100 32) = false := by decide
theorem test_wf_write_offset : Access.wf 0x10000 (.regWrite 0x100 32 0) = false := by decide
theorem test_wf_buf_read : Access.wf 0x10000 (.bufRead 0x10000) = false := by decide
theorem test_wf_buf_write : Access.wf 0x10000 (.bufWrite 0x10000 0) = false := by decide
theorem test_wf_buf_aw_low : Params.wfBufAw { Params.default with bufAw := 9 } = false := by decide
theorem test_wf_buf_aw_high : Params.wfBufAw { Params.default with bufAw := 31 } = false := by decide

theorem test_wf_accepts : wfCommandWord 0x00000036 = true ∧
    Access.wf 0x10000 (.regRead 0xFC 32) = true ∧ Access.wf 0x10000 (.bufRead 0xFFFF) = true ∧
    Params.wfBufAw { Params.default with bufAw := 10 } = true ∧
    Params.wfBufAw { Params.default with bufAw := 30 } = true := by decide

/-- (P, 1) is congruent to the neutral element, and no pair of field elements (45_edwards.md R260). -/
theorem test_wf_base_unreduced :
    paramsAccepted { Params.default with basePoint := { x := P, y := 1 } } = false := by decide +kernel
theorem test_wf_base_neutral : paramsAccepted { Params.default with basePoint := NEUTRAL } = false := by
  decide +kernel

/-! ### Decoding: the words of 30_encoding.md R110, written out from bit 31 down to bit 0 -/

theorem test_decode_nop : decode 0b00000000000000000000000000000000#32 = .ok .nop := by decide
theorem test_decode_keccakf : decode 0b00000000000000000000000000000001#32 = .ok .keccakf := by decide
theorem test_decode_cshake256 : decode 0b00000000000000000000000000000010#32 = .ok .cshake256 := by decide
theorem test_decode_kmacxof256 : decode 0b00000000000000000000000000000011#32 = .ok .kmacxof256 := by decide
theorem test_decode_kmac256 : decode 0b00000000000000000000000000000100#32 = .ok .kmac256 := by decide
theorem test_decode_encLeft : decode 0b00000000000000000000000000001000#32 = .ok .encLeft := by decide
theorem test_decode_encRight : decode 0b00000000000000000000000000001001#32 = .ok .encRight := by decide
theorem test_decode_encString : decode 0b00000000000000000000000000001010#32 = .ok .encString := by decide
theorem test_decode_bytepad : decode 0b00000000000000000000000000001011#32 = .ok .bytepad := by decide
theorem test_decode_fadd : decode 0b00000000000000000000000000010000#32 = .ok .fadd := by decide
theorem test_decode_fsub : decode 0b00000000000000000000000000010001#32 = .ok .fsub := by decide
theorem test_decode_fmul : decode 0b00000000000000000000000000010010#32 = .ok .fmul := by decide
theorem test_decode_finv : decode 0b00000000000000000000000000010011#32 = .ok .finv := by decide
theorem test_decode_fexp : decode 0b00000000000000000000000000010100#32 = .ok .fexp := by decide
theorem test_decode_fsqrt : decode 0b00000000000000000000000000010101#32 = .ok .fsqrt := by decide
theorem test_decode_padd : decode 0b00000000000000000000000000100000#32 = .ok .padd := by decide
theorem test_decode_pmul : decode 0b00000000000000000000000000100001#32 = .ok .pmul := by decide
theorem test_decode_pfromx : decode 0b00000000000000000000000000100010#32 = .ok .pfromx := by decide
theorem test_decode_peq : decode 0b00000000000000000000000000100011#32 = .ok .peq := by decide
theorem test_decode_keygen : decode 0b00000000000000000000000000110000#32 = .ok .keygen := by decide
theorem test_decode_pkEnc : decode 0b00000000000000000000000000110001#32 = .ok .pkEnc := by decide
theorem test_decode_pkDec : decode 0b00000000000000000000000000110010#32 = .ok .pkDec := by decide
theorem test_decode_sign : decode 0b00000000000000000000000000110011#32 = .ok .sign := by decide
theorem test_decode_verify : decode 0b00000000000000000000000000110100#32 = .ok .verify := by decide
theorem test_decode_symEnc : decode 0b00000000000000000000000000110101#32 = .ok .symEnc := by decide
theorem test_decode_symDec : decode 0b00000000000000000000000000110110#32 = .ok .symDec := by decide

theorem test_decode_gap : decode 0b00000000000000000000000000000101#32 = .error .illegalOpcode := by
  decide
theorem test_decode_reserved : decode 0b10000000000000000000000000000001#32 = .error .reservedField := by
  decide
theorem test_decode_both_wrong : decode 0b00000000000000000000000100000101#32 = .error .illegalOpcode := by
  decide

/-! ### Every command runs as the first step after reset -/

/-- The step that `withFetchWord` prepares completes the command. -/
def runsFirst (i : Instr) : Prop :=
  ∃ t, step (State.reset.withFetchWord 32 (encode i).toNat) = .next t ∧ t.doneFlag = true ∧
    t.phase = .idle

theorem runsFirst_all (i : Instr) : runsFirst i := by
  have hd : decode (BitVec.ofNat 32 ((encode i).toNat % 2 ^ 32)) = .ok i := by cases i <;> decide
  have hs : step (State.reset.withFetchWord 32 (encode i).toNat) =
      exec i (State.reset.issue (BitVec.ofNat 32 ((encode i).toNat % 2 ^ 32))) := by
    simp only [step, State.withFetchWord, State.issue_params, accepted_reset, if_true, turn, engineTurn,
      State.issue_phase, completionStep, State.issue_latch, hd]
    rfl
  rw [runsFirst, hs, exec_eq]
  refine ⟨_, rfl, ?_⟩
  cases effectOf i _ <;> exact ⟨rfl, rfl⟩

/-! ### Memory and host accesses -/

theorem test_write_keeps_order : (Memory.write [] 5 [1]).write 2 [7, 0, 9] = [(2, 7), (4, 9), (5, 1)] := by
  decide
theorem test_write_zero_removes : (Memory.write [] 5 [1, 2]).write 5 [0] = [(6, 2)] := by decide

/-- 10_state.md R34, R35: the ID and CONFIG words of the default instance. -/
theorem test_read_id : (after (idleAt (.host (.regRead 0x000 32)))).map (·.reply) =
    some (.word 0x4B434531) := by decide +kernel
theorem test_read_config : (after (idleAt (.host (.regRead 0x004 32)))).map (·.reply) =
    some (.word 0x00428810) := by decide +kernel

/-- 30_encoding.md R118 and 10_state.md R45: RND15 is written little-endian into bytes 60 to 63. -/
theorem test_write_rnd : (after (idleAt (.host (.regWrite 0x07C 32 0x3F3E3D3C)))).map
    (fun t => (t.rndbuf.toList.drop 59, t.rndValid)) =
    some ([0x00, 0x3C, 0x3D, 0x3E, 0x3F], true) := by decide +kernel

/-- 20_memory.md R90 (b): a BUF write while BUSY is dropped and sets WERR, beside BUSY. -/
theorem test_busy_write : (after (busyAt .nop (.host (.bufWrite 0 0xAB)))).map
    (fun t => (t.statusWord, t.buf)) = some (0x00000009, []) := by decide +kernel

/-- 60_exceptions.md R347: a 16-bit access, and the stuck machine after it. -/
theorem test_bus_error : (after (idleAt (.host (.regRead 0x000 16)))).map (·.hostError) =
    some (some { space := .reg, addr := 0, width := 16 }) := by decide +kernel
theorem test_stuck : (match step { State.reset with hostError := some ⟨.buf, 0x10000, 8⟩ } with
    | .fault (.hostBusError e) => e.addr
    | _ => 0) = 0x10000 := by decide +kernel

/-- 70_reset_and_hazards.md R372, R373: a soft reset in BUSY leaves IDLE with DONE and WERR clear. -/
theorem test_abort : (after { busyAt .nop (.host (.regWrite 0x008 32 2)) with werrFlag := true }).map
    (fun t => (t.statusWord, t.phase)) = some (0x00000000, .idle) := by decide +kernel

/-! ### Commands that do not decode (95_test_vectors.md section 2.8) -/

theorem test_illegal_opcode : statusAfter { busyAt .nop .engine with
    latch := { Latch.reset with cmd := 0x00000105 } } = some 0x00001006 := by decide +kernel
theorem test_reserved_field : statusAfter { busyAt .nop .engine with
    latch := { Latch.reset with cmd := 0x80000001 } } = some 0x00001106 := by decide +kernel

/-! ### Commands on the vectors of 95_test_vectors.md -/

/-- Section 2.8. -/
theorem test_nop : outcome .nop (flight .nop [] []) 0 0 = some (0x00000002, 0, 0) := by
  decide +kernel

/-- Section 2.1: Keccak_f of 200 zero bytes; the boundary of the source region. -/
theorem test_keccakf : outcome .keccakf (flight .keccakf [0xFF38, 0x100] []) 0x100 32 =
    some (0x00000002, 200, 0xE7DDE140798F25F18A47C033F9CCD584EEA95AA61E2698D54D49806F304715BD) := by
  decide +kernel
theorem test_keccakf_bounds : outcome .keccakf (flight .keccakf [0xFF39, 0] []) 0 8 =
    some (0x00001406, 0, 0) := by decide +kernel

/-- Section 2.3: SHAKE256("abc"); BAD_LENGTH before BOUNDS. -/
theorem test_cshake256 : outcome .cshake256
    (flight .cshake256 [0, 3, 0, 0, 0, 0, 0x200, 256] (Memory.write [] 0 [0x61, 0x62, 0x63])) 0x200 32 =
    some (0x00000002, 32, 0x483366601360A8771C6863080CC4114D8DB44530F8F1E1EE4F94EA37E78B5739) := by
  decide +kernel
theorem test_cshake256_length : outcome .cshake256
    (flight .cshake256 [0xFFFFFFFF, 5, 0, 0, 0x40, 0xF, 0x200, 4] []) 0x200 8 =
    some (0x00001306, 0, 0) := by decide +kernel

/-- K, X and S of NIST sample 4 in BUF, as section 2.4 places them. -/
def macInput : Memory :=
  ((Memory.write [] 0x00 (natBe 32 0x404142434445464748494A4B4C4D4E4F505152535455565758595A5B5C5D5E5F)).write
    0x20 [0, 1, 2, 3]).write 0x30 (natBe 21 0x4D7920546167676564204170706C69636174696F6E)

/-- Section 2.4: samples 4 of KMACXOF256 and KMAC256. -/
theorem test_kmacxof256 : outcome .kmacxof256
    (flight .kmacxof256 [0, 32, 0x20, 4, 0x30, 21, 0x200, 512] macInput) 0x200 32 =
    some (0x00000002, 64, 0x1755133F1534752AAD0748F2C706FB5C784512CAB835CD15676B16C0C6647FA9) := by
  decide +kernel
theorem test_kmac256 : outcome .kmac256
    (flight .kmac256 [0, 32, 0x20, 4, 0x30, 21, 0x200, 512] macInput) 0x200 32 =
    some (0x00000002, 64, 0x20C570C31346F703C9AC36C61C03CB64C3970D0CFC787E9B79599D273A68D2F7) := by
  decide +kernel

/-- Section 2.2. -/
theorem test_enc_left : outcome .encLeft
    (flight .encLeft [0, 7, 0x400] (Memory.write [] 5 [2])) 0x400 3 = some (0x00000002, 3, 0x020200) := by
  decide +kernel
theorem test_enc_left_value_before_destination : outcome .encLeft
    (flight .encLeft [0, 0x100, 0xFFFF] (Memory.write [] 0 [1])) 0xFFFF 1 =
    some (0x00001706, 0, 0) := by decide +kernel
theorem test_enc_right : outcome .encRight
    (flight .encRight [0, 2, 0x400] (Memory.write [] 0 [2])) 0x400 3 = some (0x00000002, 3, 0x020002) := by
  decide +kernel
theorem test_enc_right_empty : outcome .encRight (flight .encRight [0, 0, 0x400] []) 0x400 2 =
    some (0x00000002, 2, 0x0001) := by decide +kernel
theorem test_enc_string : outcome .encString
    (flight .encString [0, 4, 0x400] (Memory.write [] 0 [0x4B, 0x4D, 0x41, 0x43])) 0x400 6 =
    some (0x00000002, 6, 0x01204B4D4143) := by decide +kernel
theorem test_bytepad : outcome .bytepad
    (flight .bytepad [0, 5, 4, 0x400] (Memory.write [] 0 [1, 2, 3, 4, 5])) 0x400 8 =
    some (0x00000002, 8, 0x0104010203040500) := by decide +kernel
theorem test_bytepad_width_zero : outcome .bytepad (flight .bytepad [0xFFFFFFFF, 1, 0, 0x400] []) 0x400 1 =
    some (0x00001206, 0, 0) := by decide +kernel

/-- Section 2.5. -/
theorem test_fadd : outcome .fadd (flight .fadd [0, 0x200, 0x300] (fields (P - 1) (P - 1))) 0x300 66 =
    some (0x00000002, 66, P - 2) := by decide +kernel
theorem test_fadd_range : outcome .fadd (flight .fadd [0, 0x200, 0x300] (fields 0 P)) 0x300 66 =
    some (0x00001606, 0, 0) := by decide +kernel
theorem test_fsub : outcome .fsub (flight .fsub [0, 0x200, 0x300] (fields 0 1)) 0x300 66 =
    some (0x00000002, 66, P - 1) := by decide +kernel
theorem test_fsub_positive : outcome .fsub (flight .fsub [0, 0x200, 0x300] (fields 7 5)) 0x300 66 =
    some (0x00000002, 66, 2) := by decide +kernel
theorem test_fmul : outcome .fmul (flight .fmul [0, 0x200, 0x300] (fields (2 ^ 260) (2 ^ 261))) 0x300 66 =
    some (0x00000002, 66, 1) := by decide +kernel
theorem test_finv : outcome .finv (flight .finv [0, 0, 0x300] (fields 3 0)) 0x300 66 =
    some (0x00000002, 66, (2 * P + 1) / 3) := by decide +kernel
theorem test_finv_zero : outcome .finv (flight .finv [0, 0, 0x300] []) 0x300 66 =
    some (0x00001806, 0, 0) := by decide +kernel
theorem test_fexp : outcome .fexp (flight .fexp [0, 0x200, 0x300] (fields 4 (2 ^ 519))) 0x300 66 =
    some (0x00000002, 66, 2) := by decide +kernel
theorem test_fexp_zero : outcome .fexp (flight .fexp [0, 0x200, 0x300] []) 0x300 66 =
    some (0x00000002, 66, 1) := by decide +kernel
theorem test_fsqrt : outcome .fsqrt (flight .fsqrt [0, 1, 0x300] (fields 4 0)) 0x300 66 =
    some (0x00000002, 66, P - 2) := by decide +kernel
theorem test_fsqrt_none : outcome .fsqrt (flight .fsqrt [0, 0, 0x300] (fields 3 0)) 0x300 66 =
    some (0x00000202, 0, 0) := by decide +kernel

/-- Section 2.6. -/
theorem test_padd : outcome .padd (flight .padd [0, 0x200, 0x400] (points G NEUTRAL)) 0x400 132 =
    some (0x00000002, 132, G.x * 2 ^ 528 + G.y) := by decide +kernel
theorem test_padd_no_inverse : outcome .padd (flight .padd [0, 0x200, 0x400] (points { x := 1, y := 1 }
      { x := 1
        y := 0x18521A257C7BC8F648DCA9EDBC1C5C4826B41DD4C0506F7B2B0DD6A58A99E42082C319A2C489BD3CFCAC698CBDDCFC8AF2C79C2455951FBD1D9D5399EFA15686B11 }))
    0x400 132 = some (0x00001806, 0, 0) := by decide +kernel
theorem test_pmul : outcome .pmul (flight .pmul [0, 0x200, 0x400]
      ((Memory.write [] 0 (pointBytes G)).write 0x200 (W66 2))) 0x400 66 =
    some (0x00000002, 132, 0x6EEB7B013F129EA438E3C20718D31970649E584406B3D8CB65FDB712CE93FAB60FC5BE0C62987D287174A21E555FBE43AC0084480A3EFC77BE676A69618D42B608) := by
  decide +kernel
theorem test_pmul_one : outcome .pmul (flight .pmul [0, 0x200, 0x400]
      ((Memory.write [] 0 (pointBytes G)).write 0x200 (W66 1))) 0x400 132 =
    some (0x00000002, 132, G.x * 2 ^ 528 + G.y) := by decide +kernel
theorem test_pfromx : outcome .pfromx (flight .pfromx [0, 0, 0x400] (fields 4 0)) 0x400 132 =
    some (0x00000002, 132, G.x * 2 ^ 528 + G.y) := by decide +kernel
theorem test_pfromx_none : outcome .pfromx (flight .pfromx [0, 1, 0x400] (fields 1 0)) 0x400 132 =
    some (0x00000202, 0, 0) := by decide +kernel
theorem test_peq : outcome .peq (flight .peq [0, 0x200] (points G G)) 0 0 =
    some (0x00000022, 0, 0) := by decide +kernel
theorem test_peq_range : outcome .peq (flight .peq [0, 0x200] (points { x := 0, y := P + 1 } NEUTRAL)) 0 0 =
    some (0x00001606, 0, 0) := by decide +kernel

/-- Sections 2.7 and 2.8. -/
theorem test_keygen_bounds : outcome .keygen (flight .keygen [0, 8, 0xFF7D] []) 0 0 =
    some (0x00001406, 0, 0) := by decide +kernel
theorem test_pk_enc_no_rnd : outcome .pkEnc (flight .pkEnc [0, 5, 0x200, 0x400] []) 0x400 8 =
    some (0x00001506, 0, 0) := by decide +kernel
theorem test_pk_enc_bounds : outcome .pkEnc (flightRnd .pkEnc [0, 5, 0x200, 0xFF40] []) 0 0 =
    some (0x00001416, 0, 0) := by decide +kernel
theorem test_pk_dec_short : outcome .pkDec (flight .pkDec [0, 8, 0x200, 0xC3, 0x400] []) 0 0 =
    some (0x00001306, 0, 0) := by decide +kernel
theorem test_sign_bounds : outcome .sign (flight .sign [0, 5, 0, 8, 0xFF7F] []) 0 0 =
    some (0x00001406, 0, 0) := by decide +kernel
theorem test_verify_bounds : outcome .verify (flight .verify [0, 5, 0x200, 0xFFFF] []) 0 0 =
    some (0x00001406, 0, 0) := by decide +kernel
theorem test_sym_enc_no_rnd : outcome .symEnc (flight .symEnc [0, 5, 0, 8, 0x400] []) 0x400 8 =
    some (0x00001506, 0, 0) := by decide +kernel
theorem test_sym_dec_short : outcome .symDec (flight .symDec [0, 0x7F, 0, 8, 0x400] []) 0 0 =
    some (0x00001306, 0, 0) := by decide +kernel

/-- Section 2.7: the blob of the empty message under "password" with RNDBUF = 00 01 ... 3F. -/
theorem test_sym_enc :
    let s := flight .symEnc [0, 0, 0, 8, 0x400] (Memory.write [] 0 (natBe 8 0x70617373776F7264))
    let r : Vector Byte 64 := Vector.ofFn fun k => BitVec.ofNat 8 k.val
    outcome .symEnc { s with rndValid := true, latch := { s.latch with rndbuf := r, rndValid := true } }
      0x43E 10 = some (0x00000002, 128, 0x3E3F51866F418CB4E4EE) := by decide +kernel

/-! ### Witnesses: a state and operands that meet the hypotheses of each statement, for each of its clauses -/

theorem next_idleAt (e : Event) : NextEvent (idleAt e) e [] := ⟨accepted_reset, rfl, rfl⟩

theorem next_busyAt (i : Instr) (e : Event) : NextEvent (busyAt i e) e [] := ⟨accepted_reset, rfl, rfl⟩

/-- The machine after the host stopped at a bus error. -/
def stopped (ph : Phase) (es : List Event) : State :=
  { flight .nop [] [] with phase := ph, hostError := some ⟨.buf, 0x10000, 8⟩, schedule := es }

theorem witness_EngineDecodesOpcodeThenReservedBits :
    (busyAt .nop .engine).phase = .busy ∧ (busyAt .nop .engine).schedule = [.engine] ∧
    (0x00000105 : Word).toNat % 256 ∉ assignedOpcodes ∧ (0x000000FF : Word).toNat % 256 ∉ assignedOpcodes ∧
    (0x00000100 : Word).toNat % 256 ∈ assignedOpcodes ∧ (0x00000100 : Word).toNat / 256 ≠ 0 ∧
    (0x00000036 : Word).toNat % 256 ∈ assignedOpcodes ∧ (0x00000036 : Word).toNat / 256 = 0 := by
  decide

theorem witness_StepRunsTheDecodedCommand (i : Instr) :
    paramsAccepted (busyAt i .engine).params = true ∧ (busyAt i .engine).phase = .busy ∧
    decode (busyAt i .engine).latch.cmd = .ok i ∧ (busyAt i .engine).schedule = [.engine] ∧
    (flight i [] []).schedule = [] ∧ decode (flight i [] []).latch.cmd = .ok i ∧
    (stopped .busy [.host (.bufRead 0)]).schedule = [.host (.bufRead 0)] ∧
    (stopped .busy [.host (.bufRead 0)]).hostError = some ⟨.buf, 0x10000, 8⟩ ∧
    (idleAt .engine).phase = .idle ∧ (idleAt .engine).schedule = [.engine] ∧
    State.reset.phase = .idle ∧ State.reset.schedule = [] ∧ State.reset.hostError = none := by
  refine ⟨accepted_reset, rfl, ?_, rfl, rfl, ?_, rfl, rfl, rfl, rfl, rfl, rfl, rfl⟩ <;> cases i <;> decide

theorem witness_IssueLatchesTheOperands :
    NextEvent (idleAt (.host (.regWrite 0x010 32 0xFFFFFFFF))) (.host (.regWrite 0x010 32 0xFFFFFFFF)) [] ∧
    (idleAt (.host (.regWrite 0x010 32 0xFFFFFFFF))).phase = .idle ∧
    NextEvent (busyAt .nop (.host (.regWrite 0x010 32 0))) (.host (.regWrite 0x010 32 0)) [] ∧
    (busyAt .nop (.host (.regWrite 0x010 32 0))).phase = .busy :=
  ⟨next_idleAt _, rfl, next_busyAt _ _, rfl⟩

theorem witness_BusyAccessesAreDroppedOrUnspecified :
    (∀ off ∈ [0x010, 0x020, 0x07C], off % 4 = 0 ∧ (off = 0x010 ∨ 0x020 ≤ off ∧ off < 0x080) ∧
      NextEvent (busyAt .nop (.host (.regWrite off 32 1))) (.host (.regWrite off 32 1)) []) ∧
    NextEvent (busyAt .nop (.host (.bufWrite 0xFFFF 1))) (.host (.bufWrite 0xFFFF 1)) [] ∧
    0xFFFF < (busyAt .nop (.host (.bufWrite 0xFFFF 1))).params.bufSize ∧
    (∀ off ∈ [0x000, 0x004, 0x014, 0x01C, 0x080, 0x0FC], off % 4 = 0 ∧
      (off < 0x008 ∨ 0x014 ≤ off ∧ off < 0x020 ∨ 0x080 ≤ off ∧ off < 0x100) ∧
      NextEvent (busyAt .nop (.host (.regWrite off 32 1))) (.host (.regWrite off 32 1)) [] ∧
      NextEvent (idleAt (.host (.regWrite off 32 1))) (.host (.regWrite off 32 1)) []) ∧
    NextEvent (busyAt .nop (.host (.bufRead 0xFFFF))) (.host (.bufRead 0xFFFF)) [] ∧
    (busyAt .nop (.host (.bufRead 0xFFFF))).phase = .busy := by
  refine ⟨?_, next_busyAt _ _, by decide, ?_, next_busyAt _ _, rfl⟩ <;> intro off h
  · refine ⟨?_, ?_, next_busyAt _ _⟩ <;> revert off <;> decide
  · refine ⟨?_, ?_, next_busyAt _ _, next_idleAt _⟩ <;> revert off <;> decide

theorem witness_RegReadReturnsTheRegister :
    (∀ off ∈ [0x000, 0x004, 0x008, 0x00C, 0x010, 0x014, 0x018, 0x01C, 0x020, 0x03C, 0x040, 0x07C, 0x080,
      0x0FC], NextEvent (idleAt (.host (.regRead off 32))) (.host (.regRead off 32)) []) ∧
    ((0x4B434531 : Word).toNat = 0x4B434531 ∧ (0x00428810 : Word).toNat = 16 + 136 * 2 ^ 8 + 66 * 2 ^ 16 ∧
      (0x00000000 : Word).toNat = State.reset.irqEn.toNat ∧ State.reset.args[(7 : Fin 8)] = 0) ∧
    0x020 + 4 * (7 : Fin 8).val = 0x03C ∧ 0x040 + 4 * (15 : Fin 16).val = 0x07C := by
  exact ⟨fun _ _ => next_idleAt _, by decide, by decide, by decide⟩

theorem witness_StatusWriteClearsDoneAndWerr : NextEvent (busyAt .nop (.host (.regWrite 0x00C 32 0x0A)))
    (.host (.regWrite 0x00C 32 0x0A)) [] := next_busyAt _ _

theorem witness_CtrlWriteSetsInterruptEnable : NextEvent (busyAt .nop (.host (.regWrite 0x008 32 1)))
    (.host (.regWrite 0x008 32 1)) [] ∧ (1 : Word).toNat / 2 ^ 1 % 2 = 0 := ⟨next_busyAt _ _, by decide⟩

theorem witness_RndWriteFillsFourBytes :
    NextEvent (idleAt (.host (.regWrite (0x040 + 4 * (15 : Fin 16).val) 32 1)))
      (.host (.regWrite (0x040 + 4 * (15 : Fin 16).val) 32 1)) [] ∧
    (idleAt (.host (.regWrite (0x040 + 4 * (15 : Fin 16).val) 32 1))).phase = .idle ∧
    NextEvent (busyAt .nop (.host (.regRead (0x040 + 4 * (0 : Fin 16).val) 32)))
      (.host (.regRead (0x040 + 4 * (0 : Fin 16).val) 32)) [] := ⟨next_idleAt _, rfl, next_busyAt _ _⟩

theorem witness_ArgWriteSetsOneRegister :
    NextEvent (idleAt (.host (.regWrite (0x020 + 4 * (7 : Fin 8).val) 32 1)))
      (.host (.regWrite (0x020 + 4 * (7 : Fin 8).val) 32 1)) [] ∧
    (idleAt (.host (.regWrite (0x020 + 4 * (7 : Fin 8).val) 32 1))).phase = .idle := ⟨next_idleAt _, rfl⟩

theorem witness_BufHoldsTheLastWrite :
    (idleAt (.host (.bufWrite 0xFFFF 1))).phase = .idle ∧
    0xFFFF < (idleAt (.host (.bufWrite 0xFFFF 1))).params.bufSize ∧
    NextEvent (idleAt (.host (.bufWrite 0xFFFF 1))) (.host (.bufWrite 0xFFFF 1)) [] ∧
    NextEvent (idleAt (.host (.bufRead 0xFFFF))) (.host (.bufRead 0xFFFF)) [] :=
  ⟨rfl, by decide, next_idleAt _, next_idleAt _⟩

theorem witness_OnlyIllFormedAccessesFail :
    NextEvent (idleAt (.host (.bufRead 0x10000))) (.host (.bufRead 0x10000)) [] ∧
    Access.wf (idleAt (.host (.bufRead 0x10000))).params.bufSize (.bufRead 0x10000) = false ∧
    NextEvent (idleAt (.host (.bufRead 0xFFFF))) (.host (.bufRead 0xFFFF)) [] ∧
    Access.wf (idleAt (.host (.bufRead 0xFFFF))).params.bufSize (.bufRead 0xFFFF) = true :=
  ⟨next_idleAt _, by decide, next_idleAt _, by decide⟩

theorem witness_StoppedHostTakesNoStep :
    paramsAccepted (stopped .idle []).params = true ∧
    (stopped .idle []).hostError = some ⟨.buf, 0x10000, 8⟩ ∧ (stopped .idle []).phase = .idle ∧
    (stopped .idle []).schedule = [] ∧ (stopped .busy [.host (.bufRead 0)]).phase = .busy ∧
    (stopped .idle [.host (.bufRead 0)]).schedule = [.host (.bufRead 0)] ∧
    ∃ t, step (stopped .busy [.host (.bufRead 0)]) = .next t :=
  ⟨accepted_reset, rfl, rfl, rfl, rfl, rfl, _, by
    simp only [step, stopped, turn, quietTurn, completionStep_eq]
    exact if_pos accepted_reset⟩

theorem witness_SoftResetKeepsOnlyBuf :
    NextEvent (idleAt (.host (.regWrite 0x008 32 3))) (.host (.regWrite 0x008 32 3)) [] ∧
    (3 : Word).toNat / 2 ^ 1 % 2 = 1 ∧ (idleAt (.host (.regWrite 0x008 32 3))).phase = .idle :=
  ⟨next_idleAt _, by decide, rfl⟩

/-- A command that would succeed with a destination (KECCAKF), one without (NOP), one that would fail
(FINV of 0), and a word that is no command. -/
theorem witness_AbortLosesOnlyTheDestination :
    (∀ i, NextEvent (busyAt i (.host (.regWrite 0x008 32 2))) (.host (.regWrite 0x008 32 2)) [] ∧
      (busyAt i (.host (.regWrite 0x008 32 2))).phase = .busy ∧
      decode (busyAt i (.host (.regWrite 0x008 32 2))).latch.cmd = .ok i) ∧
    (2 : Word).toNat / 2 ^ 1 % 2 = 1 ∧
    (∃ u, exec .keccakf (busyAt .keccakf (.host (.regWrite 0x008 32 2))) = .next u ∧ u.rc = .ok) ∧
    dstArg .keccakf = some 1 ∧ dstArg .nop = none ∧
    (∃ u, exec .nop (busyAt .nop (.host (.regWrite 0x008 32 2))) = .next u) ∧
    (∃ u, exec .finv (busyAt .finv (.host (.regWrite 0x008 32 2))) = .next u ∧ u.rc = .noInverse) ∧
    let s := { busyAt .nop (.host (.regWrite 0x008 32 2)) with latch := { Latch.reset with cmd := 0x105 } }
    NextEvent s (.host (.regWrite 0x008 32 2)) [] ∧ s.phase = .busy ∧
      decode s.latch.cmd = .error .illegalOpcode := by
  refine ⟨fun i => ⟨next_busyAt _ _, rfl, by cases i <;> decide⟩, by decide, ⟨_, rfl, ?_⟩, rfl, rfl,
    ⟨_, rfl⟩, ⟨_, rfl, ?_⟩, ⟨accepted_reset, rfl, rfl⟩, rfl, by decide⟩ <;> decide +kernel

theorem witness_ResetGivesTheTableValues :
    paramsAccepted State.reset.params = true ∧ (idleAt (.powerOn [(3, 7)])).schedule = [.powerOn [(3, 7)]] ∧
    NextEvent (idleAt (.host (.regWrite 0x008 32 2))) (.host (.regWrite 0x008 32 2)) [] ∧
    (2 : Word).toNat / 2 ^ 1 % 2 = 1 ∧ (idleAt (.host (.regWrite 0x008 32 2))).phase = .idle :=
  ⟨accepted_reset, rfl, next_idleAt _, by decide, rfl⟩

theorem witness_IrqFollowsDoneAndEnable :
    (∃ t, exec .nop State.reset = .next t) ∧
    (paramsAccepted (busyAt .nop .engine).params = true ∧ (busyAt .nop .engine).phase = .busy ∧
      (busyAt .nop .engine).schedule = [.engine]) ∧
    (NextEvent (idleAt (.host (.regWrite 0x010 32 0))) (.host (.regWrite 0x010 32 0)) [] ∧
      (idleAt (.host (.regWrite 0x010 32 0))).phase = .idle) ∧
    (NextEvent (idleAt (.host (.regWrite 0x00C 32 2))) (.host (.regWrite 0x00C 32 2)) [] ∧
      (2 : Word).toNat / 2 ^ 1 % 2 = 1) ∧
    NextEvent (idleAt (.host (.regWrite 0x008 32 2))) (.host (.regWrite 0x008 32 2)) [] ∧
    NextEvent (idleAt (.host (.regWrite 0x008 32 1))) (.host (.regWrite 0x008 32 1)) [] ∧
    (1 : Word).toNat / 2 ^ 1 % 2 = 0 :=
  ⟨⟨_, rfl⟩, ⟨accepted_reset, rfl, rfl⟩, ⟨next_idleAt _, rfl⟩, ⟨next_idleAt _, by decide⟩, next_idleAt _,
    next_idleAt _, by decide⟩

theorem reset_inv : State.reset.Inv where
  accepted := accepted_reset
  canonical := Memory.wf_nil
  bounded := by intro c h; cases h
  outlenBounded := by decide
  failed h := absurd rfl h
  spent _ := rfl
  inFlight h := by cases h

theorem step_reset : step State.reset = .next State.reset := by
  simp only [step, accepted_reset, if_true]
  rfl

theorem witness_StepKeepsTheInvariant : State.reset.Inv ∧ step State.reset = .next State.reset :=
  ⟨reset_inv, step_reset⟩

/-- A point of the curve of order 2, so not of the odd order R_ORDER. -/
def orderTwo : Point := { x := 0, y := P - 1 }

theorem pmulFrom_orderTwo (k n : Nat) {V : Point} (hV : V = NEUTRAL ∨ V = orderTwo) :
    pmulFrom orderTwo k (n + 1) V = .ok (if k.testBit 0 then orderTwo else NEUTRAL) := by
  have hdouble : padd V V = .ok NEUTRAL := by rcases hV with rfl | rfl <;> decide +kernel
  have hadd : padd NEUTRAL orderTwo = .ok orderTwo := by decide +kernel
  induction n generalizing V with
  | zero =>
    rw [pmulFrom, hdouble, except_ok_bind]
    split <;> simp only [hadd, except_ok_bind, pmulFrom]
  | succ n ih =>
    rw [pmulFrom, hdouble, except_ok_bind]
    split
    · rw [hadd, except_ok_bind]
      exact ih (.inr rfl) (by decide +kernel)
    · rw [except_ok_bind]
      exact ih (.inl rfl) (by decide +kernel)

/-- A step is taken on the default instance; off the curve, and on it but of another order, lie points that
only their own condition refuses. -/
theorem witness_ParametersNeverChange : step State.reset = .next State.reset ∧
    ((1 : Int) ^ 2 + 1 ^ 2 - (1 - 376014 * 1 ^ 2 * 1 ^ 2)) % P ≠ 0 ∧
    (Reduced orderTwo ∧ onCurve orderTwo = true ∧ orderTwo ≠ NEUTRAL ∧
      pmul orderTwo R_ORDER ≠ .ok { x := 0, y := 1 }) := by
  refine ⟨step_reset, by decide +kernel, by decide +kernel, by decide +kernel, by decide +kernel, ?_⟩
  rw [pmul, show bitLen R_ORDER = 518 + 1 by decide +kernel, pmulFrom_orderTwo _ _ (.inl rfl)]
  decide +kernel

/-- What a taken event gives, as a next state. -/
theorem witness_EachFlagHasOneSetter :
    (∃ t, step (idleAt (.host (.regWrite 0x010 32 0))) = .next t ∧ t.phase = .busy) ∧
    (∃ t, step (busyAt .nop .engine) = .next t ∧ t.doneFlag = true) ∧
    (∃ t, step { flight .peq [0, 0x200] (points NEUTRAL NEUTRAL) with schedule := [.engine] } = .next t ∧
      t.eqFlag = true) ∧
    (∃ t, step (busyAt .nop (.host (.bufWrite 0 1))) = .next t ∧ t.werrFlag = true) ∧
    ∃ t, step (idleAt (.host (.regWrite 0x040 32 1))) = .next t ∧ t.rndValid = true := by
  have hrun (i : Instr) (s : State) (hs : s.schedule = [.engine]) (hp : s.phase = .busy)
      (ha : s.params = Params.default) (hd : decode s.latch.cmd = .ok i) :
      step s = exec i { s with schedule := [] } := by
    simp only [step, ha, turn, hs, engineTurn, hp, completionStep, hd]
    exact if_pos accepted_reset
  refine ⟨⟨_, step_host (next_idleAt _), by decide⟩, ⟨_, hrun .nop _ rfl rfl rfl (by decide), by decide⟩,
    ⟨_, hrun .peq _ rfl rfl rfl (by decide), by decide +kernel⟩, ⟨_, step_host (next_busyAt _ _), by decide⟩,
    _, step_host (next_idleAt _), by decide⟩

theorem witness_ExecReadsOnlyLatchBufAndParameters :
    ({ State.reset with werrFlag := true } : State) ≠ State.reset ∧
    ({ State.reset with werrFlag := true } : State).latch = State.reset.latch ∧
    ({ State.reset with werrFlag := true } : State).buf = State.reset.buf ∧
    ({ State.reset with werrFlag := true } : State).params = State.reset.params ∧
    (∃ t, exec .nop State.reset = .next t) ∧
    ∃ t, exec .nop { State.reset with werrFlag := true } = .next t :=
  ⟨by decide +kernel, rfl, rfl, rfl, ⟨_, rfl⟩, _, rfl⟩

theorem witness_UnusedArgsAreIgnored :
    (argRoles .keccakf)[(2 : Fin 8)] = .ignored ∧ (argRoles .nop)[(7 : Fin 8)] = .ignored ∧
    (∃ t, exec .keccakf State.reset = .next t) ∧
    ∃ t, exec .keccakf { State.reset with
      latch := { State.reset.latch with args := State.reset.latch.args.set 2 0xFFFFFFFF } } = .next t :=
  ⟨by decide, by decide, ⟨_, rfl⟩, _, rfl⟩

theorem witness_FailedCommandChangesNothing :
    ∃ t, exec .finv State.reset = .next t ∧ t.rc = .noInverse := ⟨_, rfl, by decide +kernel⟩

theorem witness_CommandWritesOnlyItsDestination :
    State.reset.params.wfBufAw = true ∧ dstArg .nop = none ∧ dstArg .keccakf = some 1 ∧
    ¬ (State.reset.latch.args[(1 : Fin 8)].toNat ≤ 200 ∧
      200 < State.reset.latch.args[(1 : Fin 8)].toNat + (200 : Word).toNat) := by decide

/-! ### Witnesses of the commands -/

theorem padd_neutral : padd NEUTRAL NEUTRAL = .ok NEUTRAL := by decide +kernel

/-- Every multiple of the neutral element is the neutral element. -/
theorem pmul_neutral (k : Nat) : pmul NEUTRAL k = .ok NEUTRAL := by
  have h (n : Nat) : pmulFrom NEUTRAL k n NEUTRAL = .ok NEUTRAL := by
    induction n with
    | zero => rfl
    | succ n ih =>
      rw [pmulFrom, padd_neutral, except_ok_bind]
      split
      · simp only [padd_neutral, except_ok_bind, ih]
      · simp only [except_ok_bind, ih]
  exact h _

/-- A point off the curve whose double has a zero denominator: 1 + D·y² = 0 at x = 1. -/
def offCurve : Point :=
  { x := 1
    y := 0x9007D520EE49B39821C27B6EDB1B1A1147BF1966DDEBE03CCD49F579EAE3A34AAF78111A3BA6D6CF2EA33F1FDC597EB583CC5437320B241FEC80325F6073954339 }

theorem reduced_offCurve : Reduced offCurve := by decide +kernel

theorem double_offCurve : padd offCurve offCurve = .error .noInverse := by decide +kernel

/-- So every multiple of it from the double on stops. -/
theorem pmul_offCurve (k : Nat) (hk : 2 ≤ k) : pmul offCurve k = .error .noInverse := by
  obtain ⟨n, hn⟩ : ∃ n, bitLen k = n + 2 := by
    have h1 : k ≠ 0 := by omega
    have h2 : 1 ≤ k.log2 := (Nat.le_log2 h1).2 hk
    exact ⟨k.log2 - 1, by rw [bitLen, if_neg h1]; omega⟩
  have htop : k.testBit (n + 1) = true := by
    have h1 : k ≠ 0 := by omega
    have h2 : k.log2 = n + 1 := by
      rw [bitLen, if_neg h1] at hn
      omega
    rw [← h2]
    exact Nat.testBit_log2 h1
  have hadd : padd NEUTRAL offCurve = .ok offCurve := by decide +kernel
  rw [pmul, hn, pmulFrom, padd_neutral, except_ok_bind, if_pos htop]
  simp only [hadd, except_ok_bind, pmulFrom, double_offCurve, except_error_bind]

/-- A byte string of any length but 0 differs from its complement. -/
theorem complement_ne {l : Bytes} (h : l ≠ []) : l.map (fun b => ~~~b) ≠ l := by
  cases l with
  | nil => exact absurd rfl h
  | cons b l =>
    intro he
    have hb : ∀ b : Byte, ~~~b ≠ b := by decide
    exact hb b (List.cons.inj he).1

theorem witness_OperandsThenRegionsAreChecked :
    operandFault .bytepad (flight .bytepad [0xFFFFFFFF, 1, 0, 0] []) = some .badArg ∧
    operandFault .symDec (flight .symDec [0, 127, 0, 0, 0] []) = some .badLength ∧
    operandFault .keccakf (flight .keccakf [0xFF39, 0] []) = none ∧
    (∃ r ∈ operandRegions .keccakf (flight .keccakf [0xFF39, 0] []),
      ¬ Fits (flight .keccakf [0xFF39, 0] []) r.1 r.2) ∧
    operandFault .symDec (flight .symDec [0, 128, 0, 0, 0x10001] []) = none ∧
    ∃ r ∈ operandRegions .symDec (flight .symDec [0, 128, 0, 0, 0x10001] []),
      ¬ Fits (flight .symDec [0, 128, 0, 0, 0x10001] []) r.1 r.2 := by decide

theorem witness_KeccakfPermutesTheState :
    Fits (flight .keccakf [0xFF38, 0xFF38] []) (arg (flight .keccakf [0xFF38, 0xFF38] []) 0) 200 ∧
    Fits (flight .keccakf [0xFF38, 0xFF38] []) (arg (flight .keccakf [0xFF38, 0xFF38] []) 1) 200 ∧
    ¬ (Fits (flight .keccakf [0xFF39, 0] []) (arg (flight .keccakf [0xFF39, 0] []) 0) 200 ∧
      Fits (flight .keccakf [0xFF39, 0] []) (arg (flight .keccakf [0xFF39, 0] []) 1) 200) := by decide

theorem witness_LanesAreLittleEndianWords : (zeros 200).length = 200 := length_zeros 200

/-- The operands of a string command: three strings that end at the end of BUF, 64 bytes of output. -/
def stringArgs (L : Nat) : List Nat := [0xFFFF, 1, 0xFFFE, 2, 0x10000, 0, 0xFFC0, L]

theorem witness_Cshake256WritesTheSponge :
    ((zeros 136).length % 136 = 0 ∧ (zeros 136).length = 136 ∧ (zeros 200).length = 200) ∧
    (let s := flight .cshake256 (stringArgs 4) []
     arg s 7 % 8 ≠ 0) ∧
    (let s := flight .cshake256 (stringArgs 520) []
     arg s 7 % 8 = 0 ∧ ¬ (Fits s (arg s 0) (arg s 1) ∧ Fits s (arg s 2) (arg s 3) ∧
       Fits s (arg s 4) (arg s 5) ∧ Fits s (arg s 6) (arg s 7 / 8))) ∧
    (let s := flight .cshake256 (stringArgs 512) []
     arg s 7 % 8 = 0 ∧ Fits s (arg s 0) (arg s 1) ∧ Fits s (arg s 2) (arg s 3) ∧
       Fits s (arg s 4) (arg s 5) ∧ Fits s (arg s 6) (arg s 7 / 8) ∧ ¬ (arg s 3 = 0 ∧ arg s 5 = 0)) ∧
    (let s := flight .cshake256 [0, 3, 0, 0, 0, 0, 0, 0] []
     arg s 7 % 8 = 0 ∧ Fits s (arg s 0) (arg s 1) ∧ arg s 3 = 0 ∧ arg s 5 = 0) := by
  refine ⟨by simp, ?_⟩
  decide

theorem witness_KmacCommandsWriteTheMac :
    let s := flight .kmac256 (stringArgs 512) []
    arg s 7 % 8 = 0 ∧ Fits s (arg s 0) (arg s 1) ∧ Fits s (arg s 2) (arg s 3) ∧
      Fits s (arg s 4) (arg s 5) ∧ Fits s (arg s 6) (arg s 7 / 8) := by decide

theorem witness_ShorterOutputIsAPrefix : 8 % 8 = 0 ∧ 1096 % 8 = 0 ∧ 8 ≤ 1096 := by decide

theorem witness_PaddingFillsTheBlock : (zeros 135).length % 136 = 135 ∧ (zeros 136).length % 136 ≠ 135 := by
  simp

/-- x = 2^2040 - 1, x = 2^2040, and a source one byte past the end. -/
theorem witness_EncodeIntegerUsesTheFewestBytes :
    (let s := flight .encLeft [0xFFFF, 2, 0] []
     ¬ Fits s (arg s 0) (arg s 1)) ∧
    (let s := flight .encLeft [0, 0x100, 0x400] (Memory.write [] 0 [1])
     Fits s (arg s 0) (arg s 1) ∧ 2 ^ 2040 ≤ intBe (memRead s (arg s 0) (arg s 1))) ∧
    (let s := flight .encLeft [0, 0xFF, 0xFF00] (Memory.write [] 0 (List.replicate 0xFF 0xFF))
     Fits s (arg s 0) (arg s 1) ∧ intBe (memRead s (arg s 0) (arg s 1)) < 2 ^ 2040 ∧
       Fits s (arg s 2) (255 + 1)) ∧
    (let s := flight .encLeft [0, 0xFF, 0xFF01] (Memory.write [] 0 (List.replicate 0xFF 0xFF))
     ¬ Fits s (arg s 2) (255 + 1)) := by decide +kernel

theorem witness_EncodeStringPrefixesTheLength :
    (let s := flight .encString [0xFFFC, 4, 0xFFFA] []
     Fits s (arg s 0) (arg s 1) ∧
       Fits s (arg s 2) (encodeLeft (8 * arg s 1) ++ memRead s (arg s 0) (arg s 1)).length) ∧
    (let s := flight .encString [0xFFFC, 4, 0xFFFB] []
     ¬ (Fits s (arg s 0) (arg s 1) ∧
       Fits s (arg s 2) (encodeLeft (8 * arg s 1) ++ memRead s (arg s 0) (arg s 1)).length)) := by
  decide +kernel

theorem witness_BytepadFillsToTheWidth :
    (let s := flight .bytepad [0, 1, 0, 0] []
     arg s 2 = 0) ∧
    (let s := flight .bytepad [0, 5, 4, 0xFFF8] []
     arg s 2 ≠ 0 ∧ Fits s (arg s 0) (arg s 1) ∧ Fits s (arg s 3) (bytepad (zeros 5) 4).length) ∧
    (let s := flight .bytepad [0, 5, 4, 0xFFF9] []
     ¬ (Fits s (arg s 0) (arg s 1) ∧ Fits s (arg s 3) (bytepad (zeros 5) 4).length)) := by decide +kernel

theorem witness_FieldCommandsReduceExactly :
    (let s := flight .fadd [0, 0x200, 0xFFBE] (fields (P - 1) 0)
     Fits s (arg s 0) 66 ∧ Fits s (arg s 1) 66 ∧ Fits s (arg s 2) 66 ∧ readW66 s (arg s 0) < P ∧
       readW66 s (arg s 1) < P) ∧
    (let s := flight .fadd [0, 0x200, 0xFFBF] (fields 0 0)
     ¬ (Fits s (arg s 0) 66 ∧ Fits s (arg s 1) 66 ∧ Fits s (arg s 2) 66)) ∧
    (let s := flight .fadd [0, 0x200, 0xFFBE] (fields 0 P)
     Fits s (arg s 0) 66 ∧ Fits s (arg s 1) 66 ∧ Fits s (arg s 2) 66 ∧
       ¬ (readW66 s (arg s 0) < P ∧ readW66 s (arg s 1) < P)) := by decide +kernel

theorem witness_FinvWritesTheInverse :
    let s := fun a => flight .finv [0, 0, 0xFFBE] (fields a 0)
    (∀ a, Fits (s a) (arg (s a) 0) 66 ∧ Fits (s a) (arg (s a) 2) 66) ∧
    readW66 (s (P - 1)) (arg (s (P - 1)) 0) = P - 1 ∧ readW66 (s 0) (arg (s 0) 0) = 0 ∧
    readW66 (s P) (arg (s P) 0) = P := by
  refine ⟨fun _ => ⟨by show 0 + 66 ≤ 2 ^ 16; decide, by show 0xFFBE + 66 ≤ 2 ^ 16; decide⟩, ?_⟩
  decide +kernel

theorem witness_FexpWritesThePower :
    let s := fun a => flight .fexp [0, 0x200, 0xFFBE] (fields a (2 ^ 528 - 1))
    readW66 (s 0) (arg (s 0) 0) < P ∧ readW66 (s 0) (arg (s 0) 1) = 2 ^ 528 - 1 ∧
    Fits (s 0) (arg (s 0) 0) 66 ∧ Fits (s 0) (arg (s 0) 1) 66 ∧ Fits (s 0) (arg (s 0) 2) 66 ∧
    P ≤ readW66 (s P) (arg (s P) 0) := by decide +kernel

/-- 0 has the root 0 alone, which is even. -/
theorem root_of_zero (r : Nat) (hr : r < P) (h : r * r % P = 0) : r = 0 := by
  rcases (Nat.Prime.dvd_mul prime_P).1 (Nat.dvd_of_mod_eq_zero h) with h | h <;>
    exact Nat.eq_zero_of_dvd_of_lt h hr

theorem witness_FsqrtFindsTheRootOfTheParity :
    (let s := flight .fsqrt [0, 2, 0x300] (fields 4 0)
     1 < arg s 1) ∧
    (let s := flight .fsqrt [0, 1, 0xFFBE] (fields P 0)
     arg s 1 ≤ 1 ∧ Fits s (arg s 0) 66 ∧ Fits s (arg s 2) 66 ∧ P ≤ readW66 s (arg s 0)) ∧
    (let s := flight .fsqrt [0, 0, 0xFFBE] (fields 4 0)
     arg s 1 ≤ 1 ∧ Fits s (arg s 0) 66 ∧ Fits s (arg s 2) 66 ∧ readW66 s (arg s 0) < P ∧
       2 < P ∧ 2 * 2 % P = readW66 s (arg s 0) ∧ 2 % 2 = arg s 1) ∧
    (let s := flight .fsqrt [0, 1, 0xFFBE] (fields 0 0)
     arg s 1 ≤ 1 ∧ Fits s (arg s 0) 66 ∧ Fits s (arg s 2) 66 ∧ readW66 s (arg s 0) < P ∧
       ∀ r, r < P → r * r % P = readW66 s (arg s 0) → r % 2 ≠ arg s 1) := by
  refine ⟨by decide, by decide +kernel, by decide +kernel, by decide, by decide, by decide,
    by decide +kernel, fun r hr h => ?_⟩
  have h0 : readW66 (flight .fsqrt [0, 1, 0xFFBE] (fields 0 0)) 0 = 0 := by decide +kernel
  have ha : arg (flight .fsqrt [0, 1, 0xFFBE] (fields 0 0)) 0 = 0 := by decide
  have hp : arg (flight .fsqrt [0, 1, 0xFFBE] (fields 0 0)) 1 = 1 := by decide
  rw [ha, h0] at h
  rw [root_of_zero r hr h, hp]
  decide

theorem witness_PaddComputesTheAdditionLaw :
    (let s := flight .padd [0, 0x200, 0xFF7C] (points NEUTRAL NEUTRAL)
     let p := readPoint s (arg s 0)
     let q := readPoint s (arg s 1)
     let e : Int := -376014 * p.x * q.x * p.y * q.y
     Fits s (arg s 0) 132 ∧ Fits s (arg s 1) 132 ∧ Fits s (arg s 2) 132 ∧ Reduced p ∧ Reduced q ∧
       (1 + e) % P ≠ 0 ∧ (1 - e) % P ≠ 0) ∧
    (let s := flight .padd [0, 0x200, 0xFF7C] (points offCurve offCurve)
     let p := readPoint s (arg s 0)
     let q := readPoint s (arg s 1)
     let e : Int := -376014 * p.x * q.x * p.y * q.y
     Reduced p ∧ Reduced q ∧ (1 + e) % P = 0) ∧
    (let s := flight .padd [0, 0x200, 0xFF7C] (points { x := P, y := 1 } NEUTRAL)
     ¬ (Reduced (readPoint s (arg s 0)) ∧ Reduced (readPoint s (arg s 1)))) := by decide +kernel

theorem witness_PaddOnTheCurveAlwaysCompletes :
    let s := flight .padd [0, 0x200, 0xFF7C] (points G NEUTRAL)
    Fits s (arg s 0) 132 ∧ Fits s (arg s 1) 132 ∧ Fits s (arg s 2) 132 ∧
      Reduced (readPoint s (arg s 0)) ∧ Reduced (readPoint s (arg s 1)) ∧
      onCurve (readPoint s (arg s 0)) = true ∧ onCurve (readPoint s (arg s 1)) = true := by
  decide +kernel

/-- BUF with a point at 0x0000 and the scalar k at 0x0200. -/
def pointAndScalar (p : Point) (k : Nat) : Memory :=
  (Memory.write [] 0 (pointBytes p)).write 0x200 (W66 k)

theorem witness_PmulWritesTheMultiple :
    (let s := flight .pmul [0, 0x200, 0xFF7C] (pointAndScalar NEUTRAL (2 ^ 528 - 1))
     Fits s (arg s 0) 132 ∧ Fits s (arg s 1) 66 ∧ Fits s (arg s 2) 132 ∧
       Reduced (readPoint s (arg s 0)) ∧ onCurve (readPoint s (arg s 0)) = true ∧
       readPoint s (arg s 0) = NEUTRAL ∧ readW66 s (arg s 1) = 2 ^ 528 - 1) ∧
    pmul NEUTRAL (2 ^ 528 - 1) = .ok NEUTRAL ∧
    (let s := flight .pmul [0, 0x200, 0xFF7C] (pointAndScalar offCurve 2)
     readPoint s (arg s 0) = offCurve ∧ readW66 s (arg s 1) = 2) ∧
    pmul offCurve 2 = .error .noInverse ∧ Reduced offCurve ∧
    (let s := flight .pmul [0, 0x200, 0xFF7C] (pointAndScalar { x := 0, y := P } 2)
     ¬ Reduced (readPoint s (arg s 0))) := by
  refine ⟨by decide +kernel, pmul_neutral _, by decide +kernel, pmul_offCurve 2 (by omega),
    reduced_offCurve, by decide +kernel⟩

theorem witness_PfromxFindsThePointOfTheParity :
    (let s := flight .pfromx [0, 2, 0x300] (fields 4 0)
     1 < arg s 1) ∧
    (let s := flight .pfromx [0, 1, 0xFF7C] (fields P 0)
     arg s 1 ≤ 1 ∧ Fits s (arg s 0) 66 ∧ Fits s (arg s 2) 132 ∧ P ≤ readW66 s (arg s 0)) ∧
    (let s := flight .pfromx [0, 1, 0xFF7C] (fields 0 0)
     arg s 1 ≤ 1 ∧ Fits s (arg s 0) 66 ∧ Fits s (arg s 2) 132 ∧ readW66 s (arg s 0) < P ∧
       onCurve { x := readW66 s (arg s 0), y := 1 } = true ∧ 1 % 2 = arg s 1) ∧
    (let s := flight .pfromx [0, 1, 0xFF7C] (fields 1 0)
     arg s 1 ≤ 1 ∧ Fits s (arg s 0) 66 ∧ Fits s (arg s 2) 132 ∧ readW66 s (arg s 0) < P ∧
       ∀ y, y < P → onCurve { x := readW66 s (arg s 0), y := y } = true → y % 2 ≠ arg s 1) := by
  refine ⟨by decide, by decide +kernel, by decide +kernel, by decide, by decide, by decide,
    by decide +kernel, fun y hy h => ?_⟩
  have h1 : readW66 (flight .pfromx [0, 1, 0xFF7C] (fields 1 0)) 0 = 1 := by decide +kernel
  have ha : arg (flight .pfromx [0, 1, 0xFF7C] (fields 1 0)) 0 = 0 := by decide
  have hp : arg (flight .pfromx [0, 1, 0xFF7C] (fields 1 0)) 1 = 1 := by decide
  rw [ha, h1] at h
  obtain ⟨m, hm⟩ : ∃ m, m = P := ⟨P, rfl⟩
  have := fact_prime hm
  have h2 := (onCurve_iff hm).1 h
  rw [cast_D_CURVE hm] at h2
  have h3 : ((376015 : Nat) : ZMod m) * (y : ZMod m) ^ 2 = 0 := by
    push_cast at h2 ⊢
    linear_combination h2
  have hy0 : y = 0 := by
    rcases mul_eq_zero.1 h3 with h | h
    · exact absurd ((cast_eq_zero_iff hm (by decide +kernel)).1 h) (by decide)
    · exact (cast_eq_zero_iff hm hy).1 (pow_eq_zero_iff (by decide) |>.1 h)
  rw [hy0, hp]
  decide

theorem witness_PeqComparesCoordinates :
    (let s := flight .peq [0xFF7D, 0] []
     ¬ (Fits s (arg s 0) 132 ∧ Fits s (arg s 1) 132)) ∧
    (let s := flight .peq [0, 0x200] (points { x := 0, y := P + 1 } NEUTRAL)
     Fits s (arg s 0) 132 ∧ Fits s (arg s 1) 132 ∧
       ¬ (Reduced (readPoint s (arg s 0)) ∧ Reduced (readPoint s (arg s 1)))) ∧
    (let s := flight .peq [0, 0x200] (points G NEUTRAL)
     Fits s (arg s 0) 132 ∧ Fits s (arg s 1) 132 ∧ Reduced (readPoint s (arg s 0)) ∧
       Reduced (readPoint s (arg s 1))) := by decide +kernel

/-! ### Witnesses of the protocols

The bytes that KMAC gives stand in these states as terms: nothing here computes them. -/

theorem witness_KeygenDerivesThePublicKey :
    (let s := flight .keygen [0xFFF8, 8, 0xFF7C] []
     paramsAccepted s.params = true ∧ Fits s (arg s 0) (arg s 1) ∧ Fits s (arg s 2) 132) ∧
    (let s := flight .keygen [0xFFF9, 8, 0xFF7C] []
     ¬ (Fits s (arg s 0) (arg s 1) ∧ Fits s (arg s 2) 132)) := by decide +kernel

theorem arg_flight (i : Instr) (as : List Nat) (m : Memory) (k : Fin 8) :
    arg (flight i as m) k = as.getD k.val 0 % 2 ^ 32 := by
  simp [arg, flight]

/-- PK_ENC of 5 bytes to the point at 0x0200, with the destination at the end of BUF: k = 4. -/
def encryptTo (V : Point) : State :=
  flightRnd .pkEnc [0, 5, 0x200, 0xFF37] (points NEUTRAL V)

theorem witness_PkEncWritesTheCryptogram :
    (let s := encryptTo NEUTRAL
     paramsAccepted s.params = true ∧ Fits s (arg s 0) (arg s 1) ∧ Fits s (arg s 2) 132 ∧
       Fits s (arg s 3) (196 + arg s 1) ∧ s.latch.rndValid = true ∧
       readPoint s (arg s 2) = NEUTRAL ∧ 4 * intBe s.latch.rndbuf.toList = 4) ∧
    Reduced NEUTRAL ∧ onCurve NEUTRAL = true ∧ pmul NEUTRAL 4 = .ok NEUTRAL ∧
    (let s := flight .pkEnc [0, 5, 0x200, 0xFF37] []
     s.latch.rndValid = false) ∧
    readPoint (encryptTo { x := P, y := 0 }) (arg (encryptTo { x := P, y := 0 }) 2) =
      { x := P, y := 0 } ∧
    ¬ Reduced { x := P, y := 0 } ∧
    readPoint (encryptTo offCurve) (arg (encryptTo offCurve) 2) = offCurve ∧ Reduced offCurve ∧
    pmul offCurve 4 = .error .noInverse := by
  refine ⟨by decide +kernel, by decide +kernel, by decide +kernel, pmul_neutral _, by decide,
    by decide +kernel, by decide +kernel, by decide +kernel, reduced_offCurve, pmul_offCurve _ (by omega)⟩

/-- The tag of the empty message under the point W. -/
def pkTag (W : Point) : Bytes :=
  kmacxof256 ((kmacxof256 (W66 W.x) [] 1024 [0x50]).drop 64)
    (xorBytes (kmacxof256 ((kmacxof256 (W66 W.x) [] 1024 [0x50]).take 64) [] 0 [0x50, 0x4B, 0x45]) [])
    512 [0x50, 0x4B, 0x41]

/-- PK_DEC, with the empty passphrase, of the 196-byte cryptogram Z || tag at the end of BUF. -/
def decryptOf (Z : Point) (tag : Bytes) : State :=
  flight .pkDec [0, 0, 0xFF3C, 196, 0] ((Memory.write [] 0xFF3C (pointBytes Z)).write 0xFFC0 tag)

theorem readPoint_decryptOf (Z : Point) (hZ : Reduced Z) (tag : Bytes) :
    readPoint (decryptOf Z tag) (arg (decryptOf Z tag) 2) = Z := by
  have ha : arg (decryptOf Z tag) 2 = 0xFF3C := arg_flight _ _ _ _
  have hb (a n : Nat) (h : a + n ≤ 0xFFC0) :
      memRead (decryptOf Z tag) a n = (Memory.write [] 0xFF3C (pointBytes Z)).readBytes a n :=
    Memory.readBytes_write_disjoint _ _ _ _ _ (.inl h)
  have hall : (Memory.write [] 0xFF3C (pointBytes Z)).readBytes 0xFF3C 132 = W66 Z.x ++ W66 Z.y := by
    have := Memory.readBytes_write_same [] 0xFF3C (pointBytes Z)
    rwa [length_pointBytes] at this
  rw [show (132 : Nat) = 66 + 66 from rfl, Memory.readBytes_add] at hall
  obtain ⟨hx, hy⟩ := List.append_inj hall (by simp)
  have hP : P < 2 ^ 528 := by decide +kernel
  rw [ha, readPoint, readW66, readW66, W_BYTES, hb _ _ (by omega), hb _ _ (by omega), hx, hy,
    intBe_W66 (lt_trans hZ.1 hP), intBe_W66 (lt_trans hZ.2 hP)]

theorem memRead_tag (Z : Point) (tag : Bytes) (h : tag.length = 64) :
    memRead (decryptOf Z tag) 0xFFC0 64 = tag := by
  rw [← h]
  exact Memory.readBytes_write_same _ _ _

theorem length_pkTag (W : Point) : (pkTag W).length = 64 := by simp [pkTag]

/-- The first 64 bytes that derive the private scalar of the empty passphrase are not all zero. -/
theorem empty_passphrase_scalar : intBe (kmacxof256 [] [] 512 [0x4B]) ≠ 0 := by decide +kernel

theorem witness_PkDecReleasesOnlyAuthenticPlaintext :
    (∀ Z tag, 196 ≤ arg (decryptOf Z tag) 3 ∧
      Fits (decryptOf Z tag) (arg (decryptOf Z tag) 0) (arg (decryptOf Z tag) 1) ∧
      Fits (decryptOf Z tag) (arg (decryptOf Z tag) 2) (arg (decryptOf Z tag) 3) ∧
      Fits (decryptOf Z tag) (arg (decryptOf Z tag) 4) (arg (decryptOf Z tag) 3 - 196) ∧
      memRead (decryptOf Z tag) (arg (decryptOf Z tag) 0) (arg (decryptOf Z tag) 1) = [] ∧
      arg (decryptOf Z tag) 2 + arg (decryptOf Z tag) 3 - 64 = 0xFFC0) ∧
    readPoint (decryptOf NEUTRAL (pkTag NEUTRAL)) (arg (decryptOf NEUTRAL (pkTag NEUTRAL)) 2) = NEUTRAL ∧
    Reduced NEUTRAL ∧ onCurve NEUTRAL = true ∧ (∀ k, pmul NEUTRAL k = .ok NEUTRAL) ∧
    memRead (decryptOf NEUTRAL (pkTag NEUTRAL)) 0xFFC0 64 = pkTag NEUTRAL ∧
    memRead (decryptOf NEUTRAL ((pkTag NEUTRAL).map fun b => ~~~b)) 0xFFC0 64 ≠ pkTag NEUTRAL ∧
    readPoint (decryptOf offCurve []) (arg (decryptOf offCurve []) 2) = offCurve ∧ Reduced offCurve ∧
    pmul offCurve (4 * intBe (kmacxof256 [] [] 512 [0x4B])) = .error .noInverse ∧
    ¬ Reduced (readPoint (decryptOf { x := 0, y := P } []) (arg (decryptOf { x := 0, y := P } []) 2)) := by
  refine ⟨fun Z tag => ?_, readPoint_decryptOf _ reduced_NEUTRAL _, reduced_NEUTRAL, onCurve_NEUTRAL,
    pmul_neutral, memRead_tag _ _ (length_pkTag _), ?_, readPoint_decryptOf _ reduced_offCurve _,
    reduced_offCurve, pmul_offCurve _ ?_, by decide +kernel⟩
  · have h0 : arg (decryptOf Z tag) 0 = 0 := arg_flight _ _ _ _
    have h1 : arg (decryptOf Z tag) 1 = 0 := arg_flight _ _ _ _
    have h2 : arg (decryptOf Z tag) 2 = 0xFF3C := arg_flight _ _ _ _
    have h3 : arg (decryptOf Z tag) 3 = 196 := arg_flight _ _ _ _
    have h4 : arg (decryptOf Z tag) 4 = 0 := arg_flight _ _ _ _
    rw [h0, h1, h2, h3, h4]
    refine ⟨le_refl _, ?_, ?_, ?_, rfl, rfl⟩
    · show 0 + 0 ≤ 2 ^ 16
      decide
    · show 0xFF3C + 196 ≤ 2 ^ 16
      decide
    · show 0 + 0 ≤ 2 ^ 16
      decide
  · rw [memRead_tag _ _ (by simp [length_pkTag])]
    exact complement_ne (List.ne_nil_of_length_pos (by simp [length_pkTag]))
  · have := empty_passphrase_scalar
    omega

theorem witness_SignWritesTheSignature :
    (let s := flight .sign [0xFFFB, 5, 0xFFF8, 8, 0xFF7E] []
     paramsAccepted s.params = true ∧ Fits s (arg s 0) (arg s 1) ∧ Fits s (arg s 2) (arg s 3) ∧
       Fits s (arg s 4) 130) ∧
    (let s := flight .sign [0xFFFB, 5, 0xFFF8, 8, 0xFF7F] []
     ¬ (Fits s (arg s 0) (arg s 1) ∧ Fits s (arg s 2) (arg s 3) ∧ Fits s (arg s 4) 130)) := by
  decide +kernel

/-- VERIFY of the empty message against V, with the signature h || W66(z). -/
def verifyOf (V : Point) (h : Bytes) (z : Nat) : State :=
  flight .verify [0, 0, 0x200, 0xFF7C] (((Memory.write [] 0xFF7C (pointBytes V)).write 0x240 (W66 z)).write
    0x200 h)

theorem witness_VerifyAcceptsTheMatchingChallenge :
    (let s := verifyOf NEUTRAL [] 0
     paramsAccepted s.params = true ∧ Fits s (arg s 0) (arg s 1) ∧ Fits s (arg s 2) 130 ∧
       Fits s (arg s 3) 132 ∧ readPoint s (arg s 3) = NEUTRAL ∧ readW66 s (arg s 2 + 64) = 0 ∧
       memRead s (arg s 0) (arg s 1) = []) ∧
    Reduced NEUTRAL ∧ onCurve NEUTRAL = true ∧ pmul G 0 = .ok NEUTRAL ∧
    (∀ k, pmul NEUTRAL k = .ok NEUTRAL) ∧ padd NEUTRAL NEUTRAL = .ok NEUTRAL ∧
    memRead (verifyOf NEUTRAL (kmacxof256 (W66 0) [] 512 [0x54]) 0) 0x200 64 =
      kmacxof256 (W66 0) [] 512 [0x54] ∧
    memRead (verifyOf NEUTRAL ((kmacxof256 (W66 0) [] 512 [0x54]).map fun b => ~~~b) 0) 0x200 64 ≠
      kmacxof256 (W66 0) [] 512 [0x54] ∧
    (let s := verifyOf offCurve (natBe 64 2) 0
     readPoint s (arg s 3) = offCurve ∧ intBe (memRead s (arg s 2) 64) = 2) ∧
    Reduced offCurve ∧ pmul offCurve 2 = .error .noInverse ∧
    (let s := verifyOf { x := P, y := 0 } [] 0
     ¬ Reduced (readPoint s (arg s 3))) := by
  have hl : (kmacxof256 (W66 0) [] 512 [0x54]).length = 64 := by simp
  have hread (h : Bytes) (hh : h.length = 64) : memRead (verifyOf NEUTRAL h 0) 0x200 64 = h := by
    rw [← hh]
    exact Memory.readBytes_write_same _ _ _
  refine ⟨by decide +kernel, reduced_NEUTRAL, onCurve_NEUTRAL, rfl, pmul_neutral, padd_neutral,
    hread _ hl, ?_, by decide +kernel, reduced_offCurve, pmul_offCurve 2 (by omega), by decide +kernel⟩
  rw [hread _ (by simp)]
  exact complement_ne (List.ne_nil_of_length_pos (by simp))

theorem witness_SymEncWritesTheBlob :
    (let s := flightRnd .symEnc [0, 5, 0xFFF8, 8, 0xFF7B] []
     Fits s (arg s 0) (arg s 1) ∧ Fits s (arg s 2) (arg s 3) ∧ Fits s (arg s 4) (128 + arg s 1) ∧
       s.latch.rndValid = true) ∧
    (let s := flight .symEnc [0, 5, 0xFFF8, 8, 0xFF7B] []
     s.latch.rndValid = false) ∧
    (let s := flight .symEnc [0, 5, 0xFFF8, 8, 0xFF7C] []
     ¬ (Fits s (arg s 0) (arg s 1) ∧ Fits s (arg s 2) (arg s 3) ∧ Fits s (arg s 4) (128 + arg s 1))) := by
  decide

/-- The tag of the empty message under 64 zero bytes and the empty passphrase. -/
def symTag : Bytes :=
  kmacxof256 ((kmacxof256 (zeros 64) [] 1024 [0x53]).drop 64)
    (xorBytes (kmacxof256 ((kmacxof256 (zeros 64) [] 1024 [0x53]).take 64) [] 0 [0x53, 0x4B, 0x45]) [])
    512 [0x53, 0x4B, 0x41]

theorem length_symTag : symTag.length = 64 := by simp [symTag]

/-- SYM_DEC, with the empty passphrase, of the 128-byte blob at the end of BUF: 64 zero bytes, the tag. -/
def symDecryptOf (tag : Bytes) : State := flight .symDec [0xFF80, 128, 0, 0, 0] (Memory.write [] 0xFFC0 tag)

theorem memRead_symTag (tag : Bytes) (h : tag.length = 64) :
    memRead (symDecryptOf tag) 0xFFC0 64 = tag := by
  rw [← h]
  exact Memory.readBytes_write_same _ _ _

theorem memRead_symNonce (tag : Bytes) : memRead (symDecryptOf tag) 0xFF80 64 = zeros 64 := by
  have : memRead (symDecryptOf tag) 0xFF80 64 = Memory.readBytes [] 0xFF80 64 :=
    Memory.readBytes_write_disjoint _ _ _ _ _ (.inl (by decide))
  rw [this]
  decide

theorem args_symDecryptOf (tag : Bytes) : arg (symDecryptOf tag) 0 = 0xFF80 ∧
    arg (symDecryptOf tag) 1 = 128 ∧ arg (symDecryptOf tag) 2 = 0 ∧ arg (symDecryptOf tag) 3 = 0 ∧
    arg (symDecryptOf tag) 4 = 0 := by
  exact ⟨arg_flight _ _ _ _, arg_flight _ _ _ _, arg_flight _ _ _ _, arg_flight _ _ _ _,
    arg_flight _ _ _ _⟩

/-- What SYM_DEC answers on these states. -/
theorem effect_symDecryptOf (tag : Bytes) (h : tag.length = 64) :
    effectOf .symDec (symDecryptOf tag) =
      if symTag = tag then .ok { Effect.store 0 0 [] with eq := true } else .error .authFail := by
  obtain ⟨h0, h1, h2, h3, h4⟩ := args_symDecryptOf tag
  have hb : (symDecryptOf tag).params.bufSize = 2 ^ 16 := rfl
  have hz : (memRead (symDecryptOf tag) 0xFF80 128).take 64 = zeros 64 := by
    rw [take_memRead _ _ _ _ (by omega), memRead_symNonce]
  have ht : (memRead (symDecryptOf tag) 0xFF80 128).drop 64 = tag := by
    rw [drop_memRead _ _ _ _ (by omega), memRead_symTag _ h]
  have hr (a n : Nat) (hf : a + n ≤ 2 ^ 16) : checkRegion (symDecryptOf tag) a n = .ok () :=
    checkRegion_of_fits (by rw [Fits, hb]; exact hf)
  have hp : memRead (symDecryptOf tag) 0 0 = [] := rfl
  have hk : (kmacxof256 (zeros 64) [] 1024 strS).length = 128 := by simp
  have hkk : ((kmacxof256 (zeros 64) [] 1024 strS).drop 64).take 64 =
      (kmacxof256 (zeros 64) [] 1024 strS).drop 64 := List.take_of_length_le (by simp [hk])
  have hm : streamXor ((kmacxof256 (zeros 64) [] 1024 strS).take 64) [] strSKE = [] :=
    List.eq_nil_of_length_eq_zero (by simp)
  have hs : symTag = kmacxof256 ((kmacxof256 (zeros 64) [] 1024 strS).drop 64) [] 512 strSKA := by
    have hx (k : Bytes) : xorBytes k [] = [] := List.eq_nil_of_length_eq_zero (by simp [length_xorBytes])
    rw [symTag, hx, strS, strSKA]
  rw [hs]
  simp only [effectOf, effectSymDec, h0, h1, h2, h3, h4, hz, ht, hp, kdfSym, List.append_nil,
    Nat.sub_self, List.take_zero, Nat.add_zero, hr 0xFF80 128 (by decide), hr 0 0 (by decide), hkk, hm,
    except_ok_bind, le_refl, decide_true, require_true]
  split
  · rename_i h
    simp only [h, decide_true, require_true, except_ok_bind, pure, Except.pure]
  · rename_i h
    simp only [h, decide_false, require_false, except_error_bind]

theorem test_sym_dec_accepts : ∃ t, exec .symDec (symDecryptOf symTag) = .next t ∧ t.rc = .ok ∧
    t.eqFlag = true :=
  ⟨_, exec_of_ok ((effect_symDecryptOf _ length_symTag).trans (if_pos rfl)), rfl, rfl⟩

theorem test_sym_dec_rejects : ∃ t,
    exec .symDec (symDecryptOf (symTag.map fun b => ~~~b)) = .next t ∧ t.rc = .authFail := by
  have hne : symTag ≠ symTag.map fun b => ~~~b :=
    (complement_ne (List.ne_nil_of_length_pos (by simp [length_symTag]))).symm
  exact ⟨_, exec_of_error ((effect_symDecryptOf _ (by simp [length_symTag])).trans (if_neg hne)), rfl⟩

theorem witness_SymDecReleasesOnlyAuthenticPlaintext :
    (let s := flight .symDec [0, 127, 0, 0, 0] []
     arg s 1 < 128) ∧
    (∀ tag, 128 ≤ arg (symDecryptOf tag) 1 ∧
      Fits (symDecryptOf tag) (arg (symDecryptOf tag) 0) (arg (symDecryptOf tag) 1) ∧
      Fits (symDecryptOf tag) (arg (symDecryptOf tag) 2) (arg (symDecryptOf tag) 3) ∧
      Fits (symDecryptOf tag) (arg (symDecryptOf tag) 4) (arg (symDecryptOf tag) 1 - 128)) ∧
    memRead (symDecryptOf symTag) (arg (symDecryptOf symTag) 0 + arg (symDecryptOf symTag) 1 - 64) 64 =
      symTag ∧
    memRead (symDecryptOf symTag) (arg (symDecryptOf symTag) 0) 64 = zeros 64 ∧
    memRead (symDecryptOf (symTag.map fun b => ~~~b)) 0xFFC0 64 ≠ symTag := by
  refine ⟨by decide, fun tag => ?_, ?_, ?_, ?_⟩
  · obtain ⟨h0, h1, h2, h3, h4⟩ := args_symDecryptOf tag
    rw [h0, h1, h2, h3, h4]
    refine ⟨le_refl _, ?_, ?_, ?_⟩
    · show 0xFF80 + 128 ≤ 2 ^ 16
      decide
    · show 0 + 0 ≤ 2 ^ 16
      decide
    · show 0 + 0 ≤ 2 ^ 16
      decide
  · rw [(args_symDecryptOf _).1, (args_symDecryptOf _).2.1]
    exact memRead_symTag _ length_symTag
  · rw [(args_symDecryptOf _).1]
    exact memRead_symNonce _
  · rw [memRead_symTag _ (by simp [length_symTag])]
    exact complement_ne (List.ne_nil_of_length_pos (by simp [length_symTag]))

/-- SYM_ENC of the byte at 0 under the passphrase byte at 1. -/
def symEncrypting : State := flightRnd .symEnc [0, 1, 1, 1, 0x400] (Memory.write [] 0 [0x68, 0x70])

theorem symEncrypting_completes : ∃ e v, effectOf .symEnc symEncrypting = .ok e ∧
    e.write = some { addr := 0x400, data := v } ∧ v.length = 129 := by
  have h : ∃ e, effectOf .symEnc symEncrypting = .ok e := by
    have h0 : checkRegion symEncrypting (arg symEncrypting 0) (arg symEncrypting 1) = .ok () := by decide
    have h2 : checkRegion symEncrypting (arg symEncrypting 2) (arg symEncrypting 3) = .ok () := by decide
    have h4 : checkRegion symEncrypting (arg symEncrypting 4) (128 + arg symEncrypting 1) = .ok () := by
      decide
    have hv : require symEncrypting.latch.rndValid .noRnd = .ok () := by decide
    simp only [effectOf, effectSymEnc, h0, h2, h4, hv, except_ok_bind]
    exact ⟨_, rfl⟩
  obtain ⟨e, he⟩ := h
  obtain ⟨v, hv, _, _⟩ := (effect_ok he).region 4 rfl
  refine ⟨e, v, he, hv, ?_⟩
  have hn := he
  simp only [effectOf, effectSymEnc, except_bind_eq_ok, pure, Except.pure, Except.ok.injEq] at hn
  obtain ⟨_, _, _, _, _, _, _, _, rfl⟩ := hn
  have h1 : arg symEncrypting 1 = 1 := by decide
  refine (congrArg (fun w : StagedWrite => w.data.length) (Option.some.inj hv)).symm.trans ?_
  simp [h1]

theorem witness_SymmetricRoundTripReturnsTheMessage : ∃ t : State,
    exec .symEnc symEncrypting = .next t ∧ t.rc = .ok ∧
    let d : State := { t with latch := { t.latch with args := #v[0x400, 129, 1, 1, 0x800, 0, 0, 0] } }
    arg d 0 = arg symEncrypting 4 ∧ arg d 1 = 128 + arg symEncrypting 1 ∧ arg d 2 = 1 ∧
      arg d 3 = arg symEncrypting 3 ∧ arg d 4 = 0x800 ∧
      memRead d (arg d 0) (arg d 1) = memRead t (arg symEncrypting 4) (128 + arg symEncrypting 1) ∧
      memRead d 1 (arg symEncrypting 3) = memRead symEncrypting (arg symEncrypting 2) (arg symEncrypting 3) ∧
      Fits d (arg d 0) (arg d 1) ∧ Fits d 1 (arg symEncrypting 3) ∧ Fits d 0x800 (arg symEncrypting 1) := by
  obtain ⟨e, v, he, hw, hv⟩ := symEncrypting_completes
  refine ⟨_, exec_of_ok he, rfl, rfl, rfl, rfl, rfl, rfl, rfl, ?_, ?_, ?_, ?_⟩
  · show ((symEncrypting.buf.apply e.write).readBytes 1 1) = symEncrypting.buf.readBytes 1 1
    rw [hw]
    exact Memory.readBytes_write_disjoint _ _ _ _ _ (.inl (show 1 + 1 ≤ 0x400 by decide))
  · show 0x400 + 129 ≤ 2 ^ 16
    decide
  · show 1 + 1 ≤ 2 ^ 16
    decide
  · show 0x800 + 1 ≤ 2 ^ 16
    decide

theorem witness_OnlyEncryptionConsumesRandomness :
    (∃ t, exec .symEnc symEncrypting = .next t ∧ t.rc = .ok) ∧
    (∃ t, exec .symEnc State.reset = .next t ∧ t.rc ≠ .ok) ∧
    (∃ t, exec .nop State.reset = .next t) ∧
    ∃ t, exec .nop { State.reset with
      latch := { State.reset.latch with rndbuf := Vector.replicate 64 7, rndValid := true } } = .next t := by
  obtain ⟨e, _, he, _⟩ := symEncrypting_completes
  exact ⟨⟨_, exec_of_ok he, rfl⟩, ⟨_, rfl, by decide⟩, ⟨_, rfl⟩, _, rfl⟩

theorem witness_EqMeansAcceptedOrEqual :
    (∃ t, exec .symDec (symDecryptOf symTag) = .next t ∧ t.eqFlag = true ∧ t.rc = .ok) ∧
    ∃ t, exec .finv State.reset = .next t ∧ t.rc ≠ .ok := by
  obtain ⟨t, h1, h2, h3⟩ := test_sym_dec_accepts
  exact ⟨⟨t, h1, h3, h2⟩, _, rfl, by decide +kernel⟩

/-- A command that raises each code an Exec can raise. -/
theorem witness_EachCodeComesFromItsCommands :
    paramsAccepted State.reset.params = true ∧
    (∃ t, exec .symDec (symDecryptOf (symTag.map fun b => ~~~b)) = .next t ∧ t.rc = .authFail) ∧
    (∃ t, exec .fsqrt (flight .fsqrt [0, 1, 0] []) = .next t ∧ t.rc = .noSuchPoint) ∧
    (∃ t, exec .bytepad State.reset = .next t ∧ t.rc = .badArg) ∧
    (∃ t, exec .kmac256 (flight .kmac256 [0, 0, 0, 0, 0, 0, 0, 12] []) = .next t ∧ t.rc = .badLength) ∧
    (∃ t, exec .keccakf (flight .keccakf [0xFF39, 0] []) = .next t ∧ t.rc = .bounds) ∧
    (∃ t, exec .pkEnc State.reset = .next t ∧ t.rc = .noRnd) ∧
    (∃ t, exec .peq (flight .peq [0, 0x200] (points { x := P, y := 0 } NEUTRAL)) = .next t ∧
      t.rc = .range) ∧
    (∃ t, exec .encRight (flight .encRight [0, 0x100, 0] (Memory.write [] 0 [1])) = .next t ∧
      t.rc = .malformedInt) ∧
    ∃ t, exec .finv State.reset = .next t ∧ t.rc = .noInverse :=
  ⟨accepted_reset, test_sym_dec_rejects, ⟨_, rfl, by decide +kernel⟩, ⟨_, rfl, by decide +kernel⟩,
    ⟨_, rfl, by decide +kernel⟩, ⟨_, rfl, by decide +kernel⟩, ⟨_, rfl, by decide +kernel⟩,
    ⟨_, rfl, by decide +kernel⟩, ⟨_, rfl, by decide +kernel⟩, _, rfl, by decide +kernel⟩

end Sys2Proof.Tests
end

