-- ==== Sys2Proof/Proofs/Params.lean ====
section
/-! The parameters of an instance: no step changes them, and the instances that the model refuses are those
of 00_scope.md R11 and R12, the curve equation read over the integers. -/

namespace Sys2Proof.Machine

/-- A completion leaves the parameters, whatever the outcome of the command. -/
@[simp] theorem State.complete_params (s : State) (r : Result) : (s.complete r).params = s.params := by
  cases r with
  | ok e => rfl
  | error c => rfl

/-- No step changes the parameters (00_scope.md R11, 70_reset_and_hazards.md R371). -/
theorem step_params {s t : State} (h : step s = .next t) : t.params = s.params := by
  obtain ⟨-, u, hu, hcase⟩ := step_cases h
  have hparams : u.params = s.params := by
    obtain rfl | ⟨e, -, hs⟩ := hu
    · rfl
    · rw [hs]
  rw [← hparams]
  obtain ⟨-, rfl⟩ | ⟨-, rfl⟩ | ⟨cs, -, rfl⟩ | ⟨a, -, -, rfl⟩ := hcase
  · exact State.complete_params u _
  · rfl
  · exact State.powerOn_params u cs
  · exact (access_host u a).1

/-- The check of the curve equation is the congruence of R260 with D_CURVE = -376014, over the integers. -/
theorem onCurve_iff_int_emod (p : Point) : onCurve p = true ↔
    ((p.x : Int) ^ 2 + (p.y : Int) ^ 2 - (1 - 376014 * (p.x : Int) ^ 2 * (p.y : Int) ^ 2)) % P = 0 := by
  obtain ⟨m, hm⟩ : ∃ m, m = P := ⟨P, rfl⟩
  rw [onCurve_iff hm, cast_D_CURVE hm, ← hm, ← Int.dvd_iff_emod_eq_zero,
    ← ZMod.intCast_zmod_eq_zero_iff_dvd]
  push_cast
  constructor <;> intro h <;> linear_combination h

/-- A point is the neutral element when its coordinates are 0 and 1. -/
theorem eq_NEUTRAL_iff (p : Point) : p = NEUTRAL ↔ p.x = 0 ∧ p.y = 1 := by
  cases p
  simp [NEUTRAL]

/-- The instances the model does not accept, by the condition of R11 or R12 that each fails. -/
theorem paramsAccepted_eq_false_iff (p : Params) : paramsAccepted p = false ↔
    p.bufAw < 10 ∨ 30 < p.bufAw ∨ P ≤ p.basePoint.x ∨ P ≤ p.basePoint.y ∨
      ¬ onCurve p.basePoint = true ∨ p.basePoint = NEUTRAL ∨
      pmul p.basePoint R_ORDER ≠ .ok NEUTRAL := by
  rw [← Bool.not_eq_true, paramsAccepted_iff, Reduced]
  simp only [not_and_or, not_le, not_lt, not_not, Ne, or_assoc]

/-- Settles O21: every kind of step keeps the parameters, and a step is refused exactly for the parameters
that are not accepted, whose conditions are read here over the integers. -/
theorem parametersNeverChange : Obligations.ParametersNeverChange := by
  unfold Obligations.ParametersNeverChange
  refine fun s => ⟨fun t ht => step_params ht, ?_⟩
  rintro x y rfl rfl
  rw [step_refused_iff, paramsAccepted_eq_false_iff, onCurve_iff_int_emod, eq_NEUTRAL_iff]
  simp only [Nat.cast_le, Nat.cast_eq_zero, Nat.cast_eq_one, Ne, NEUTRAL]

end Sys2Proof.Machine
end

/-! The registers the host reads and writes, and the rules of the whole state: reset, the randomness, the
invariant and the flags (10_state.md). -/

namespace Sys2Proof.Machine

/-! ### The REG space, from the register back to the offset -/

/-- The one offset of CMD (10_state.md R33). -/
theorem regAt_eq_cmd {off width : Nat} (h : regAt off width = some .cmd) :
    off = 0x010 ∧ width = 32 := by
  unfold regAt at h
  split at h
  case isFalse => cases h
  case isTrue hw =>
    simp only [regSlot, Option.some.injEq] at h
    split_ifs at h
    omega

/-- The one offset of RNDj (10_state.md R33). -/
theorem regAt_eq_rnd {off width : Nat} {j : Fin 16} (h : regAt off width = some (.rnd j)) :
    off = 0x040 + 4 * j.val ∧ width = 32 := by
  unfold regAt at h
  split at h
  case isFalse => cases h
  case isTrue hw =>
    simp only [regSlot, Option.some.injEq] at h
    split_ifs at h
    injection h with h
    subst h
    simp only
    omega

/-- The reserved offsets of the map (10_state.md R44). -/
theorem regAt_reserved {off : Nat} (h4 : off % 4 = 0)
    (h : off = 0x018 ∨ off = 0x01C ∨ 0x080 ≤ off ∧ off < 0x100) :
    regAt off 32 = some .reserved := by
  rw [regAt, if_pos (by omega), regSlot]
  repeat rw [if_neg (by omega)]
  rw [dif_neg (by omega), dif_neg (by omega)]

/-! ### The step of one register access -/

/-- A read of a register gives its word and changes nothing (20_memory.md R81, R90). -/
theorem step_regRead {s : State} {rest : List Event} {off : Nat} {r : Reg}
    (h : NextEvent s (.host (.regRead off 32)) rest) (hr : regAt off 32 = some r) :
    step s = .next { s with reply := .word (s.regRead r), schedule := rest } := by
  rw [step_host h]
  simp only [State.access, hr]
  cases r <;> rfl

/-- A write of a register is the register's write, and returns nothing (20_memory.md R81). -/
theorem step_regWrite {s : State} {rest : List Event} {off : Nat} {r : Reg} {v : Word}
    (h : NextEvent s (.host (.regWrite off 32 v)) rest) (hr : regAt off 32 = some r) :
    step s = .next
      { ({ s with schedule := rest } : State).regWrite r v with reply := .none } := by
  rw [step_host h]
  simp only [State.access, hr]

/-! ### The words of the registers as numbers -/

/-- The value of a concatenation. -/
theorem toNat_append_eq_add {m n : Nat} (x : BitVec m) (y : BitVec n) :
    (x ++ y).toNat = x.toNat * 2 ^ n + y.toNat := by
  rw [BitVec.toNat_append, ← Nat.shiftLeft_add_eq_or_of_lt y.isLt, Nat.shiftLeft_eq]

/-- A bit of a word, as the spec's rules read it. -/
theorem getLsbD_eq_decide (v : Word) (i : Nat) :
    v.getLsbD i = decide (v.toNat / 2 ^ i % 2 = 1) := by
  rw [← BitVec.testBit_toNat, Nat.testBit_eq_decide_div_mod_eq]

theorem toNat_ctrlWord (s : State) : s.ctrlWord.toNat = s.irqEn.toNat := by
  rw [State.ctrlWord]
  refine (toNat_append_eq_add 0#31 (BitVec.ofBool s.irqEn)).trans ?_
  simp

/-- CONFIG holds BUF_AW, the rate and the field width (10_state.md R35). -/
theorem toNat_configWord {s : State} (h : s.params.wfBufAw = true) :
    s.configWord.toNat = s.params.bufAw + 136 * 2 ^ 8 + 66 * 2 ^ 16 := by
  simp only [Params.wfBufAw, Bool.and_eq_true, decide_eq_true_eq] at h
  rw [State.configWord, BitVec.toNat_ofNat, RATE, W_BYTES]
  omega

/-- The fields of STATUS (10_state.md R38). -/
theorem toNat_statusWord (s : State) : s.statusWord.toNat =
    s.rc.code.toNat * 2 ^ 8 + s.eqFlag.toNat * 2 ^ 5 + s.rndValid.toNat * 2 ^ 4 +
      s.werrFlag.toNat * 2 ^ 3 + (if 0x10 ≤ s.rc.code.toNat then 1 else 0) * 2 ^ 2 +
      s.doneFlag.toNat * 2 ^ 1 + (if s.phase = .busy then 1 else 0) := by
  rw [State.statusWord]
  refine (toNat_append_eq_add _ (BitVec.ofBool s.busyBit)).trans ?_
  simp only [toNat_append_eq_add, BitVec.toNat_ofBool, State.errBit, State.busyBit, Bool.toNat,
    Bool.cond_decide, BitVec.toNat_zero]
  ring

/-- Settles O7: each offset reaches its register, whose word has the stated value. -/
theorem regReadReturnsTheRegister : Obligations.RegReadReturnsTheRegister := by
  unfold Obligations.RegReadReturnsTheRegister
  intro s rest off v h hv
  have hread {r : Reg} (hr : regAt off 32 = some r) (heq : v = s.regRead r) :
      step s = .next { s with reply := .word v, schedule := rest } := by
    rw [heq, step_regRead h hr]
  have hnat {w : Word} (hw : v.toNat = w.toNat) : v = w := BitVec.eq_of_toNat_eq hw
  have haw := wfBufAw_of_accepted h.accepted
  obtain ⟨rfl, hv⟩ | ⟨rfl, hv⟩ | ⟨rfl, hv⟩ | ⟨rfl, hv⟩ | ⟨rfl, hv⟩ | ⟨rfl, hv⟩ |
    ⟨i, rfl, hv⟩ | ⟨j, rfl, hv⟩ | ⟨h4, hoff, hv⟩ := hv
  · exact hread regAt_id (hnat hv)
  · exact hread regAt_config (hnat (hv.trans (toNat_configWord haw).symm))
  · exact hread regAt_ctrl (hnat (hv.trans (toNat_ctrlWord s).symm))
  · exact hread regAt_status (hnat (hv.trans (toNat_statusWord s).symm))
  · exact hread regAt_cmd hv
  · exact hread regAt_outlen hv
  · exact hread (regAt_arg i) hv
  · exact hread (regAt_rnd j) hv
  · exact hread (regAt_reserved h4 hoff) hv

/-- Settles O8: bits 1 and 3 of the written word clear DONE and WERR. -/
theorem statusWriteClearsDoneAndWerr : Obligations.StatusWriteClearsDoneAndWerr := by
  unfold Obligations.StatusWriteClearsDoneAndWerr
  intro s v rest h
  have hclear (f : Bool) (i : Nat) :
      (f && !v.getLsbD i) = if v.toNat / 2 ^ i % 2 = 1 then false else f := by
    rw [getLsbD_eq_decide]
    split <;> simp [*]
  rw [step_regWrite h regAt_status, State.regWrite, State.writeStatus, hclear, hclear]

/-- Settles O9: with bit 1 clear, a CTRL write is a write of IRQ_EN. -/
theorem ctrlWriteSetsInterruptEnable : Obligations.CtrlWriteSetsInterruptEnable := by
  unfold Obligations.CtrlWriteSetsInterruptEnable
  intro s v rest h hsrst
  have hbit1 : ¬ v.getLsbD 1 = true := by rw [getLsbD_eq_decide, hsrst]; decide
  have hbit0 : v.getLsbD 0 = decide (v.toNat % 2 = 1) := by
    rw [getLsbD_eq_decide, pow_zero, Nat.div_one]
  rw [step_regWrite h regAt_ctrl, State.regWrite, State.writeCtrl, if_neg hbit1, hbit0]

/-- Settles O11: the write sets one entry of the ARG registers. -/
theorem argWriteSetsOneRegister : Obligations.ArgWriteSetsOneRegister := by
  unfold Obligations.ArgWriteSetsOneRegister
  intro s i v rest h hp
  refine ⟨s.args.set i v, ?_, by simp, fun k hk => ?_⟩
  · rw [step_regWrite h (regAt_arg i)]
    simp only [State.regWrite, hp]
  · exact Vector.getElem_set_ne i.isLt k.isLt (Fin.val_ne_of_ne hk.symm)

/-- The bytes of RNDBUF after a write of RNDj (10_state.md R45). -/
theorem getElem_rndWrite (r : Vector Byte 64) (j : Fin 16) (v : Word) {k : Nat} (hk : k < 64) :
    (rndWrite r j v)[k] = if k / 4 = j.val then v.extractLsb' (8 * (k % 4)) 8 else r[k] := by
  simp [rndWrite]

/-- Settles O10: the four bytes of RNDj are the fields of the written word. -/
theorem rndWriteFillsFourBytes : Obligations.RndWriteFillsFourBytes := by
  unfold Obligations.RndWriteFillsFourBytes
  refine fun s j v rest => ⟨fun h hp => ⟨rndWrite s.rndbuf j v, ?_, fun b hb => ?_, fun k hk => ?_⟩,
    fun h => step_regRead h (regAt_rnd j)⟩
  · rw [step_regWrite h (regAt_rnd j)]
    simp only [State.regWrite, hp]
  · have hslot : (4 * j.val + b) / 4 = j.val ∧ (4 * j.val + b) % 4 = b := by omega
    rw [getElem_rndWrite, if_pos hslot.1, hslot.2, BitVec.extractLsb'_toNat,
      Nat.shiftRight_eq_div_pow]
  · exact (getElem_rndWrite s.rndbuf j v k.isLt).trans (if_neg hk)

/-! ### Reset -/

/-- A state whose registers are those after a reset has the values of the table (10_state.md R54). -/
theorem hasResetValues_of_resetRegisters {t : State} (haw : t.params.wfBufAw = true)
    (h : t.resetRegisters = t) : HasResetValues t := by
  rw [← h]
  exact
    { id := rfl
      config := toNat_configWord haw
      irqEn := rfl
      doneFlag := rfl
      werrFlag := rfl
      eqFlag := rfl
      rc := rfl
      cmd := rfl
      outlen := rfl
      args := fun i => Vector.getElem_replicate i.isLt
      rndbuf := fun k => Vector.getElem_replicate k.isLt
      rndValid := rfl
      phase := rfl
      irq := rfl }

/-- Power-on contents that list every address of a stretch hold the listed bytes there. -/
theorem read_ofCells_range' (N : Nat) (f : Nat → Byte) (b : Nat) {a n : Nat} (h : a + n ≤ N)
    (m : Memory) :
    (Memory.ofCells N ((List.range' a n).map fun x => (x, f x)) m).read b =
      if a ≤ b ∧ b < a + n then f b else m.read b := by
  induction n generalizing a m with
  | zero => rw [if_neg (by omega)]; rfl
  | succ n ih =>
    rw [List.range'_succ, List.map_cons, Memory.ofCells, if_pos (by omega), ih (by omega),
      Memory.read_write, List.length_singleton]
    by_cases hb : b = a
    · subst hb
      rw [if_neg (by omega), if_pos (by omega), if_pos (by omega), Nat.sub_self]
      rfl
    · rw [if_neg (by omega : ¬ (a ≤ b ∧ b < a + 1))]
      exact if_congr (by omega) rfl rfl

/-- The step of a power-on event (70_reset_and_hazards.md R370). -/
theorem step_powerOn {s : State} {cs : List Host.Cell} {rest : List Event}
    (hacc : paramsAccepted s.params = true) (h : s.schedule = .powerOn cs :: rest) :
    step s = .next (({ s with schedule := rest } : State).powerOn cs) := by
  simp only [step, hacc, if_true, turn, h]

/-- Settles O17: every reset leaves the registers of the table, and a power-on can list any bytes. -/
theorem resetGivesTheTableValues : Obligations.ResetGivesTheTableValues := by
  unfold Obligations.ResetGivesTheTableValues
  refine ⟨hasResetValues_of_resetRegisters (by decide) rfl, fun s hacc => ?_⟩
  have haw := wfBufAw_of_accepted hacc
  refine ⟨fun cs rest h => ?_, fun f rest => ?_, fun v rest h hsrst hp => ?_⟩
  · exact ⟨_, step_powerOn hacc h, hasResetValues_of_resetRegisters haw rfl, rfl⟩
  · refine ⟨(List.range' 0 s.params.bufSize).map fun x => (x, f x), _, step_powerOn hacc rfl,
      fun a ha => ?_⟩
    rw [State.powerOn_buf, read_ofCells_range' _ _ _ (Nat.zero_add _).le,
      if_pos ⟨a.zero_le, by rwa [Nat.zero_add]⟩]
  · have hbit1 : v.getLsbD 1 = true := by rw [getLsbD_eq_decide, hsrst]; rfl
    refine ⟨_, step_regWrite h regAt_ctrl, ?_⟩
    simp only [State.regWrite, State.writeCtrl, if_pos hbit1, hp]
    exact ⟨hasResetValues_of_resetRegisters haw rfl, rfl, rfl⟩

/-! ### Completions -/

/-- PK_ENC and SYM_ENC are the only commands whose Exec looks at the latched randomness (10_state.md R47). -/
theorem effectOf_latch_rnd {i : Instr} (hpk : i ≠ .pkEnc) (hsym : i ≠ .symEnc) (s : State)
    (r : Vector Byte 64) (b : Bool) :
    effectOf i { s with latch := { s.latch with rndbuf := r, rndValid := b } } = effectOf i s := by
  cases i
  case pkEnc => exact absurd rfl hpk
  case symEnc => exact absurd rfl hsym
  all_goals rfl

/-- Settles O27: by the two ways a command ends, and since only the two encryptions read the latched
randomness. -/
theorem onlyEncryptionConsumesRandomness : Obligations.OnlyEncryptionConsumesRandomness := by
  unfold Obligations.OnlyEncryptionConsumesRandomness
  intro i s t h
  refine ⟨fun hi hrc => ?_, fun hrc => ?_, fun hpk hsym => ?_⟩
  · obtain ⟨e, he, rfl⟩ | ⟨c, hc, rfl⟩ := exec_cases h
    · simp [(effect_ok he).consume, hi, zeroRndbuf]
    · exact absurd (hc.trans (congrArg _ hrc)) (effect_error_ne_ok i s)
  · obtain ⟨e, he, rfl⟩ | ⟨c, hc, rfl⟩ := exec_cases h
    · exact absurd rfl hrc
    · exact ⟨rfl, rfl⟩
  · have hkeep : t.rndbuf = s.rndbuf ∧ t.rndValid = s.rndValid := by
      obtain ⟨e, he, rfl⟩ | ⟨c, hc, rfl⟩ := exec_cases h
      · simp [(effect_ok he).consume, hpk, hsym]
      · exact ⟨rfl, rfl⟩
    refine ⟨hkeep.1, hkeep.2, fun r b t' h' => ?_⟩
    rw [exec_eq] at h h'
    rw [effectOf_latch_rnd hpk hsym] at h'
    cases h
    cases h'
    cases effectOf i s <;> exact ⟨rfl, rfl, rfl, rfl⟩

/-- Settles O28: by what an OK outcome sets EQ to, for every command. -/
theorem eqMeansAcceptedOrEqual : Obligations.EqMeansAcceptedOrEqual := by
  unfold Obligations.EqMeansAcceptedOrEqual
  intro i s t h
  obtain ⟨e, he, rfl⟩ | ⟨c, hc, rfl⟩ := exec_cases h
  · have heq := (effect_ok he).eq
    refine ⟨fun h1 => ⟨rfl, ?_⟩, fun hi _ => ?_, fun hrc => absurd rfl hrc⟩
    · by_cases hpeq : i = .peq
      · exact .inl hpeq
      · exact .inr (by simpa using (heq hpeq).symm.trans h1)
    · have hpeq : i ≠ .peq := by rintro rfl; simp at hi
      simp [heq hpeq, hi]
  · refine ⟨fun h1 => ?_, fun _ hrc => ?_, fun _ => ⟨rfl, rfl⟩⟩
    · cases h1
    · exact absurd (hc.trans (congrArg _ hrc)) (effect_error_ne_ok i s)

/-! ### What a host access can do -/

/-- What an access of the host leaves of the engine, u, from s: the host's side (the reply, a recorded bus
error) and the draw of a BUF read are left out (20_memory.md R81 to R90). -/
inductive AccessLeaves (s : State) : Access → State → Prop
  /-- A read, a failed access or a write that its register ignores. -/
  | same {a : Access} : AccessLeaves s a s
  /-- A write that BUSY drops. -/
  | drop {a : Access} (hp : s.phase = .busy) : AccessLeaves s a s.dropWrite
  | issue (v : Word) (hp : s.phase = .idle) : AccessLeaves s (.regWrite 0x010 32 v) (s.issue v)
  | arg {a : Access} (i : Fin 8) (v : Word) (hp : s.phase = .idle) :
      AccessLeaves s a { s with args := s.args.set i v }
  | rnd (j : Fin 16) (v : Word) (hp : s.phase = .idle) :
      AccessLeaves s (.regWrite (0x040 + 4 * j.val) 32 v)
        { s with rndbuf := rndWrite s.rndbuf j v, rndValid := true }
  | status {a : Access} (v : Word) : AccessLeaves s a (s.writeStatus v)
  | irqEn {a : Access} (b : Bool) : AccessLeaves s a { s with irqEn := b }
  /-- A soft reset, or an abort, which also loses the region the command in flight would have written. -/
  | reset {a : Access} (m : Memory) (d : Nat)
      (hm : m = s.buf ∨ ∃ e w lost, inFlightResult s = .ok e ∧ e.write = some w ∧
        lost.length = w.data.length ∧ m = s.buf.write w.addr lost) :
      AccessLeaves s a { s.resetRegisters with buf := m, draws := d }
  | buf (x : Nat) (b : Byte) (hp : s.phase = .idle) (hx : x < s.params.bufSize) :
      AccessLeaves s (.bufWrite x b) { s with buf := s.buf.write x [b] }

/-- A CTRL write sets IRQ_EN, or with SRST resets the registers, which in BUSY can lose the destination
region (10_state.md R37). -/
theorem accessLeaves_writeCtrl (s : State) (a : Access) (v : Word) :
    AccessLeaves s a (s.writeCtrl v) := by
  unfold State.writeCtrl
  split
  case isFalse => exact .irqEn _
  split
  · exact .reset s.buf s.draws (.inl rfl)
  · unfold State.abort
    split
    · exact .reset s.buf s.draws (.inl rfl)
    · split
      · exact .reset s.buf s.draws (.inl rfl)
      · exact .reset _ _ (.inr ⟨_, _, _, by assumption, by assumption, length_abortedBytes _ _, rfl⟩)

theorem accessLeaves_regWrite (s : State) {off width : Nat} {r : Reg} (v : Word)
    (h : regAt off width = some r) : AccessLeaves s (.regWrite off width v) (s.regWrite r v) := by
  cases r <;> simp only [State.regWrite]
  case id | config | outlen | reserved => exact .same
  case ctrl => exact accessLeaves_writeCtrl s _ v
  case status => exact .status v
  case cmd =>
    obtain ⟨rfl, rfl⟩ := regAt_eq_cmd h
    split
    · exact .issue v (by assumption)
    · exact .drop (by assumption)
  case arg i =>
    split
    · exact .arg i v (by assumption)
    · exact .drop (by assumption)
  case rnd j =>
    obtain ⟨rfl, rfl⟩ := regAt_eq_rnd h
    split
    · exact .rnd j v (by assumption)
    · exact .drop (by assumption)

/-- Everything that an access can do, said once. -/
theorem access_cases (s : State) (a : Access) : ∃ u e r d, AccessLeaves s a u ∧
    s.access a = { u with hostError := e, reply := r, draws := d } := by
  cases a <;> simp only [State.access]
  case regRead => split <;> exact ⟨s, _, _, _, .same, rfl⟩
  case regWrite =>
    split
    next hr => exact ⟨_, _, _, _, accessLeaves_regWrite s _ hr, rfl⟩
    next => exact ⟨s, _, _, _, .same, rfl⟩
  case bufRead =>
    split
    · unfold State.bufRead
      split <;> exact ⟨s, _, _, _, .same, rfl⟩
    · exact ⟨s, _, _, _, .same, rfl⟩
  case bufWrite =>
    split
    case isFalse => exact ⟨s, _, _, _, .same, rfl⟩
    case isTrue hx =>
      unfold State.bufWrite
      split
      · exact ⟨_, _, _, _, .buf _ _ (by assumption) hx, rfl⟩
      · exact ⟨_, _, _, _, .drop (by assumption), rfl⟩

/-- Every step to a next state is one of these turns, taken after the events left are put into s. -/
theorem step_next_cases {s t : State} (h : step s = .next t) :
    ∃ u : State, (∃ rest, u = { s with schedule := rest }) ∧
      ((s.phase = .busy ∧ t = u.complete (inFlightResult u)) ∨ t = u ∨ (∃ cs, t = u.powerOn cs) ∨
        ∃ a, s.schedule = .host a :: u.schedule ∧ t = u.access a) := by
  obtain ⟨-, u, hu, hcase⟩ := step_cases h
  refine ⟨u, ?_, ?_⟩
  · obtain rfl | ⟨-, -, hs⟩ := hu
    · exact ⟨u.schedule, rfl⟩
    · exact ⟨u.schedule, hs⟩
  · obtain hc | ⟨-, hc⟩ | ⟨cs, -, hc⟩ | ⟨a, hs, -, hc⟩ := hcase
    · exact .inl hc
    · exact .inr (.inl hc)
    · exact .inr (.inr (.inl ⟨cs, hc⟩))
    · exact .inr (.inr (.inr ⟨a, hs, hc⟩))

/-! ### The invariant -/

/-- The invariant says nothing of the host's side, the events to come and the draws. -/
theorem State.Inv.host {s : State} (h : s.Inv) (e : Option HostBusError) (sch : List Event) (r : Reply)
    (d : Nat) : ({ s with hostError := e, schedule := sch, reply := r, draws := d } : State).Inv :=
  ⟨h.accepted, h.canonical, h.bounded, h.outlenBounded, h.failed, h.spent, h.inFlight⟩

/-- A state whose registers are those after a reset meets the invariant where its parameters and BUF do. -/
theorem inv_of_resetRegisters {t : State} (hacc : paramsAccepted t.params = true) (hwf : t.buf.wf)
    (hbd : ∀ c ∈ t.buf, c.1 < t.params.bufSize) (h : t.resetRegisters = t) : t.Inv where
  accepted := hacc
  canonical := hwf
  bounded := hbd
  outlenBounded := by rw [← h]; exact Nat.zero_le _
  failed hrc := absurd (by rw [← h]; rfl) hrc
  spent _ := by rw [← h]; rfl
  inFlight hp := by rw [← h] at hp; cases hp

/-- Settles O19: the reset state is one of those after a reset, with an empty BUF. -/
theorem invariantHoldsAtReset : Obligations.InvariantHoldsAtReset := by
  unfold Obligations.InvariantHoldsAtReset
  have hacc : paramsAccepted State.reset.params = true := by
    simp [paramsAccepted, Params.wfBufAw, State.reset, Params.default]
  exact inv_of_resetRegisters hacc Memory.wf_nil (fun c hc => absurd hc List.not_mem_nil) rfl

/-- An OK outcome writes inside BUF, as many bytes as it puts into OUTLEN, or it writes nothing and OUTLEN
is 0. -/
theorem OkEffect.write_cases {i : Instr} {s : State} {e : Effect} (h : OkEffect i s e) :
    (e.write = none ∧ e.outlen = 0) ∨ ∃ w, e.write = some w ∧ e.outlen = w.data.length ∧
      w.addr + w.data.length ≤ s.params.bufSize := by
  cases hd : dstArg i with
  | none => exact .inl (h.nothing hd)
  | some k =>
    obtain ⟨v, hw, ho, hf⟩ := h.region k hd
    exact .inr ⟨_, hw, ho, hf⟩

/-- A completion with OK keeps the invariant. -/
theorem State.Inv.commit {s : State} (h : s.Inv) {i : Instr} {e : Effect} (he : OkEffect i s e) :
    (s.commit e).Inv where
  accepted := h.accepted
  canonical := by
    rw [State.commit_buf]
    cases e.write with
    | none => exact h.canonical
    | some w => exact Memory.wf_write h.canonical _ _
  bounded := by
    rw [State.commit_buf, State.commit_params]
    obtain ⟨hw, -⟩ | ⟨w, hw, -, hfit⟩ := he.write_cases
    · rw [hw]
      exact h.bounded
    · rw [hw]
      exact Memory.bounded_write h.bounded hfit
  outlenBounded := by
    rw [State.commit_outlen, State.commit_params, BitVec.toNat_ofNat]
    refine (Nat.mod_le _ _).trans ?_
    obtain ⟨-, ho⟩ | ⟨w, -, ho, hfit⟩ := he.write_cases <;> omega
  failed hrc := absurd rfl hrc
  spent := by
    rw [State.commit_rndValid, State.commit_rndbuf]
    cases e.consume with
    | true => exact fun _ => rfl
    | false => exact h.spent
  inFlight hp := by cases hp

/-- A failing completion keeps the invariant. -/
theorem State.Inv.failWith {s : State} (h : s.Inv) (c : ResultCode) : (s.failWith c).Inv where
  accepted := h.accepted
  canonical := h.canonical
  bounded := h.bounded
  outlenBounded := Nat.zero_le _
  failed _ := ⟨rfl, rfl⟩
  spent := h.spent
  inFlight hp := by cases hp

/-- The completion of the command in flight keeps the invariant. -/
theorem State.Inv.complete {s : State} (h : s.Inv) : (s.complete (inFlightResult s)).Inv := by
  cases hr : inFlightResult s with
  | error c => exact h.failWith c
  | ok e =>
    obtain ⟨i, -, he⟩ := inFlightResult_eq_ok hr
    exact h.commit (effect_ok he)

/-- An access keeps the invariant: in BUSY it leaves CMD, the ARG registers, RNDBUF and RND_VALID as they were
latched (10_state.md R43), and an abort loses bytes inside BUF alone. -/
theorem State.Inv.accessLeaves {s u : State} {a : Access} (h : s.Inv) (hu : AccessLeaves s a u) :
    u.Inv := by
  cases hu with
  | same => exact h
  | drop hp =>
    exact ⟨h.accepted, h.canonical, h.bounded, h.outlenBounded, h.failed, h.spent, h.inFlight⟩
  | issue v hp =>
    exact ⟨h.accepted, h.canonical, h.bounded, Nat.zero_le _, fun hrc => absurd rfl hrc, h.spent,
      fun _ => ⟨rfl, rfl, rfl, rfl, rfl⟩⟩
  | arg i v hp =>
    exact ⟨h.accepted, h.canonical, h.bounded, h.outlenBounded, h.failed, h.spent,
      fun hb => absurd (hp.symm.trans hb) (by decide)⟩
  | rnd j v hp =>
    exact ⟨h.accepted, h.canonical, h.bounded, h.outlenBounded, h.failed, nofun,
      fun hb => absurd (hp.symm.trans hb) (by decide)⟩
  | status v =>
    refine ⟨h.accepted, h.canonical, h.bounded, h.outlenBounded, h.failed, h.spent, fun hb => ?_⟩
    obtain ⟨hlatch, hdone, hres⟩ := h.inFlight hb
    exact ⟨hlatch, by simp [hdone], hres⟩
  | irqEn b =>
    exact ⟨h.accepted, h.canonical, h.bounded, h.outlenBounded, h.failed, h.spent, h.inFlight⟩
  | reset m d hm =>
    have hbuf : m.wf ∧ ∀ c ∈ m, c.1 < s.params.bufSize := by
      obtain rfl | ⟨e, w, lost, hr, hw, hlen, rfl⟩ := hm
      · exact ⟨h.canonical, h.bounded⟩
      · obtain ⟨i, -, he⟩ := inFlightResult_eq_ok hr
        obtain ⟨hno, -⟩ | ⟨w', hw', -, hfit⟩ := (effect_ok he).write_cases
        · rw [hw] at hno
          cases hno
        · rw [hw] at hw'
          cases hw'
          exact ⟨Memory.wf_write h.canonical _ _, Memory.bounded_write h.bounded (hlen ▸ hfit)⟩
    exact inv_of_resetRegisters h.accepted hbuf.1 hbuf.2 rfl
  | buf x b hp hx =>
    exact ⟨h.accepted, Memory.wf_write h.canonical _ _, Memory.bounded_write h.bounded hx,
      h.outlenBounded, h.failed, h.spent, fun hb => absurd (hp.symm.trans hb) (by decide)⟩

/-- Settles O20: completions, resets and every host access keep the invariant. -/
theorem stepKeepsTheInvariant : Obligations.StepKeepsTheInvariant := by
  unfold Obligations.StepKeepsTheInvariant
  intro s t h hstep
  obtain ⟨u, ⟨rest, hu⟩, hcase⟩ := step_next_cases hstep
  have hinv : u.Inv := hu ▸ h.host s.hostError rest s.reply s.draws
  obtain ⟨-, rfl⟩ | rfl | ⟨cs, rfl⟩ | ⟨a, -, rfl⟩ := hcase
  · exact hinv.complete
  · exact hinv
  · obtain ⟨hwf, hbd⟩ := Memory.wf_ofCells u.params.bufSize cs Memory.wf_nil
      (fun c hc => absurd hc List.not_mem_nil)
    exact inv_of_resetRegisters hinv.accepted hwf hbd rfl
  · obtain ⟨w, e, r, d, hw, heq⟩ := access_cases u a
    rw [heq]
    exact (hinv.accessLeaves hw).host _ _ _ _

/-! ### The flags -/

/-- A completion keeps WERR, and RND_VALID where it was 0; it shows EQ only with OK. -/
theorem complete_flags (s : State) (r : Result) :
    (s.complete r).phase = .idle ∧ (s.complete r).doneFlag = true ∧
      (s.complete r).werrFlag = s.werrFlag ∧
      ((s.complete r).rndValid = true → s.rndValid = true) ∧
      ((s.complete r).eqFlag = true → (s.complete r).rc = .ok) := by
  cases r with
  | ok e => exact ⟨rfl, rfl, rfl, by cases h : e.consume <;> simp [h], fun _ => rfl⟩
  | error c => exact ⟨rfl, rfl, rfl, id, nofun⟩

/-- The access that starts a command, in IDLE, is a CMD write (10_state.md R48). -/
theorem AccessLeaves.busy {s u : State} {a : Access} (h : AccessLeaves s a u) (hs : s.phase = .idle)
    (hu : u.phase = .busy) : ∃ v, a = .regWrite 0x010 32 v ∧ u.cmd = v := by
  cases h with
  | issue v hp => exact ⟨v, rfl, rfl⟩
  | reset => cases hu
  | same | drop | arg | rnd | status | irqEn | buf => exact absurd (hs.symm.trans hu) (by decide)

/-- No access sets DONE or EQ (10_state.md R38). -/
theorem AccessLeaves.done_eq {s u : State} {a : Access} (h : AccessLeaves s a u) :
    (u.doneFlag = true → s.doneFlag = true) ∧ (u.eqFlag = true → s.eqFlag = true) := by
  cases h with
  | issue | reset => exact ⟨nofun, nofun⟩
  | status v => exact ⟨fun h => (Bool.and_eq_true_iff.1 h).1, id⟩
  | same | drop | arg | rnd | irqEn | buf => exact ⟨id, id⟩

/-- The access that sets WERR is one that BUSY drops (20_memory.md R90). -/
theorem AccessLeaves.werr {s u : State} {a : Access} (h : AccessLeaves s a u)
    (hs : s.werrFlag = false) (hu : u.werrFlag = true) : s.phase = .busy ∧ u.phase = .busy := by
  have hkept (h : s.werrFlag = true) : s.phase = .busy ∧ u.phase = .busy :=
    absurd (hs.symm.trans h) Bool.false_ne_true
  cases h with
  | drop hp => exact ⟨hp, hp⟩
  | reset => cases hu
  | status v => exact hkept (Bool.and_eq_true_iff.1 hu).1
  | same | issue | arg | rnd | irqEn | buf => exact hkept hu

/-- The access that sets RND_VALID is a write of some RNDj in IDLE (10_state.md R46). -/
theorem AccessLeaves.rndValid {s u : State} {a : Access} (h : AccessLeaves s a u)
    (hs : s.rndValid = false) (hu : u.rndValid = true) :
    s.phase = .idle ∧ ∃ (j : Fin 16) (v : Word), a = .regWrite (0x040 + 4 * j.val) 32 v := by
  cases h with
  | rnd j v hp => exact ⟨hp, j, v, rfl⟩
  | reset => cases hu
  | same | drop | issue | arg | status | irqEn | buf =>
    exact absurd (hs.symm.trans hu) Bool.false_ne_true

/-- Settles O22: a completion, a reset and each access may set the flags the statement allows it and no
other. -/
theorem eachFlagHasOneSetter : Obligations.EachFlagHasOneSetter := by
  unfold Obligations.EachFlagHasOneSetter
  intro s t hstep
  obtain ⟨u, ⟨rest, rfl⟩, hcase⟩ := step_next_cases hstep
  have hset {b : Bool} {p : Prop} (h0 : b = false) (h1 : b = true) : p :=
    absurd (h0.symm.trans h1) Bool.false_ne_true
  have hphase {p : Prop} {q : Phase} (h0 : q = .idle) (h1 : q = .busy) : p :=
    absurd (h0.symm.trans h1) (by decide)
  obtain ⟨hp, ht⟩ | rfl | ⟨cs, rfl⟩ | ⟨a, hs, ht⟩ := hcase
  · obtain ⟨hidle, hdone, hwerr, hrnd, heq⟩ := complete_flags { s with schedule := rest }
      (inFlightResult { s with schedule := rest })
    rw [← ht] at hidle hdone hwerr hrnd heq
    exact ⟨fun h => hphase h hp, fun _ _ => ⟨hp, hidle⟩, fun _ h => ⟨hp, hidle, hdone, heq h⟩,
      fun h0 h1 => hset h0 (hwerr ▸ h1), fun h0 h1 => hset h0 (hrnd h1)⟩
  · exact ⟨hphase, hset, hset, hset, hset⟩
  · exact ⟨fun _ => hphase rfl, fun _ => hset rfl, fun _ => hset rfl, fun _ => hset rfl,
      fun _ => hset rfl⟩
  · obtain ⟨w, e, r, d, hw, heq⟩ := access_cases { s with schedule := rest } a
    rw [ht, heq]
    refine ⟨fun h0 h1 => ?_, fun h0 h1 => hset h0 (hw.done_eq.1 h1),
      fun h0 h1 => hset h0 (hw.done_eq.2 h1), fun h0 h1 => hw.werr h0 h1, fun h0 h1 => ?_⟩
    · obtain ⟨v, rfl, hv⟩ := hw.busy h0 h1
      exact ⟨v, rest, hs, hv⟩
    · obtain ⟨hp, j, v, rfl⟩ := hw.rndValid h0 h1
      exact ⟨hp, j, v, rest, hs⟩

end Sys2Proof.Machine

/-! The host's accesses to the two spaces: what BUSY drops, what a byte of BUF reads as after a write, and
which accesses are bus errors (20_memory.md R82, R83, R90). -/

namespace Sys2Proof.Machine

/-! ### The registers behind the offsets -/

/-- The offsets of CMD, ARGi and RNDj (10_state.md R33). -/
theorem exists_regAt_operand {off : Nat} (h4 : off % 4 = 0)
    (h : off = 0x010 ∨ 0x020 ≤ off ∧ off < 0x080) :
    ∃ r, regAt off 32 = some r ∧ (r = .cmd ∨ (∃ i, r = .arg i) ∨ ∃ j, r = .rnd j) := by
  obtain rfl | ⟨hlo, hhi⟩ := h
  · exact ⟨.cmd, regAt_cmd, .inl rfl⟩
  obtain harg | hrnd := Nat.lt_or_ge off 0x040
  · obtain ⟨k, rfl⟩ : ∃ k, off = 0x020 + 4 * k := ⟨(off - 0x020) / 4, by omega⟩
    exact ⟨_, regAt_arg ⟨k, by omega⟩, .inr (.inl ⟨_, rfl⟩)⟩
  · obtain ⟨k, rfl⟩ : ∃ k, off = 0x040 + 4 * k := ⟨(off - 0x040) / 4, by omega⟩
    exact ⟨_, regAt_rnd ⟨k, by omega⟩, .inr (.inr ⟨_, rfl⟩)⟩

/-- The offsets of ID, CONFIG, OUTLEN and the reserved slots (10_state.md R33). -/
theorem exists_regAt_readOnly {off : Nat} (h4 : off % 4 = 0)
    (h : off < 0x008 ∨ 0x014 ≤ off ∧ off < 0x020 ∨ 0x080 ≤ off ∧ off < 0x100) :
    ∃ r, regAt off 32 = some r ∧ (r = .id ∨ r = .config ∨ r = .outlen ∨ r = .reserved) := by
  obtain rfl | rfl | rfl | hres : off = 0x000 ∨ off = 0x004 ∨ off = 0x014 ∨
      (off = 0x018 ∨ off = 0x01C ∨ 0x080 ≤ off ∧ off < 0x100) := by omega
  · exact ⟨.id, regAt_id, by simp⟩
  · exact ⟨.config, regAt_config, by simp⟩
  · exact ⟨.outlen, regAt_outlen, by simp⟩
  · exact ⟨.reserved, regAt_reserved h4 hres, by simp⟩

/-! ### Register writes without an effect on the register -/

/-- In BUSY a write of CMD, ARGi or RNDj is dropped (20_memory.md R90 a). -/
theorem regWrite_eq_dropWrite (s : State) (hp : s.phase = .busy) {r : Reg}
    (hr : r = .cmd ∨ (∃ i, r = .arg i) ∨ ∃ j, r = .rnd j) (v : Word) :
    s.regWrite r v = s.dropWrite := by
  obtain rfl | ⟨i, rfl⟩ | ⟨j, rfl⟩ := hr <;> simp only [State.regWrite, hp]

/-- A write of a read-only or reserved register is ignored (20_memory.md R90 f). -/
theorem regWrite_eq_self (s : State) {r : Reg}
    (hr : r = .id ∨ r = .config ∨ r = .outlen ∨ r = .reserved) (v : Word) :
    s.regWrite r v = s := by
  obtain rfl | rfl | rfl | rfl := hr <;> rfl

/-! ### The step of one BUF access -/

/-- A read inside BUF is the BUF read of the state (20_memory.md R83). -/
theorem step_bufRead {s : State} {rest : List Event} {a : Nat}
    (h : NextEvent s (.host (.bufRead a)) rest) (ha : a < s.params.bufSize) :
    step s = .next (({ s with schedule := rest } : State).bufRead a) := by
  rw [step_host h, State.access, if_pos ha]

/-- A write inside BUF is the BUF write of the state, and returns nothing (20_memory.md R83). -/
theorem step_bufWrite {s : State} {rest : List Event} {a : Nat} {b : Byte}
    (h : NextEvent s (.host (.bufWrite a b)) rest) (ha : a < s.params.bufSize) :
    step s = .next { ({ s with schedule := rest } : State).bufWrite a b with reply := .none } := by
  rw [step_host h, State.access, if_pos ha]

/-- Settles O6: the offset gives the register, whose write is dropped or ignored; a BUF access is split by
the phase. -/
theorem busyAccessesAreDroppedOrUnspecified : Obligations.BusyAccessesAreDroppedOrUnspecified := by
  unfold Obligations.BusyAccessesAreDroppedOrUnspecified
  refine fun s rest => ⟨fun off v h hp h4 hoff => ?_, fun a b h hp ha => ?_, fun off v h h4 hoff => ?_,
    fun a h hp ha => ⟨Config.busyReadByte s.draws, ?_⟩⟩
  · obtain ⟨r, hr, hop⟩ := exists_regAt_operand h4 hoff
    rw [step_regWrite h hr, regWrite_eq_dropWrite { s with schedule := rest } hp hop, State.dropWrite]
  · rw [step_bufWrite h ha]
    simp only [State.bufWrite, hp, State.dropWrite]
  · obtain ⟨r, hr, hro⟩ := exists_regAt_readOnly h4 hoff
    rw [step_regWrite h hr, regWrite_eq_self _ hro]
  · rw [step_bufRead h ha]
    simp only [State.bufRead, hp]

/-! ### BUF in IDLE -/

/-- A write of one byte changes that byte and no other. -/
theorem Memory.read_write_singleton (m : Memory) (a : Nat) (b : Byte) (x : Nat) :
    (m.write a [b]).read x = if x = a then b else m.read x := by
  have hx : (a ≤ x ∧ x < a + [b].length) ↔ x = a := by
    rw [List.length_singleton]
    omega
  rw [Memory.read_write]
  simp only [hx]
  split
  next h => simp [h]
  next => rfl

/-- Settles O12: the memory after the write is the write of the one byte. -/
theorem bufHoldsTheLastWrite : Obligations.BufHoldsTheLastWrite := by
  unfold Obligations.BufHoldsTheLastWrite
  refine fun s a rest hp ha => ⟨fun b h =>
    ⟨s.buf.write a [b], ?_, Memory.read_write_singleton s.buf a b⟩, fun h => ?_⟩
  · rw [step_bufWrite h ha]
    simp only [State.bufWrite, hp]
  · rw [step_bufRead h ha]
    simp only [State.bufRead, hp]

/-! ### Bus errors -/

/-- A REG offset and width reach a register exactly when the access is well formed (20_memory.md R82). -/
theorem isSome_regAt (off width : Nat) : (regAt off width).isSome =
    (width == 32 && off % 4 == 0 && decide (off < 0x100)) := by
  rw [Bool.eq_iff_iff]
  simp only [regAt, Option.isSome_ite, Bool.and_eq_true, beq_iff_eq, decide_eq_true_eq, and_assoc]

/-- An ill-formed access records its bus error, returns nothing and does nothing else (60_exceptions.md
R347). -/
theorem access_of_not_wf (s : State) {a : Access} (h : a.wf s.params.bufSize = false) :
    s.access a = { s with hostError := some (busErrorOf a), reply := .none } := by
  cases a with
  | regRead off width | regWrite off width _ =>
    have hnone : regAt off width = none := by
      rwa [Access.wf, ← isSome_regAt, Option.isSome_eq_false_iff, Option.isNone_iff_eq_none] at h
    simp only [State.access, hnone, State.busError, busErrorOf]
  | bufRead x | bufWrite x _ =>
    have hx : ¬ x < s.params.bufSize := of_decide_eq_false h
    rw [State.access, if_neg hx, State.busError, busErrorOf]

/-- A well-formed access records no bus error. -/
theorem access_hostError_of_wf (s : State) {a : Access} (h : a.wf s.params.bufSize = true) :
    (s.access a).hostError = s.hostError := by
  cases a with
  | regRead off width =>
    rw [Access.wf, ← isSome_regAt] at h
    obtain ⟨r, hr⟩ := Option.isSome_iff_exists.1 h
    simp only [State.access, hr]
  | regWrite off width v =>
    rw [Access.wf, ← isSome_regAt] at h
    obtain ⟨r, hr⟩ := Option.isSome_iff_exists.1 h
    obtain ⟨-, hhost, -, -⟩ := regWrite_host s r v
    simp only [State.access, hr, hhost]
  | bufRead x =>
    rw [State.access, if_pos (of_decide_eq_true h), State.bufRead]
    split <;> rfl
  | bufWrite x b =>
    rw [State.access, if_pos (of_decide_eq_true h), State.bufWrite]
    split <;> rfl

/-- Settles O13: the step of an access that is taken is the access, well formed or not. -/
theorem onlyIllFormedAccessesFail : Obligations.OnlyIllFormedAccessesFail := by
  unfold Obligations.OnlyIllFormedAccessesFail
  intro s a rest h
  rw [step_host h]
  refine ⟨fun hwf => ?_, fun hwf => ⟨_, rfl, ?_, (access_host _ a).2⟩⟩
  · rw [access_of_not_wf { s with schedule := rest } hwf]
  · exact (access_hostError_of_wf { s with schedule := rest } hwf).trans h.running

end Sys2Proof.Machine

/-! The command word and the operand registers: decoding and encoding agree, the engine checks the opcode
before the reserved bits, and a register without a role is not read (30_encoding.md R110 to R121). -/

namespace Sys2Proof.Machine

/-! ### The fields of a command word -/

theorem toNat_opcodeField (w : Word) : (opcodeField w).toNat = w.toNat % 256 := by
  simp [opcodeField]

theorem toNat_reservedBits (w : Word) : (reservedBits w).toNat = w.toNat / 256 := by
  rw [reservedBits, BitVec.extractLsb'_toNat, Nat.shiftRight_eq_div_pow]
  omega

theorem reservedBits_eq_zero_iff (w : Word) : reservedBits w = 0 ↔ w.toNat / 256 = 0 := by
  rw [← toNat_reservedBits, ← BitVec.toNat_inj, BitVec.ofNat_eq_ofNat, BitVec.toNat_zero]

/-- A word is its reserved bits above its opcode (30_encoding.md R111). -/
theorem reservedBits_append_opcodeField (w : Word) : reservedBits w ++ opcodeField w = w := by
  apply BitVec.eq_of_toNat_eq
  rw [toNat_append_eq_add, toNat_reservedBits, toNat_opcodeField]
  omega

@[simp] theorem opcodeField_encode (i : Instr) : opcodeField (encode i) = opcode i := by
  cases i <;> rfl

@[simp] theorem reservedBits_encode (i : Instr) : reservedBits (encode i) = 0 := by
  cases i <;> rfl

/-- The fields of a word determine whether it is the encoding of a command (R121). -/
theorem eq_encode_iff (w : Word) (i : Instr) :
    w = encode i ↔ opcodeField w = opcode i ∧ reservedBits w = 0 := by
  constructor
  · rintro rfl
    exact ⟨opcodeField_encode i, reservedBits_encode i⟩
  · rintro ⟨ho, hr⟩
    rw [← reservedBits_append_opcodeField w, ho, hr]
    rfl

/-! ### The opcode map -/

@[simp] theorem instrOfOpcode_opcode (i : Instr) : instrOfOpcode (opcode i) = some i := by
  cases i <;> rfl

/-- The opcode map of R110 is the inverse of `opcode`: each row is read back from its one opcode. -/
theorem instrOfOpcode_eq_some_iff (o : Byte) (i : Instr) :
    instrOfOpcode o = some i ↔ o = opcode i := by
  constructor
  · intro h
    unfold instrOfOpcode at h
    split at h <;> cases h <;> exact BitVec.eq_of_toNat_eq ‹_›
  · rintro rfl
    exact instrOfOpcode_opcode i

/-- The list of R110 holds the opcodes of the commands and no other value. -/
theorem mem_assignedOpcodes_iff (o : Byte) : o.toNat ∈ assignedOpcodes ↔ ∃ i, o = opcode i := by
  constructor
  · intro h
    have hrow : ∀ n ∈ assignedOpcodes, (instrOfOpcode (BitVec.ofNat 8 n)).isSome := by decide
    obtain ⟨i, hi⟩ := Option.isSome_iff_exists.1 (hrow _ h)
    rw [BitVec.ofNat_toNat, BitVec.setWidth_eq, instrOfOpcode_eq_some_iff] at hi
    exact ⟨i, hi⟩
  · rintro ⟨i, rfl⟩
    cases i <;> decide

/-! ### The decoder -/

/-- A word decodes to a command exactly when it has its opcode and no reserved bit (R112). -/
theorem decode_eq_ok_iff (w : Word) (i : Instr) :
    decode w = .ok i ↔ opcodeField w = opcode i ∧ reservedBits w = 0 := by
  rw [← instrOfOpcode_eq_some_iff, decode]
  cases instrOfOpcode (opcodeField w) with
  | none => simp
  | some j => by_cases hr : reservedBits w = 0#24 <;> simp [hr]

/-- The opcode is checked whatever the reserved bits are (R112). -/
theorem decode_of_not_mem {w : Word} (h : (opcodeField w).toNat ∉ assignedOpcodes) :
    decode w = .error .illegalOpcode := by
  rw [mem_assignedOpcodes_iff] at h
  cases ho : instrOfOpcode (opcodeField w) with
  | none => simp only [decode, ho]
  | some i => exact absurd ⟨i, (instrOfOpcode_eq_some_iff _ i).1 ho⟩ h

/-- The reserved bits of a word with an opcode of R110 are checked next (R112). -/
theorem decode_of_reservedBits_ne_zero {w : Word} (h : (opcodeField w).toNat ∈ assignedOpcodes)
    (hr : reservedBits w ≠ 0) : decode w = .error .reservedField := by
  obtain ⟨i, hi⟩ := (mem_assignedOpcodes_iff _).1 h
  simp only [decode, hi, instrOfOpcode_opcode, if_neg hr]

/-- Settles O2: both sides say that the opcode is the command's and that no reserved bit is set. -/
theorem decodeAcceptsExactlyTheEncodings : Obligations.DecodeAcceptsExactlyTheEncodings := by
  unfold Obligations.DecodeAcceptsExactlyTheEncodings
  intro w i
  rw [decode_eq_ok_iff, eq_encode_iff]

/-- Settles O1: each of the 26 words is the encoding of its command. -/
theorem decoderReadsEveryTableWord : Obligations.DecoderReadsEveryTableWord := by
  unfold Obligations.DecoderReadsEveryTableWord
  simp only [decodeAcceptsExactlyTheEncodings _ _]
  decide

/-! ### The engine's turn -/

/-- The step of the engine's turn while a command is in flight is its completion step (40_command.md R141). -/
theorem step_engine_of_busy {s : State} {rest : List Event} (hacc : paramsAccepted s.params = true)
    (hp : s.phase = .busy) (hs : s.schedule = .engine :: rest) :
    step s = completionStep { s with schedule := rest } := by
  simp [step, hacc, turn, hs, engineTurn, hp]

/-- A command whose word does not decode fails with the code of its decode error (R112). -/
theorem completionStep_of_error {s : State} {e : DecodeError} (h : decode s.latch.cmd = .error e) :
    completionStep s = .next (s.failWith (decodeErrorCode e)) := by
  simp only [completionStep, h]

theorem completionStep_of_ok {s : State} {i : Instr} (h : decode s.latch.cmd = .ok i) :
    completionStep s = exec i s := by
  simp only [completionStep, h]

/-- Settles O3: by what the latched word decodes to, in each of the three cases of R112. -/
theorem engineDecodesOpcodeThenReservedBits : Obligations.EngineDecodesOpcodeThenReservedBits := by
  unfold Obligations.EngineDecodesOpcodeThenReservedBits
  intro s rest hacc hp hs
  rw [step_engine_of_busy hacc hp hs]
  simp only [← toNat_opcodeField, ← reservedBits_eq_zero_iff, Ne]
  refine ⟨fun hopc => ?_, fun hopc hr => ?_, fun hopc hr => ?_⟩
  · exact ⟨_, completionStep_of_error (decode_of_not_mem hopc), failsWith_failWith _ _⟩
  · exact ⟨_, completionStep_of_error (decode_of_reservedBits_ne_zero hopc hr), failsWith_failWith _ _⟩
  · obtain ⟨i, hi⟩ := (mem_assignedOpcodes_iff _).1 hopc
    exact ⟨i, congrArg BitVec.toNat hi.symm, completionStep_of_ok ((decode_eq_ok_iff _ i).2 ⟨hi, hr⟩)⟩

/-! ### The registers a command reads -/

/-- What the outcome of a command depends on: BUF, the parameters, the latched randomness, and of the latched
ARG registers those that have a role in its format (30_encoding.md R113, R115, 40_command.md R142). -/
theorem effectOf_congr {i : Instr} {s s' : State} (hbuf : s.buf = s'.buf) (hparams : s.params = s'.params)
    (hrnd : s.latch.rndbuf = s'.latch.rndbuf) (hvalid : s.latch.rndValid = s'.latch.rndValid)
    (harg : ∀ j, (argRoles i)[j] ≠ .ignored → arg s j = arg s' j) : effectOf i s = effectOf i s' := by
  have hread (a n : Nat) : memRead s a n = memRead s' a n := by rw [memRead, hbuf, memRead]
  have hcheck (a n : Nat) : checkRegion s a n = checkRegion s' a n := by
    rw [checkRegion, hparams, checkRegion]
  cases i <;>
    simp (disch := decide) only [effectOf, effectNop, effectKeccakf, effectCshake256, effectKmacxof256,
      effectKmac256, stringCommand, effectEncLeft, effectEncRight, encodeInteger, effectEncString,
      effectBytepad, effectFadd, effectFsub, effectFmul, fieldBinary, effectFinv, effectFexp, effectFsqrt,
      effectPadd, effectPmul, effectPfromx, effectPeq, effectKeygen, effectPkEnc, effectPkDec, effectSign,
      effectVerify, effectSymEnc, effectSymDec, readPoint, readW66, latchedRnd, hread, hcheck, hparams, hrnd,
      hvalid, harg]
  -- the two sides still decide an equality of integers by two names of one procedure
  case finv | peq => rfl

/-- Latching another value in one register leaves what is read of every other one. -/
theorem arg_set_of_ne (s : State) {j k : Fin 8} (v : Word) (h : k ≠ j) :
    arg { s with latch := { s.latch with args := s.latch.args.set k v } } j = arg s j := by
  simp [arg, Vector.getElem_set_ne, Fin.val_ne_of_ne h]

/-- Settles O24: an ignored register is none of those that the outcome depends on. -/
theorem unusedArgsAreIgnored : Obligations.UnusedArgsAreIgnored := by
  unfold Obligations.UnusedArgsAreIgnored
  intro i k v s t t' hk h h'
  have hsame : effectOf i { s with latch := { s.latch with args := s.latch.args.set k v } } =
      effectOf i s :=
    effectOf_congr rfl rfl rfl rfl fun j hj => arg_set_of_ne s v fun hkj => hj (hkj ▸ hk)
  rw [exec_eq] at h h'
  rw [hsame] at h'
  cases h
  cases h'
  cases effectOf i s <;> exact ⟨rfl, rfl, rfl, rfl, rfl, rfl⟩

end Sys2Proof.Machine

/-! Commands: what issue latches, when the completion step runs, and what Exec reads and writes (40_command.md
R140 to R146). -/

namespace Sys2Proof.Machine

/-! ### Issue and the completion step -/

/-- Settles O5: a CMD write is the issue in IDLE and a dropped write in BUSY. -/
theorem issueLatchesTheOperands : Obligations.IssueLatchesTheOperands := by
  unfold Obligations.IssueLatchesTheOperands
  refine fun s v rest h => ⟨fun hp => ?_, fun hp => ?_⟩
  · rw [step_regWrite h regAt_cmd]
    simp only [State.regWrite, hp, State.issue]
  · rw [step_regWrite h regAt_cmd, regWrite_eq_dropWrite { s with schedule := rest } hp (.inl rfl),
      State.dropWrite]

/-- In IDLE the engine's turn only leaves the schedule (60_exceptions.md R355). -/
theorem step_engine_of_idle {s : State} {rest : List Event} (hacc : paramsAccepted s.params = true)
    (hp : s.phase = .idle) (hs : s.schedule = .engine :: rest) :
    step s = .next { s with schedule := rest } := by
  simp [step, hacc, turn, hs, engineTurn, hp]

/-- With no event left the step is the quiet turn (40_command.md R146). -/
theorem step_of_no_event {s : State} (hacc : paramsAccepted s.params = true) (hs : s.schedule = []) :
    step s = quietTurn s := by
  simp [step, hacc, turn, hs]

/-- A stopped host takes no access, so the step is the quiet turn (60_exceptions.md R347). -/
theorem step_host_of_stopped {s : State} {a : Access} {rest : List Event} {e : HostBusError}
    (hacc : paramsAccepted s.params = true) (hs : s.schedule = .host a :: rest)
    (he : s.hostError = some e) : step s = quietTurn s := by
  simp [step, hacc, turn, hs, he]

theorem quietTurn_of_busy {s : State} (hp : s.phase = .busy) : quietTurn s = completionStep s := by
  simp only [quietTurn, hp]

theorem quietTurn_of_rest {s : State} (hp : s.phase = .idle) (he : s.hostError = none) :
    quietTurn s = .next s := by
  simp only [quietTurn, hp, he]

/-- Settles O4: by the phase, and in BUSY by which of the turns leads to the completion step. -/
theorem stepRunsTheDecodedCommand : Obligations.StepRunsTheDecodedCommand := by
  unfold Obligations.StepRunsTheDecodedCommand
  refine fun s hacc => ⟨fun i hp hi => ?_, fun hp => ?_⟩
  · refine ⟨fun rest hs => ?_, fun hs => ?_, fun a rest e hs he => ?_⟩
    · rw [step_engine_of_busy hacc hp hs]
      exact completionStep_of_ok hi
    · rw [step_of_no_event hacc hs, quietTurn_of_busy hp, completionStep_of_ok hi]
    · rw [step_host_of_stopped hacc hs he, quietTurn_of_busy hp, completionStep_of_ok hi]
  · refine ⟨fun rest hs => step_engine_of_idle hacc hp hs, fun hs he => ?_⟩
    rw [step_of_no_event hacc hs, quietTurn_of_rest hp he]

/-- Settles O31: the effect of NOP sets no flag and writes nothing. -/
theorem nopOnlyCompletes : Obligations.NopOnlyCompletes := by
  unfold Obligations.NopOnlyCompletes
  exact fun s => ⟨_, exec_of_ok rfl, completesOk_flag s false 0, rfl⟩

/-! ### What a command reads -/

/-- Settles O23: LATCH, BUF and the parameters determine the outcome of Exec, and the outcome and BUF the four
results. -/
theorem execReadsOnlyLatchBufAndParameters : Obligations.ExecReadsOnlyLatchBufAndParameters := by
  unfold Obligations.ExecReadsOnlyLatchBufAndParameters
  intro i s s' t t' hlatch hbuf hparams h h'
  have hsame : effectOf i s = effectOf i s' :=
    effectOf_congr hbuf hparams (congrArg _ hlatch) (congrArg _ hlatch) fun j _ => by
      rw [arg, arg, hlatch]
  rw [exec_eq] at h h'
  rw [hsame] at h
  cases h
  cases h'
  cases effectOf i s' with
  | ok e => exact ⟨rfl, rfl, rfl, congrArg (·.apply e.write) hbuf⟩
  | error c => exact ⟨rfl, rfl, rfl, hbuf⟩

/-! ### What a command writes -/

/-- A completion with OK shows in OUTLEN the number of bytes written, which no 32-bit register cuts off
(10_state.md R41). -/
theorem OkEffect.toNat_outlen {i : Instr} {s : State} {e : Effect} (h : OkEffect i s e)
    (haw : s.params.wfBufAw = true) :
    (s.commit e).outlen.toNat = e.outlen ∧ e.outlen ≤ s.params.bufSize := by
  have hsize := bufSize_le haw
  have hle : e.outlen ≤ s.params.bufSize := by
    obtain ⟨-, ho⟩ | ⟨w, -, ho, hfit⟩ := h.write_cases <;> omega
  refine ⟨?_, hle⟩
  rw [State.commit_outlen, BitVec.toNat_ofNat, Nat.mod_eq_of_lt (by omega)]

/-- A completion with OK of a command without a destination leaves BUF (40_command.md R143). -/
theorem OkEffect.commit_buf_of_no_dst {i : Instr} {s : State} {e : Effect} (h : OkEffect i s e)
    (hd : dstArg i = none) : (s.commit e).buf = s.buf := by
  obtain ⟨hw, -⟩ := h.nothing hd
  rw [State.commit_buf, hw, Memory.apply]

/-- A completion with OK leaves every byte outside the destination (40_command.md R143). -/
theorem OkEffect.read_commit_of_outside {i : Instr} {s : State} {e : Effect} (h : OkEffect i s e)
    {k : Fin 8} (hk : dstArg i = some k) {a : Nat}
    (ha : ¬ (arg s k ≤ a ∧ a < arg s k + e.outlen)) :
    (s.commit e).buf.read a = s.buf.read a := by
  obtain ⟨v, hw, ho, -⟩ := h.region k hk
  rw [ho] at ha
  rw [State.commit_buf, hw, Memory.apply, Memory.read_write, if_neg ha]

/-- Settles O26: by the outcome of the command; a failing one writes nothing, and an OK one only its
destination. -/
theorem commandWritesOnlyItsDestination : Obligations.CommandWritesOnlyItsDestination := by
  unfold Obligations.CommandWritesOnlyItsDestination
  intro i s haw
  cases hr : effectOf i s with
  | error c =>
    exact ⟨_, exec_of_error hr, sameRegisters_failWith s c, rfl, rfl, Nat.zero_le _, fun _ => rfl,
      fun _ _ _ _ => rfl⟩
  | ok e =>
    have he := effect_ok hr
    obtain ⟨hout, hle⟩ := he.toNat_outlen haw
    refine ⟨_, exec_of_ok hr, sameRegisters_commit s e, rfl, rfl, hout.trans_le hle,
      he.commit_buf_of_no_dst, fun k hk a ha => ?_⟩
    rw [hout] at ha
    exact he.read_commit_of_outside hk ha

end Sys2Proof.Machine

/-! The permutation: the tables and their generators, the lanes of a state and its bytes, the step mappings
lane by lane, and KECCAKF (41_keccak.md R160 to R170). -/

namespace Sys2Proof.Machine

/-! ### KECCAKF -/

theorem effectKeccakf_of_fits {s : State} (hsrc : Fits s (arg s 0) 200) (hdst : Fits s (arg s 1) 200) :
    effectOf .keccakf s =
      .ok (Effect.store (arg s 1) 200 (keccakF (memRead s (arg s 0) 200))) := by
  simp only [effectOf, effectKeccakf, STATE_BYTES, checkRegion_of_fits hsrc, checkRegion_of_fits hdst,
    except_ok_bind]
  rfl

theorem effectKeccakf_of_not_fits {s : State}
    (h : ¬ (Fits s (arg s 0) 200 ∧ Fits s (arg s 1) 200)) :
    effectOf .keccakf s = .error .bounds := by
  simp only [effectOf, effectKeccakf, STATE_BYTES, except_bind_eq_error, checkRegion_eq_error,
    checkRegion_eq_ok]
  by_cases hsrc : Fits s (arg s 0) 200
  · exact .inr ⟨(), hsrc, .inl ⟨fun hdst => h ⟨hsrc, hdst⟩, trivial⟩⟩
  · exact .inl ⟨hsrc, trivial⟩

/-- Settles O32: by whether both regions fit; what is stored is computed from BUF before the store. -/
theorem keccakfPermutesTheState : Obligations.KeccakfPermutesTheState := by
  unfold Obligations.KeccakfPermutesTheState
  refine fun s => ⟨fun hsrc hdst => ?_, fun h => ?_⟩
  · exact ⟨_, exec_of_ok (effectKeccakf_of_fits hsrc hdst), completesOk_store s (length_keccakF _)⟩
  · exact ⟨_, exec_of_error (effectKeccakf_of_not_fits h), failsWith_failWith s _⟩

/-! ### Operations on a lane -/

theorem getLsbD_rotl64 (v : Lane) (n : Nat) {z : Nat} (hz : z < 64) :
    (rotl64 v n).getLsbD ((z + n) % 64) = v.getLsbD z := by
  rw [rotl64, BitVec.getLsbD_rotateLeft]
  by_cases hwrap : z + n % 64 < 64
  · have hmod : (z + n) % 64 = z + n % 64 := by omega
    rw [hmod]
    simp [hwrap]
  · have hmod : (z + n) % 64 = z + n % 64 - 64 := by omega
    have hlow : z + n % 64 - 64 < n % 64 := by omega
    have hsrc : 64 - n % 64 + (z + n % 64 - 64) = z := by omega
    rw [hmod]
    simp [hlow, hsrc]

/-- A rotation moves the low bits up and the high bits down, and the two do not meet (41_keccak.md R161). -/
theorem toNat_rotl64 (v : Lane) (n : Nat) :
    (rotl64 v n).toNat = v.toNat * 2 ^ (n % 64) % 2 ^ 64 + v.toNat / 2 ^ (64 - n % 64) := by
  have hsum : 64 - n % 64 + n % 64 = 64 := by omega
  have hlow : v.toNat <<< (n % 64) % 2 ^ 64 = (v.toNat % 2 ^ (64 - n % 64)) <<< (n % 64) := by
    rw [Nat.shiftLeft_eq, Nat.shiftLeft_eq, ← Nat.mul_mod_mul_right, ← pow_add, hsum]
  have hhigh : v.toNat >>> (64 - n % 64) < 2 ^ (n % 64) := by
    rw [Nat.shiftRight_eq_div_pow]
    refine Nat.div_lt_of_lt_mul ?_
    rw [← pow_add, hsum]
    exact v.isLt
  rw [rotl64, BitVec.toNat_rotateLeft, hlow, ← Nat.shiftLeft_add_eq_or_of_lt hhigh, ← hlow,
    Nat.shiftLeft_eq, Nat.shiftRight_eq_div_pow]

theorem rotl64_of_mod_eq_zero (v : Lane) {n : Nat} (h : n % 64 = 0) : rotl64 v n = v := by
  apply BitVec.eq_of_toNat_eq
  rw [toNat_rotl64, h]
  omega

/-! ### The step mappings, lane by lane -/

theorem lane_mod (A : Lanes) (x y : Nat) : lane A (x % 5) (y % 5) = lane A x y := by
  simp [lane]

@[simp] theorem lane_mod_left (A : Lanes) (x y : Nat) : lane A (x % 5) y = lane A x y := by
  simp [lane]

@[simp] theorem lane_mkLanes (f : Nat → Nat → Lane) (x y : Nat) :
    lane (mkLanes f) x y = f (x % 5) (y % 5) := by
  have hlt : x % 5 + 5 * (y % 5) < 25 := by omega
  have hx : (x % 5 + 5 * (y % 5)) % 5 = x % 5 := by omega
  have hy : (x % 5 + 5 * (y % 5)) / 5 = y % 5 := by omega
  simp [lane, mkLanes, hlt, hx, hy]

theorem getD_thetaC (A : Lanes) {x : Nat} (hx : x < 5) :
    (thetaC A).getD x 0 =
      lane A x 0 ^^^ lane A x 1 ^^^ lane A x 2 ^^^ lane A x 3 ^^^ lane A x 4 := by
  simp [thetaC, hx]

theorem getD_thetaD (C : List Lane) {x : Nat} (hx : x < 5) :
    (thetaD C).getD x 0 = C.getD ((x + 4) % 5) 0 ^^^ rotl64 (C.getD ((x + 1) % 5) 0) 1 := by
  simp [thetaD, hx]

/-- π by the lane it takes: lane (x, y) moves to (y, 2x + 3y) (41_keccak.md R164). -/
theorem lane_piStep_target (A : Lanes) {x y : Nat} (hx : x < 5) (hy : y < 5) :
    lane (piStep A) y ((2 * x + 3 * y) % 5) = lane A x y := by
  have hsrc : (y + 3 * ((2 * x + 3 * y) % 5)) % 5 = x := by omega
  rw [piStep, lane_mkLanes, Nat.mod_mod, Nat.mod_eq_of_lt hy, ← lane_mod_left, hsrc]

theorem keccakRounds_eq_foldl (A : Lanes) (n : Nat) :
    keccakRounds A n = (List.range n).foldl keccakRound A := by
  induction n with
  | zero => rfl
  | succ n ih => rw [keccakRounds, ih, List.range_succ, List.foldl_append]; rfl

/-- Settles O33: a lane of a mapping is read from the equation that builds it, and the rounds are a fold. -/
theorem roundStepsFollowTheEquations : Obligations.RoundStepsFollowTheEquations := by
  unfold Obligations.RoundStepsFollowTheEquations
  refine ⟨fun v n => ?_, fun A x y => (lane_mod A x y).symm, fun A x y hx hy => ?_, fun A ir => rfl,
    fun S => by rw [keccakF, keccakRounds_eq_foldl]⟩
  · exact ⟨fun z hz => getLsbD_rotl64 v n hz, rotl64_of_mod_eq_zero v, fun _ => toNat_rotl64 v n,
      BitVec.toNat_not⟩
  · have hx' := Nat.mod_eq_of_lt hx
    have hy' := Nat.mod_eq_of_lt hy
    refine ⟨?theta, ?rho, ?pi, lane_piStep_target A hx hy, ?chi, fun ir => ?iota⟩
    case theta =>
      simp only [theta, lane_mkLanes, hx', hy', getD_thetaD _ hx,
        getD_thetaC A (Nat.mod_lt _ (by decide : 0 < 5))]
    case rho => rw [rho, lane_mkLanes, hx', hy']
    case pi => rw [piStep, lane_mkLanes, hx', hy', lane_mod_left]
    case chi => simp only [chi, lane_mkLanes, hx', hy', lane_mod_left]
    case iota =>
      rw [iota, lane_mkLanes, hx', hy']
      split
      case isTrue h => rw [h.1, h.2]
      case isFalse => rfl

/-! ### The lanes of a state and its bytes -/

theorem intLe_lt (S : Bytes) : intLe S < 256 ^ S.length := by
  induction S with
  | nil => simp [intLe]
  | cons b S ih =>
    rw [intLe, List.length_cons, pow_succ]
    have hb := b.isLt
    omega

theorem natLe_intLe (S : Bytes) : natLe S.length (intLe S) = S := by
  induction S with
  | nil => rfl
  | cons b S ih =>
    have hb := b.isLt
    have hhead : BitVec.ofNat 8 (b.toNat + 256 * intLe S) = b := by
      apply BitVec.eq_of_toNat_eq
      rw [BitVec.toNat_ofNat]
      omega
    have htail : (b.toNat + 256 * intLe S) / 256 = intLe S := by omega
    rw [intLe, List.length_cons, natLe, hhead, htail, ih]

/-- Bit z of a little-endian integer is bit z mod 8 of byte z div 8 (20_memory.md R84). -/
theorem testBit_intLe (S : Bytes) (z : Nat) :
    (intLe S).testBit z = (S.getD (z / 8) 0).getLsbD (z % 8) := by
  induction S generalizing z with
  | nil => simp [intLe]
  | cons b S ih =>
    have hsplit : intLe (b :: S) = 2 ^ 8 * intLe S + b.toNat := Nat.add_comm _ _
    rw [hsplit, Nat.testBit_two_pow_mul_add _ b.isLt]
    split
    case isTrue hz => rw [Nat.div_eq_of_lt hz, Nat.mod_eq_of_lt hz]; rfl
    case isFalse hz =>
      have hdiv : z / 8 = (z - 8) / 8 + 1 := by omega
      have hmod : z % 8 = (z - 8) % 8 := by omega
      rw [ih, hdiv, hmod, List.getD_cons_succ]

theorem getD_lanesOf {n k : Nat} (S : Bytes) (h : k < n) :
    (lanesOf n S).getD k 0 = BitVec.ofNat 64 (intLe ((S.drop (8 * k)).take 8)) := by
  induction n generalizing k S with
  | zero => omega
  | succ n ih =>
    cases k with
    | zero => rfl
    | succ k =>
      rw [lanesOf, List.getD_cons_succ, ih _ (by omega), List.drop_drop]
      congr 4
      omega

theorem getLsbD_lanesOf {n k z : Nat} (S : Bytes) (hk : k < n) (hz : z < 64) :
    ((lanesOf n S).getD k 0).getLsbD z = (S.getD (8 * k + z / 8) 0).getLsbD (z % 8) := by
  have hbyte : z / 8 < 8 := by omega
  rw [getD_lanesOf S hk, BitVec.getLsbD_ofNat, testBit_intLe]
  simp [List.getD_eq_getElem?_getD, hz, hbyte]

/-- The eight bytes of one word, as a lane and back. -/
theorem natLe_toNat_ofNat_intLe {W : Bytes} (h : W.length = 8) :
    natLe 8 (BitVec.ofNat 64 (intLe W)).toNat = W := by
  have hlt : intLe W < 2 ^ 64 := by
    calc intLe W < 256 ^ W.length := intLe_lt W
      _ = 2 ^ 64 := by rw [h]; rfl
  rw [BitVec.toNat_ofNat, Nat.mod_eq_of_lt hlt, ← h, natLe_intLe]

theorem bytesOf_lanesOf {n : Nat} {S : Bytes} (h : S.length = 8 * n) : bytesOf (lanesOf n S) = S := by
  induction n generalizing S with
  | zero => rw [List.eq_nil_of_length_eq_zero h]; rfl
  | succ n ih =>
    rw [lanesOf, bytesOf, natLe_toNat_ofNat_intLe (by rw [List.length_take]; omega),
      ih (by rw [List.length_drop]; omega), List.take_append_drop]

/-- Settles O34: word by word, a lane is the little-endian integer of its eight bytes. -/
theorem lanesAreLittleEndianWords : Obligations.LanesAreLittleEndianWords := by
  unfold Obligations.LanesAreLittleEndianWords
  refine fun S hS => ⟨fun x y z hx hy hz => ?_, bytesOf_lanesOf hS⟩
  rw [lane, Nat.mod_eq_of_lt hx, Nat.mod_eq_of_lt hy]
  exact getLsbD_lanesOf S (by omega) hz

/-! ### The tables -/

theorem roundConstant_eq_generated : ∀ ir < 24, (roundConstant ir).toNat = generatedRoundConstant ir := by
  decide

theorem rotOffset_rotationWalk :
    ∀ t < 24, rotOffset (rotationWalk t).1 (rotationWalk t).2 = (t + 1) * (t + 2) / 2 % 64 := by
  decide

/-- Settles O35: row by row of the two tables. -/
theorem keccakTablesMatchTheirGenerators : Obligations.KeccakTablesMatchTheirGenerators := by
  unfold Obligations.KeccakTablesMatchTheirGenerators
  exact ⟨roundConstant_eq_generated, rfl, rotOffset_rotationWalk⟩

end Sys2Proof.Machine

/-! The encodings of integers and strings, padding, the sponge and its output, and the commands over them
(42_sponge.md R180 to R193). -/

namespace Sys2Proof.Machine

/-! ### How a command that stores a byte string ends -/

theorem exec_failsWith {i : Instr} {s : State} {c : ResultCode} (h : effectOf i s = .error c) :
    ∃ t, exec i s = .next t ∧ FailsWith s t c :=
  ⟨_, exec_of_error h, failsWith_failWith s c⟩

theorem exec_completesOk_store {i : Instr} {s : State} {a n : Nat} {v : Bytes}
    (h : effectOf i s = .ok (Effect.store a n v)) (hn : v.length = n) :
    ∃ t, exec i s = .next t ∧ CompletesOk s t a v false false :=
  ⟨_, exec_of_ok h, completesOk_store s hn⟩

/-- A check goes on where the region fits and else ends the command. -/
theorem checkRegion_bind (s : State) (a n : Nat) (f : Unit → Result) :
    (checkRegion s a n >>= f) = if Fits s a n then f () else .error .bounds := by
  split
  case isTrue h => rw [checkRegion_of_fits h, except_ok_bind]
  case isFalse h => rw [checkRegion_eq_error.2 ⟨h, rfl⟩, except_error_bind]

theorem require_bind (p : Prop) [Decidable p] (c : ResultCode) (f : Unit → Result) :
    (require (decide p) c >>= f) = if p then f () else .error c := by
  split
  case isTrue h => rw [decide_eq_true h, require_true, except_ok_bind]
  case isFalse h => rw [decide_eq_false h, require_false, except_error_bind]

/-! ### The fewest bytes that hold an integer -/

theorem bitLen_le_iff {x k : Nat} : bitLen x ≤ k ↔ x < 2 ^ k := by
  unfold bitLen
  split
  case isTrue h => simp [h]
  case isFalse h => rw [Nat.add_one_le_iff, Nat.log2_lt h]

/-- At most k bytes for exactly the integers that k bytes hold (42_sponge.md R180). -/
theorem encodingBytes_le_iff {x k : Nat} (hk : 1 ≤ k) : encodingBytes x ≤ k ↔ x < 256 ^ k := by
  have hbits : (256 : Nat) ^ k = 2 ^ (8 * k) := by rw [pow_mul]; norm_num
  rw [hbits, ← bitLen_le_iff, encodingBytes]
  omega

theorem one_le_encodingBytes (x : Nat) : 1 ≤ encodingBytes x := le_max_left 1 _

/-- The bytes of encode_left and encode_right have the value of the integer. -/
theorem intBe_natBe_encodingBytes (x : Nat) : intBe (natBe (encodingBytes x) x) = x := by
  rw [intBe_natBe]
  exact Nat.mod_eq_of_lt ((encodingBytes_le_iff (one_le_encodingBytes x)).1 le_rfl)

/-- Where there are two bytes or more, the first one is needed. -/
theorem head?_natBe_encodingBytes {x : Nat} (h : 1 < encodingBytes x) :
    (natBe (encodingBytes x) x).head? ≠ some 0 := by
  obtain ⟨k, hk⟩ : ∃ k, encodingBytes x = k + 1 := ⟨_, (Nat.sub_add_cancel h.le).symm⟩
  have hlow : 256 ^ k ≤ x := by
    by_contra hlt
    have := (encodingBytes_le_iff (by omega)).2 (not_le.1 hlt)
    omega
  have hhigh : x < 256 ^ k * 256 := (encodingBytes_le_iff (by omega)).1 hk.le
  have hpos : 0 < x / 256 ^ k := Nat.div_pos hlow (by positivity)
  have hlt : x / 256 ^ k < 256 := Nat.div_lt_of_lt_mul hhigh
  intro hzero
  rw [hk, natBe, List.head?_cons, Option.some.injEq] at hzero
  have hbyte := congrArg BitVec.toNat hzero
  rw [BitVec.toNat_ofNat, Nat.mod_eq_of_lt hlt] at hbyte
  exact hpos.ne' hbyte

/-! ### ENC_LEFT and ENC_RIGHT -/

/-- The source, the value and the destination are checked in this order (60_exceptions.md R343). -/
theorem encodeInteger_eq (f : Nat → Bytes) {s : State} {x : Nat}
    (hx : x = intBe (memRead s (arg s 0) (arg s 1))) :
    encodeInteger f s =
      if Fits s (arg s 0) (arg s 1) then
        if x < ENC_LIMIT then
          if Fits s (arg s 2) (f x).length then .ok (Effect.store (arg s 2) (f x).length (f x))
          else .error .bounds
        else .error .malformedInt
      else .error .bounds := by
  simp only [encodeInteger, checkRegion_bind, require_bind, ← hx]
  rfl

theorem encodeInteger_of_source_not_fits (f : Nat → Bytes) {s : State}
    (hsrc : ¬ Fits s (arg s 0) (arg s 1)) : encodeInteger f s = .error .bounds := by
  rw [encodeInteger_eq f rfl, if_neg hsrc]

section
variable (f : Nat → Bytes) {s : State} {x : Nat} (hx : x = intBe (memRead s (arg s 0) (arg s 1)))
  (hsrc : Fits s (arg s 0) (arg s 1))
include hx hsrc

theorem encodeInteger_of_limit_le (hle : ENC_LIMIT ≤ x) : encodeInteger f s = .error .malformedInt := by
  rw [encodeInteger_eq f hx, if_pos hsrc, if_neg (not_lt.2 hle)]

theorem encodeInteger_of_fits (hlt : x < ENC_LIMIT) (hdst : Fits s (arg s 2) (f x).length) :
    encodeInteger f s = .ok (Effect.store (arg s 2) (f x).length (f x)) := by
  rw [encodeInteger_eq f hx, if_pos hsrc, if_pos hlt, if_pos hdst]

theorem encodeInteger_of_destination_not_fits (hlt : x < ENC_LIMIT)
    (hdst : ¬ Fits s (arg s 2) (f x).length) : encodeInteger f s = .error .bounds := by
  rw [encodeInteger_eq f hx, if_pos hsrc, if_pos hlt, if_neg hdst]

end

/-- Settles O40: the source, the value and the destination are checked in this order, and the bytes are the
fewest that hold the value. -/
theorem encodeIntegerUsesTheFewestBytes : Obligations.EncodeIntegerUsesTheFewestBytes := by
  unfold Obligations.EncodeIntegerUsesTheFewestBytes
  rw [← ENC_LIMIT_eq]
  refine fun s x hx => ⟨fun hsrc => ?_, fun hsrc hle => ?_, fun hsrc hlt => ?_⟩
  · exact ⟨exec_failsWith (encodeInteger_of_source_not_fits encodeLeft hsrc),
      exec_failsWith (encodeInteger_of_source_not_fits encodeRight hsrc)⟩
  · exact ⟨exec_failsWith (encodeInteger_of_limit_le encodeLeft hx hsrc hle),
      exec_failsWith (encodeInteger_of_limit_le encodeRight hx hsrc hle)⟩
  · have hmost : encodingBytes x ≤ 255 := (encodingBytes_le_iff (by decide)).2 hlt
    refine ⟨encodingBytes x, natBe (encodingBytes x) x, length_natBe _ x, one_le_encodingBytes x, hmost,
      intBe_natBe_encodingBytes x, head?_natBe_encodingBytes, ?_⟩
    rw [← length_encodeLeft]
    have hlen : (encodeLeft x).length = (encodeRight x).length := by simp
    refine ⟨fun hdst => ⟨?_, ?_⟩, fun hdst => ⟨?_, ?_⟩⟩
    · exact exec_completesOk_store (encodeInteger_of_fits encodeLeft hx hsrc hlt hdst) rfl
    · exact exec_completesOk_store (encodeInteger_of_fits encodeRight hx hsrc hlt (hlen ▸ hdst)) rfl
    · exact exec_failsWith (encodeInteger_of_destination_not_fits encodeLeft hx hsrc hlt hdst)
    · exact exec_failsWith (encodeInteger_of_destination_not_fits encodeRight hx hsrc hlt (hlen ▸ hdst))

/-! ### ENC_STRING and BYTEPAD -/

theorem effectEncString_eq {s : State} {e : Bytes}
    (he : e = encodeLeft (8 * arg s 1) ++ memRead s (arg s 0) (arg s 1)) :
    effectOf .encString s =
      if Fits s (arg s 0) (arg s 1) ∧ Fits s (arg s 2) e.length then
        .ok (Effect.store (arg s 2) e.length e)
      else .error .bounds := by
  simp only [effectOf, effectEncString, ← he, checkRegion_bind, ite_and]
  rfl

/-- Settles O41: by whether both regions fit. -/
theorem encodeStringPrefixesTheLength : Obligations.EncodeStringPrefixesTheLength := by
  unfold Obligations.EncodeStringPrefixesTheLength
  refine fun s e he => ⟨fun hsrc hdst => ?_, fun h => ?_⟩
  · exact exec_completesOk_store ((effectEncString_eq he).trans (if_pos ⟨hsrc, hdst⟩)) rfl
  · exact exec_failsWith ((effectEncString_eq he).trans (if_neg h))

/-- BYTEPAD checks the width, then the regions; the length it checks is that of what it stores
(42_sponge.md R192). -/
theorem effectBytepad_eq {s : State} {e : Bytes}
    (he : e = bytepad (memRead s (arg s 0) (arg s 1)) (arg s 2)) :
    effectOf .bytepad s =
      if arg s 2 ≠ 0 then
        if Fits s (arg s 0) (arg s 1) ∧ Fits s (arg s 3) e.length then
          .ok (Effect.store (arg s 3) e.length e)
        else .error .bounds
      else .error .badArg := by
  simp only [effectOf, effectBytepad, ← he, checkRegion_bind, require_bind, ite_and]
  split
  case isTrue hw =>
    have hlen : bytepadLength (arg s 1) (arg s 2) = e.length := by
      rw [he, length_bytepad _ hw, length_memRead]
    rw [hlen]
    rfl
  case isFalse => rfl

/-- bytepad fills up to a multiple of the width (42_sponge.md R183). -/
theorem length_bytepad_mod (x : Bytes) {w : Nat} (hw : w ≠ 0) : (bytepad x w).length % w = 0 := by
  rw [length_bytepad x hw, bytepadLength, Nat.mul_mod_right]

/-- Settles O42: the width is checked first; the number of zeros is a remainder modulo the width. -/
theorem bytepadFillsToTheWidth : Obligations.BytepadFillsToTheWidth := by
  unfold Obligations.BytepadFillsToTheWidth
  refine fun s => ⟨fun hw => ?_, fun hw => ?_⟩
  · exact exec_failsWith ((effectBytepad_eq rfl).trans (if_neg (not_not.2 hw)))
  · have heff := (effectBytepad_eq rfl).trans (if_pos hw)
    exact ⟨_, bytepad (memRead s (arg s 0) (arg s 1)) (arg s 2), Nat.mod_lt _ (Nat.pos_of_ne_zero hw),
      rfl, length_bytepad_mod _ hw,
      fun hsrc hdst => exec_completesOk_store (heff.trans (if_pos ⟨hsrc, hdst⟩)) rfl,
      fun h => exec_failsWith (heff.trans (if_neg h))⟩

/-! ### Padding -/

theorem xorLast_append_singleton (v b : Byte) (q : Bytes) :
    xorLast v (q ++ [b]) = q ++ [b ^^^ v] := by
  induction q with
  | nil => rfl
  | cons a q ih =>
    cases q with
    | nil => rfl
    | cons a' q => exact congrArg (a :: ·) ih

/-- One byte short of a block: the suffix and 0x80 land in one byte (42_sponge.md R184). -/
theorem pad_of_one_byte_free {p : Bytes} (c : Byte) (h : p.length % 136 = 135) :
    pad p c = p ++ [c ^^^ 0x80] := by
  have hfull : (RATE - (p ++ [c]).length % RATE) % RATE = 0 := by
    rw [List.length_append, List.length_singleton, RATE]
    omega
  simp only [pad, hfull, zeros, List.replicate_zero, List.append_nil, xorLast_append_singleton]

/-- With more bytes free the suffix comes first, 0x80 last, and zeros between (42_sponge.md R184). -/
theorem pad_of_more_bytes_free {p : Bytes} (c : Byte) (h : p.length % 136 ≠ 135) :
    pad p c = p ++ [c] ++ List.replicate (134 - p.length % 136) 0 ++ [0x80] := by
  have hzeros : (RATE - (p ++ [c]).length % RATE) % RATE = 134 - p.length % 136 + 1 := by
    rw [List.length_append, List.length_singleton, RATE]
    omega
  simp only [pad, hzeros, zeros, List.replicate_succ', ← List.append_assoc, xorLast_append_singleton]
  rfl

theorem take_pad (p : Bytes) (c : Byte) : (pad p c).take p.length = p := by
  by_cases h : p.length % 136 = 135
  · rw [pad_of_one_byte_free c h, List.take_left]
  · rw [pad_of_more_bytes_free c h, List.append_assoc, List.append_assoc, List.take_left]

/-- Padding ends the block that the input leaves open. -/
theorem length_pad (p : Bytes) (c : Byte) :
    (pad p c).length = 136 * (p.length / 136 + 1) := by
  by_cases h : p.length % 136 = 135
  · rw [pad_of_one_byte_free c h]
    simp only [List.length_append, List.length_singleton]
    omega
  · rw [pad_of_more_bytes_free c h]
    simp only [List.length_append, List.length_singleton, List.length_replicate]
    omega

/-- Settles O39: by whether one byte of the block is free or more. -/
theorem paddingFillsTheBlock : Obligations.PaddingFillsTheBlock := by
  unfold Obligations.PaddingFillsTheBlock
  intro p c
  have hlen := length_pad p c
  exact ⟨by omega, by omega, by omega, take_pad p c, pad_of_one_byte_free c,
    fun h => ⟨_, pad_of_more_bytes_free c h⟩⟩

/-! ### Absorbing -/

/-- A block after m whole ones is absorbed by one more permutation (42_sponge.md R185). -/
theorem absorbBlocks_append {m : Nat} {Q B : Bytes} (S : Bytes) (hQ : Q.length = 136 * m)
    (hB : B.length = 136) :
    absorbBlocks (m + 1) (Q ++ B) S =
      keccakF (xorBytes (absorbBlocks m Q S) (B ++ zeros CAPACITY)) := by
  induction m generalizing Q S with
  | zero =>
    have hnil : Q = [] := List.eq_nil_of_length_eq_zero hQ
    have htake : B.take RATE = B := List.take_of_length_le hB.le
    rw [hnil, List.nil_append]
    simp only [absorbBlocks, htake]
  | succ m ih =>
    have hle : RATE ≤ Q.length := by rw [hQ, RATE]; omega
    have hdrop : (Q.drop RATE).length = 136 * m := by rw [List.length_drop, hQ, RATE]; omega
    rw [absorbBlocks, List.drop_append_of_le_length hle, List.take_append_of_le_length hle, ih _ hdrop,
      ← absorbBlocks]

theorem absorb_append {Q B : Bytes} (hQ : Q.length % 136 = 0) (hB : B.length = 136) :
    absorb (Q ++ B) = keccakF (xorBytes (absorb Q) (B ++ zeros CAPACITY)) := by
  have hblocks : (Q ++ B).length / RATE = Q.length / RATE + 1 := by
    rw [List.length_append, hB, RATE]
    omega
  rw [absorb, hblocks, absorbBlocks_append _ (by rw [RATE]; omega) hB, ← absorb]

@[simp] theorem length_absorb (Q : Bytes) : (absorb Q).length = 200 :=
  length_absorbBlocks _ _ (length_zeros _)

theorem getD_xorBytes {a b : Bytes} {k : Nat} (ha : k < a.length) (hb : k < b.length) :
    (xorBytes a b).getD k 0 = a.getD k 0 ^^^ b.getD k 0 := by
  simp [xorBytes, ha, hb]

/-- A block is XORed into the first 136 bytes of a state (42_sponge.md R185). -/
theorem getD_xorBytes_block {A B : Bytes} (hA : A.length = 200) (hB : B.length = 136) {k : Nat}
    (hk : k < 136) : (xorBytes A (B ++ zeros CAPACITY)).getD k 0 = A.getD k 0 ^^^ B.getD k 0 := by
  rw [getD_xorBytes (by omega) (by simp [hB, CAPACITY]; omega), List.getD_append _ _ _ _ (by omega)]

/-- The capacity bytes of a state are never XORed with input (42_sponge.md R185). -/
theorem getD_xorBytes_capacity {A B : Bytes} (hA : A.length = 200) (hB : B.length = 136) {k : Nat}
    (hk : 136 ≤ k) (hk' : k < 200) : (xorBytes A (B ++ zeros CAPACITY)).getD k 0 = A.getD k 0 := by
  rw [getD_xorBytes (by omega) (by simp [hB, CAPACITY]; omega), List.getD_append_right _ _ _ _ (by omega)]
  have hzero : (zeros CAPACITY).getD (k - B.length) 0 = 0 :=
    List.getD_replicate _ (by rw [hB, CAPACITY]; omega)
  rw [hzero]
  exact BitVec.xor_zero

/-! ### Squeezing -/

theorem squeezeBlocks_prefix {m n : Nat} (S : Bytes) (h : m ≤ n) :
    squeezeBlocks m S <+: squeezeBlocks n S := by
  induction m generalizing n S with
  | zero => exact List.nil_prefix
  | succ m ih =>
    obtain ⟨n, rfl⟩ : ∃ k, n = k + 1 := ⟨n - 1, by omega⟩
    exact (List.prefix_append_right_inj _).2 (ih _ (by omega))

/-- The output may be cut from any number of blocks that covers it (42_sponge.md R186). -/
theorem squeeze_eq_take {S : Bytes} {n m : Nat} (hS : S.length = 200) (h : n ≤ 136 * m) :
    squeeze S n = (squeezeBlocks m S).take n := by
  have hm : (n + (RATE - 1)) / RATE ≤ m := by rw [RATE]; omega
  obtain ⟨R, hR⟩ := squeezeBlocks_prefix S hm
  have hlen : n ≤ (squeezeBlocks ((n + (RATE - 1)) / RATE) S).length := by
    rw [length_squeezeBlocks _ hS, RATE]
    omega
  rw [squeeze, ← hR, List.take_append_of_le_length hlen]

theorem squeeze_of_le {S : Bytes} {n : Nat} (hS : S.length = 200) (h : n ≤ 136) :
    squeeze S n = S.take n := by
  rw [squeeze_eq_take (m := 1) hS h, squeezeBlocks, squeezeBlocks, List.append_nil, List.take_take,
    RATE, min_eq_left h]

theorem squeeze_of_lt {S : Bytes} {n : Nat} (hS : S.length = 200) (h : 136 < n) :
    squeeze S n = S.take 136 ++ squeeze (keccakF S) (n - 136) := by
  have hcover : n ≤ 136 * (n + 1) := by omega
  have hcover' : n - 136 ≤ 136 * n := by omega
  have hlen : (S.take RATE).length = 136 := by rw [List.length_take, hS, RATE]; rfl
  have hle : (S.take RATE).length ≤ n := by omega
  rw [squeeze_eq_take hS hcover, squeeze_eq_take (length_keccakF S) hcover', squeezeBlocks,
    List.take_append, List.take_of_length_le hle, hlen]
  rfl

/-- Fewer bytes of output are the first of more (42_sponge.md R186). -/
theorem take_squeeze {S : Bytes} {m n : Nat} (hS : S.length = 200) (h : m ≤ n) :
    (squeeze S n).take m = squeeze S m := by
  have hcover : n ≤ 136 * n := by omega
  rw [squeeze_eq_take hS hcover, squeeze_eq_take hS (h.trans hcover), List.take_take, min_eq_left h]

theorem take_sponge (p : Bytes) (c : Byte) {m n : Nat} (h : m ≤ n) :
    (sponge p c n).take m = sponge p c m :=
  take_squeeze (length_absorb _) h

/-! ### cSHAKE256 -/

theorem cshake256_of_empty (X : Bytes) (L : Nat) {N S : Bytes} (h : N = [] ∧ S = []) :
    cshake256 X L N S = sponge X 0x1F (L / 8) :=
  if_pos h

theorem cshake256_of_not_empty (X : Bytes) (L : Nat) {N S : Bytes} (h : ¬ (N = [] ∧ S = [])) :
    cshake256 X L N S = sponge (bytepad (encodeString N ++ encodeString S) RATE ++ X) 0x04 (L / 8) :=
  if_neg h

theorem take_cshake256 (X N S : Bytes) {L₁ L₂ : Nat} (h : L₁ ≤ L₂) :
    (cshake256 X L₂ N S).take (L₁ / 8) = cshake256 X L₁ N S := by
  have hbytes := Nat.div_le_div_right (c := 8) h
  by_cases hempty : N = [] ∧ S = []
  · rw [cshake256_of_empty _ _ hempty, cshake256_of_empty _ _ hempty, take_sponge _ _ hbytes]
  · rw [cshake256_of_not_empty _ _ hempty, cshake256_of_not_empty _ _ hempty, take_sponge _ _ hbytes]

/-- Settles O38: the length in bits is used for the number of squeezed bytes alone. -/
theorem shorterOutputIsAPrefix : Obligations.ShorterOutputIsAPrefix := by
  unfold Obligations.ShorterOutputIsAPrefix
  exact fun A B S L₁ L₂ _ _ h => ⟨(take_cshake256 A B S h).symm, (take_cshake256 _ strKMAC S h).symm⟩

/-! ### The commands over three strings -/

/-- L is checked before any region, then the three strings and the destination (42_sponge.md R193). -/
theorem stringCommand_eq (f : Bytes → Bytes → Bytes → Nat → Bytes) (s : State) :
    stringCommand f s =
      if arg s 7 % 8 = 0 then
        if Fits s (arg s 0) (arg s 1) ∧ Fits s (arg s 2) (arg s 3) ∧ Fits s (arg s 4) (arg s 5) ∧
            Fits s (arg s 6) (arg s 7 / 8) then
          .ok (Effect.store (arg s 6) (arg s 7 / 8)
            (f (memRead s (arg s 0) (arg s 1)) (memRead s (arg s 2) (arg s 3))
              (memRead s (arg s 4) (arg s 5)) (arg s 7)))
        else .error .bounds
      else .error .badLength := by
  simp only [stringCommand, checkRegion_bind, require_bind, ite_and]
  rfl

theorem memRead_eq_nil_iff {s : State} {a n : Nat} : memRead s a n = [] ↔ n = 0 := by
  rw [← List.length_eq_zero_iff, length_memRead]

/-- Settles O36: the recurrences of the sponge one by one, then CSHAKE256 by its checks and by whether both
strings are empty. -/
theorem cshake256WritesTheSponge : Obligations.Cshake256WritesTheSponge := by
  unfold Obligations.Cshake256WritesTheSponge
  refine ⟨rfl, fun Q B hQ hB => ?absorb, fun S n hS => ⟨squeeze_of_le hS, squeeze_of_lt hS⟩,
    fun _ _ _ => rfl, fun s => ?command⟩
  case absorb =>
    refine ⟨_, ?_, absorb_append hQ hB, fun k => getD_xorBytes_block (length_absorb Q) hB,
      fun k => getD_xorBytes_capacity (length_absorb Q) hB⟩
    simp [length_xorBytes, hB, CAPACITY]
  case command =>
    have heff : effectOf .cshake256 s = _ := stringCommand_eq (fun X N S L => cshake256 X L N S) s
    refine ⟨fun hbits => exec_failsWith (heff.trans (if_neg hbits)),
      fun hbits h => exec_failsWith (heff.trans ((if_pos hbits).trans (if_neg h))),
      fun hbits h0 h2 h4 h6 => ?_⟩
    obtain ⟨t, ht, hok⟩ := exec_completesOk_store
      (heff.trans ((if_pos hbits).trans (if_pos ⟨h0, h2, h4, h6⟩))) (length_cshake256 _ _ _ _)
    refine ⟨t, _, ht, hok, length_cshake256 _ _ _ _, fun hempty => ?_, fun hempty => ?_⟩
    · exact cshake256_of_empty _ _ (hempty.imp memRead_eq_nil_iff.2 memRead_eq_nil_iff.2)
    · exact cshake256_of_not_empty _ _ fun h =>
        hempty (h.imp memRead_eq_nil_iff.1 memRead_eq_nil_iff.1)

end Sys2Proof.Machine

/-! KMACXOF256 and KMAC256: cSHAKE256 over the padded key, the input and the encoded length (43_kmac.md R210
to R214). -/

namespace Sys2Proof.Machine

/-- A command over three strings with no failing check stores L/8 bytes at ARG6 (43_kmac.md R213, R214). -/
theorem exec_completesOk_stringCommand {i : Instr} {s : State}
    {f : Bytes → Bytes → Bytes → Nat → Bytes} (heff : effectOf i s = stringCommand f s)
    (hlen : ∀ a b c L, (f a b c L).length = L / 8) (hbits : arg s 7 % 8 = 0)
    (hfits : Fits s (arg s 0) (arg s 1) ∧ Fits s (arg s 2) (arg s 3) ∧ Fits s (arg s 4) (arg s 5) ∧
      Fits s (arg s 6) (arg s 7 / 8)) :
    ∃ t, exec i s = .next t ∧ CompletesOk s t (arg s 6)
      (f (memRead s (arg s 0) (arg s 1)) (memRead s (arg s 2) (arg s 3))
        (memRead s (arg s 4) (arg s 5)) (arg s 7)) false false := by
  have hstore := (stringCommand_eq f s).trans ((if_pos hbits).trans (if_pos hfits))
  exact exec_completesOk_store (heff.trans hstore) (hlen _ _ _ _)

/-- The two bytes that stand for the length in KMACXOF256 (43_kmac.md R210). -/
theorem encodeRight_zero : encodeRight 0 = [0x00, 0x01] := by decide

/-- KMACXOF256 with its constants written out (43_kmac.md R210). -/
theorem kmacxof256_eq (K X : Bytes) (L : Nat) (S : Bytes) :
    kmacxof256 K X L S =
      cshake256 (bytepad (encodeString K) 136 ++ X ++ [0x00, 0x01]) L [0x4B, 0x4D, 0x41, 0x43] S := by
  rw [kmacxof256, encodeRight_zero, RATE, strKMAC]

/-- KMAC256 with its constants written out (43_kmac.md R211). -/
theorem kmac256_eq (K X : Bytes) (L : Nat) (S : Bytes) :
    kmac256 K X L S =
      cshake256 (bytepad (encodeString K) 136 ++ X ++ encodeRight L) L [0x4B, 0x4D, 0x41, 0x43] S := by
  rw [kmac256, RATE, strKMAC]

/-- Settles O37: both are commands over three strings, and their MACs differ in the encoded length alone. -/
theorem kmacCommandsWriteTheMac : Obligations.KmacCommandsWriteTheMac := by
  unfold Obligations.KmacCommandsWriteTheMac
  intro s hbits hkey hinput hcustom hdst
  have hfits := And.intro hkey (And.intro hinput (And.intro hcustom hdst))
  refine ⟨?kmacxof256, ?kmac256⟩
  case kmacxof256 =>
    have heff : effectOf .kmacxof256 s = stringCommand (fun K X S L => kmacxof256 K X L S) s := rfl
    obtain ⟨t, ht, hok⟩ := exec_completesOk_stringCommand heff
      (fun _ _ _ _ => length_kmacxof256 _ _ _ _) hbits hfits
    exact ⟨t, _, ht, hok, length_kmacxof256 _ _ _ _, kmacxof256_eq _ _ _ _⟩
  case kmac256 =>
    have heff : effectOf .kmac256 s = stringCommand (fun K X S L => kmac256 K X L S) s := rfl
    obtain ⟨t, ht, hok⟩ := exec_completesOk_stringCommand heff
      (fun _ _ _ _ => length_kmac256 _ _ _ _) hbits hfits
    exact ⟨t, _, ht, hok, length_kmac256 _ _ _ _, kmac256_eq _ _ _ _⟩

end Sys2Proof.Machine

/-! The bytes of a field, arithmetic modulo P, and the commands FADD, FSUB, FMUL, FINV, FEXP and FSQRT
(44_field.md R230 to R239). -/

namespace Sys2Proof.Machine

/-! ### Byte strings and residues -/

/-- A byte read on after a string is its new least significant byte (00_scope.md R16). -/
theorem intBe_concat (u : Bytes) (b : Byte) : intBe (u ++ [b]) = 256 * intBe u + b.toNat := by
  have hfrom (acc : Nat) : intBeFrom acc (u ++ [b]) = 256 * intBeFrom acc u + b.toNat := by
    induction u generalizing acc with
    | nil => rw [List.nil_append, intBeFrom, intBeFrom, intBeFrom, Nat.mul_comm]
    | cons c u ih => exact ih _
  exact hfrom 0

/-- A difference and its residue are congruent, over the integers (00_scope.md R13). -/
theorem sub_subMod_emod (a b : Nat) {m : Nat} (hm : 0 < m) :
    ((a : Int) - b - subMod a b m) % m = 0 := by
  have hnn : 0 ≤ ((a : Int) - b) % m := Int.emod_nonneg _ (by omega)
  rw [subMod, Int.toNat_of_nonneg hnn]
  exact Int.emod_eq_zero_of_dvd Int.dvd_self_sub_emod

/-- Below P, finv(a) is the one inverse of a modulo P (44_field.md R235). -/
theorem mul_mod_P_eq_one_iff {a c : Nat} (h0 : 0 < a) (ha : a < P) (hc : c < P) :
    a * c % P = 1 ↔ c = finv a := by
  obtain ⟨m, hm⟩ : ∃ m, m = P := ⟨P, rfl⟩
  have := fact_prime hm
  have hne : (a : ZMod m) ≠ 0 := (cast_eq_zero_iff hm ha).not.2 h0.ne'
  calc a * c % P = 1
    _ ↔ a * c % P = 1 % P := by rw [Nat.mod_eq_of_lt one_lt_P]
    _ ↔ (a : ZMod m) * c = 1 := by rw [← cast_eq_iff hm, Nat.cast_mul, Nat.cast_one]
    _ ↔ (c : ZMod m) = finv a := by rw [cast_finv hm, mul_comm, mul_eq_one_iff_eq_inv₀ hne]
    _ ↔ c = finv a := ⟨eq_of_cast_eq hm hc (finv_lt a), congrArg _⟩

/-! ### FADD, FSUB and FMUL -/

/-- An operand below P passes, another ends the command (44_field.md R231). -/
theorem checkField_bind (v : Nat) (f : Unit → Result) :
    (checkField v >>= f) = if v < P then f () else .error .range :=
  require_bind (v < P) .range f

/-- The regions are checked before the operands (44_field.md R231, 60_exceptions.md R343). -/
theorem fieldBinary_eq (f : Nat → Nat → Nat) (s : State) :
    fieldBinary f s =
      if Fits s (arg s 0) 66 ∧ Fits s (arg s 1) 66 ∧ Fits s (arg s 2) 66 then
        if readW66 s (arg s 0) < P ∧ readW66 s (arg s 1) < P then
          .ok (Effect.store (arg s 2) 66 (W66 (f (readW66 s (arg s 0)) (readW66 s (arg s 1)))))
        else .error .range
      else .error .bounds := by
  simp only [fieldBinary, W_BYTES, checkRegion_bind, checkField_bind, ite_and]
  rfl

theorem effectOf_fadd (s : State) :
    effectOf .fadd s = fieldBinary (fun a b => (a + b) % P) s := rfl

theorem effectOf_fsub (s : State) :
    effectOf .fsub s = fieldBinary (fun a b => subMod a b P) s := rfl

theorem effectOf_fmul (s : State) :
    effectOf .fmul s = fieldBinary (fun a b => a * b % P) s := rfl

section
variable {i : Instr} {f : Nat → Nat → Nat} {s : State} (heff : effectOf i s = fieldBinary f s)
include heff

theorem exec_completesOk_fieldBinary
    (hfits : Fits s (arg s 0) 66 ∧ Fits s (arg s 1) 66 ∧ Fits s (arg s 2) 66)
    (hlt : readW66 s (arg s 0) < P ∧ readW66 s (arg s 1) < P) :
    ∃ t, exec i s = .next t ∧ CompletesOk s t (arg s 2)
      (W66 (f (readW66 s (arg s 0)) (readW66 s (arg s 1)))) false false := by
  rw [fieldBinary_eq, if_pos hfits, if_pos hlt] at heff
  exact exec_completesOk_store heff (length_W66 _)

theorem exec_fieldBinary_of_not_fits
    (h : ¬ (Fits s (arg s 0) 66 ∧ Fits s (arg s 1) 66 ∧ Fits s (arg s 2) 66)) :
    ∃ t, exec i s = .next t ∧ FailsWith s t .bounds := by
  rw [fieldBinary_eq, if_neg h] at heff
  exact exec_failsWith heff

theorem exec_fieldBinary_of_not_lt
    (hfits : Fits s (arg s 0) 66 ∧ Fits s (arg s 1) 66 ∧ Fits s (arg s 2) 66)
    (h : ¬ (readW66 s (arg s 0) < P ∧ readW66 s (arg s 1) < P)) :
    ∃ t, exec i s = .next t ∧ FailsWith s t .range := by
  rw [fieldBinary_eq, if_pos hfits, if_neg h] at heff
  exact exec_failsWith heff

end

/-- Settles O43: the bytes of a field by the laws of int_be, then the three commands as one shape with three
residues. -/
theorem fieldCommandsReduceExactly : Obligations.FieldCommandsReduceExactly := by
  unfold Obligations.FieldCommandsReduceExactly
  refine ⟨⟨intBe_nil, intBe_concat⟩,
    fun n hn => ⟨length_W66 n, intBe_W66 hn, fun k hk => getD_natBe n hk⟩, ?_⟩
  rintro s _ _ rfl rfl
  refine ⟨fun h0 h1 h2 ha hb => ?_, fun i hi => ?_⟩
  · have hfits := And.intro h0 (And.intro h1 h2)
    have hadd := exec_completesOk_fieldBinary (effectOf_fadd s) hfits ⟨ha, hb⟩
    obtain ⟨t, ht, hok⟩ := exec_completesOk_fieldBinary (effectOf_fsub s) hfits ⟨ha, hb⟩
    have hmul := exec_completesOk_fieldBinary (effectOf_fmul s) hfits ⟨ha, hb⟩
    exact ⟨hadd, ⟨t, _, ht, hok, subMod_lt _ _ P_pos, sub_subMod_emod _ _ P_pos⟩, hmul⟩
  · obtain ⟨f, heff⟩ : ∃ f, effectOf i s = fieldBinary f s := by
      obtain rfl | rfl | rfl := hi
      · exact ⟨_, effectOf_fadd s⟩
      · exact ⟨_, effectOf_fsub s⟩
      · exact ⟨_, effectOf_fmul s⟩
    exact ⟨exec_fieldBinary_of_not_fits heff,
      fun h0 h1 h2 => exec_fieldBinary_of_not_lt heff ⟨h0, h1, h2⟩⟩

/-! ### FINV -/

/-- FINV checks the regions, the range and then that the operand is not 0 (44_field.md R235). -/
theorem effectFinv_eq (s : State) :
    effectOf .finv s =
      if Fits s (arg s 0) 66 ∧ Fits s (arg s 2) 66 then
        if readW66 s (arg s 0) < P then
          if readW66 s (arg s 0) ≠ 0 then
            .ok (Effect.store (arg s 2) 66 (W66 (finv (readW66 s (arg s 0)))))
          else .error .noInverse
        else .error .range
      else .error .bounds := by
  simp only [effectOf, effectFinv, W_BYTES, checkRegion_bind, checkField_bind, require_bind, ite_and]
  rfl

/-- Settles O44: by the checks of FINV; what it stores is the one inverse. -/
theorem finvWritesTheInverse : Obligations.FinvWritesTheInverse := by
  unfold Obligations.FinvWritesTheInverse
  rintro s _ rfl h0 h2
  have heff := (effectFinv_eq s).trans (if_pos ⟨h0, h2⟩)
  generalize readW66 s (arg s 0) = a at heff ⊢
  refine ⟨fun hpos ha => ?_, fun hzero => ?_, fun hge => ?_⟩
  · rw [if_pos ha, if_pos hpos.ne'] at heff
    obtain ⟨t, ht, hok⟩ := exec_completesOk_store heff (length_W66 _)
    have hinv : a * finv a % P = 1 := (mul_mod_P_eq_one_iff hpos ha (finv_lt a)).2 rfl
    have hne : finv a ≠ 0 := fun h => by rw [h, Nat.mul_zero, Nat.zero_mod] at hinv; cases hinv
    exact ⟨t, finv a, ht, hok, Nat.pos_of_ne_zero hne, finv_lt a, hinv,
      fun c hc => (mul_mod_P_eq_one_iff hpos ha hc).1⟩
  · rw [hzero, if_pos P_pos, if_neg (not_not.2 rfl)] at heff
    exact exec_failsWith heff
  · rw [if_neg (not_lt.2 hge)] at heff
    exact exec_failsWith heff

/-! ### FEXP -/

/-- FEXP checks the range of the base alone (44_field.md R236). -/
theorem effectFexp_eq (s : State) :
    effectOf .fexp s =
      if Fits s (arg s 0) 66 ∧ Fits s (arg s 1) 66 ∧ Fits s (arg s 2) 66 then
        if readW66 s (arg s 0) < P then
          .ok (Effect.store (arg s 2) 66
            (W66 (readW66 s (arg s 0) ^ readW66 s (arg s 1) % P)))
        else .error .range
      else .error .bounds := by
  simp only [effectOf, effectFexp, W_BYTES, checkRegion_bind, checkField_bind, fpow_eq_pow_mod, ite_and]
  rfl

/-- Settles O45: square and multiply computes the power. -/
theorem fexpWritesThePower : Obligations.FexpWritesThePower := by
  unfold Obligations.FexpWritesThePower
  rintro s _ _ rfl rfl h0 h1 h2
  have heff := (effectFexp_eq s).trans (if_pos ⟨h0, h1, h2⟩)
  refine ⟨fun ha => ?_, fun hge => ?_⟩
  · exact exec_completesOk_store (heff.trans (if_pos ha)) (length_W66 _)
  · exact exec_failsWith (heff.trans (if_neg (not_lt.2 hge)))

/-! ### FSQRT -/

/-- FSQRT checks the parity, the regions and the range, and ends as fsqrt does (44_field.md R238). -/
theorem effectFsqrt_eq (s : State) :
    effectOf .fsqrt s =
      if arg s 1 ≤ 1 then
        if Fits s (arg s 0) 66 ∧ Fits s (arg s 2) 66 then
          if readW66 s (arg s 0) < P then
            (fsqrt (readW66 s (arg s 0)) (arg s 1)).map fun r => Effect.store (arg s 2) 66 (W66 r)
          else .error .range
        else .error .bounds
      else .error .badArg := by
  simp only [effectOf, effectFsqrt, W_BYTES, checkRegion_bind, checkField_bind, require_bind, ite_and]
  cases fsqrt (readW66 s (arg s 0)) (arg s 1) <;> rfl

/-- Settles O46: by the checks of FSQRT; the candidate of R237 is the root of the parity where there is one. -/
theorem fsqrtFindsTheRootOfTheParity : Obligations.FsqrtFindsTheRootOfTheParity := by
  unfold Obligations.FsqrtFindsTheRootOfTheParity
  rintro s _ rfl
  have heff := effectFsqrt_eq s
  refine ⟨fun hpar => ?_, fun hpar h0 h2 => ?_⟩
  · exact exec_failsWith (heff.trans (if_neg (not_le.2 hpar)))
  · rw [if_pos hpar, if_pos ⟨h0, h2⟩] at heff
    obtain ⟨hroot, hnone⟩ := fsqrt_spec (v := readW66 s (arg s 0)) hpar
    refine ⟨fun hge => ?_, fun hlt => ⟨fun r hr hrr hrp => ?_, fun h => ?_⟩⟩
    · exact exec_failsWith (heff.trans (if_neg (not_lt.2 hge)))
    · rw [if_pos hlt, hroot r hr hrr hrp] at heff
      exact exec_completesOk_store heff (length_W66 r)
    · rw [if_pos hlt, hnone h] at heff
      exact exec_failsWith heff

end Sys2Proof.Machine

/-! The addition law over the integers, scalar multiplication bit by bit, and the commands PADD, PMUL, PFROMX
and PEQ (45_edwards.md R260 to R269). -/

namespace Sys2Proof.Machine

/-! ### How a command on points ends -/

/-- A reduced point passes, another ends the command (45_edwards.md R265). -/
theorem checkPoint_bind (p : Point) (f : Unit → Result) :
    (checkPoint p >>= f) = if Reduced p then f () else .error .range :=
  require_bind (Reduced p) .range f

section
variable {i : Instr} {s : State} {a : Nat} {x : Except ResultCode Point}
  (heff : effectOf i s = x.map fun r => Effect.store a 132 (pointBytes r))
include heff

/-- A command that stores the point a computation answers completes where it answers. -/
theorem exec_completesOk_point {r : Point} (hx : x = .ok r) :
    ∃ t, exec i s = .next t ∧ CompletesOk s t a (W66 r.x ++ W66 r.y) false false := by
  rw [hx] at heff
  exact exec_completesOk_store heff (length_pointBytes r)

theorem exec_failsWith_point {c : ResultCode} (hx : x = .error c) :
    ∃ t, exec i s = .next t ∧ FailsWith s t c := by
  rw [hx] at heff
  exact exec_failsWith heff

end

/-! ### PADD -/

/-- Congruence to 0 modulo P is being 0 in the field. -/
theorem emod_P_eq_zero_iff {m : Nat} (hm : m = P) (z : Int) : z % P = 0 ↔ (z : ZMod m) = 0 := by
  rw [ZMod.intCast_zmod_eq_zero_iff_dvd, hm, Int.dvd_iff_emod_eq_zero]

/-- padd computes the law of R261 over the integers, with the coefficient written out: it stops at a zero
denominator alone. -/
theorem padd_int_spec (p q : Point) {e : Int} (he : e = -376014 * p.x * q.x * p.y * q.y) :
    if (1 + e) % P = 0 ∨ (1 - e) % P = 0 then padd p q = .error .noInverse
    else ∃ r, padd p q = .ok r ∧ Reduced r ∧
      ((r.x : Int) * (1 + e) - (p.x * q.y + p.y * q.x)) % P = 0 ∧
      ((r.y : Int) * (1 - e) - (p.y * q.y - p.x * q.x)) % P = 0 := by
  obtain ⟨m, hm⟩ : ∃ m, m = P := ⟨P, rfl⟩
  have hcast : (e : ZMod m) = ((D_CURVE : Nat) : ZMod m) * p.x * q.x * p.y * q.y := by
    rw [he, cast_D_CURVE hm]
    push_cast
    rfl
  have hspec := padd_spec hm p q hcast
  simp only [emod_P_eq_zero_iff hm]
  push_cast
  simpa only [sub_eq_zero] using hspec

/-- PADD checks the regions and then that the points are reduced, and ends as padd does (45_edwards.md R266). -/
theorem effectPadd_eq (s : State) :
    effectOf .padd s =
      if Fits s (arg s 0) 132 ∧ Fits s (arg s 1) 132 ∧ Fits s (arg s 2) 132 then
        if Reduced (readPoint s (arg s 0)) ∧ Reduced (readPoint s (arg s 1)) then
          (padd (readPoint s (arg s 0)) (readPoint s (arg s 1))).map fun r =>
            Effect.store (arg s 2) 132 (pointBytes r)
        else .error .range
      else .error .bounds := by
  simp only [effectOf, effectPadd, POINT_BYTES, checkRegion_bind, checkPoint_bind, ite_and (Fits _ _ _),
    ite_and (Reduced _)]
  cases padd (readPoint s (arg s 0)) (readPoint s (arg s 1)) <;> rfl

/-- Settles O47: by the checks of PADD and the addition law over the integers. -/
theorem paddComputesTheAdditionLaw : Obligations.PaddComputesTheAdditionLaw := by
  unfold Obligations.PaddComputesTheAdditionLaw
  rintro s _ _ e rfl rfl he h0 h1 h2
  have heff := (effectPadd_eq s).trans (if_pos ⟨h0, h1, h2⟩)
  have hlaw := padd_int_spec _ _ he
  refine ⟨fun hred => ?_, fun hp hq hzero => ?_, fun hp hq hplus hminus => ?_⟩
  · exact exec_failsWith (heff.trans (if_neg hred))
  · rw [if_pos hzero] at hlaw
    exact exec_failsWith_point (heff.trans (if_pos ⟨hp, hq⟩)) hlaw
  · rw [if_neg (not_or.2 ⟨hplus, hminus⟩)] at hlaw
    obtain ⟨r, hr, hrest⟩ := hlaw
    obtain ⟨t, ht, hok⟩ := exec_completesOk_point (heff.trans (if_pos ⟨hp, hq⟩)) hr
    exact ⟨t, r, ht, hok, hrest⟩

/-- Settles O48: on the curve no denominator of the addition law is 0, and the sum stays on the curve. -/
theorem paddOnTheCurveAlwaysCompletes : Obligations.PaddOnTheCurveAlwaysCompletes := by
  unfold Obligations.PaddOnTheCurveAlwaysCompletes
  rintro s _ _ rfl rfl h0 h1 h2 hp hq hpc hqc
  have heff := (effectPadd_eq s).trans ((if_pos ⟨h0, h1, h2⟩).trans (if_pos ⟨hp, hq⟩))
  obtain ⟨r, hr, hrc, hred⟩ := padd_onCurve hpc hqc
  obtain ⟨t, ht, hok⟩ := exec_completesOk_point heff hr
  exact ⟨t, r, ht, hok, hred, hrc⟩

/-! ### PMUL -/

theorem padd_NEUTRAL_self : padd NEUTRAL NEUTRAL = .ok NEUTRAL := by decide +kernel

/-- A computation that hands on its answer unchanged is that computation. -/
@[simp] theorem except_bind_ok {α : Type} (x : Except ResultCode α) : (x >>= fun a => Except.ok a) = x :=
  bind_pure x

/-- One bit of double-and-add (45_edwards.md R262). -/
theorem pmulFrom_succ (Q : Point) (k n : Nat) (V : Point) :
    pmulFrom Q k (n + 1) V = padd V V >>= fun W =>
      (if k.testBit n then padd W Q else .ok W) >>= pmulFrom Q k n := by
  rw [pmulFrom]
  refine bind_congr fun W => ?_
  cases k.testBit n <;> rfl

/-- The low bit of the scalar is the last one that double-and-add handles (45_edwards.md R262). -/
theorem pmulFrom_bit_succ (Q : Point) (b : Bool) (k n : Nat) (V : Point) :
    pmulFrom Q (Nat.bit b k) (n + 1) V = pmulFrom Q k n V >>= fun R =>
      padd R R >>= fun W => if b then padd W Q else .ok W := by
  induction n generalizing V with
  | zero =>
    rw [pmulFrom_succ, Nat.testBit_bit_zero]
    exact bind_congr fun W => except_bind_ok _
  | succ n ih =>
    rw [pmulFrom_succ, pmulFrom_succ, bind_assoc]
    refine bind_congr fun W => ?_
    rw [bind_assoc, Nat.testBit_bit_succ]
    exact bind_congr ih

/-- One more bit makes a number one bit longer. -/
theorem bitLen_bit {b : Bool} {k : Nat} (h : Nat.bit b k ≠ 0) : bitLen (Nat.bit b k) = bitLen k + 1 := by
  refine eq_of_forall_ge_iff fun j => ?_
  rw [bitLen_le_iff]
  cases j with
  | zero => simpa using h
  | succ j => rw [Nat.bit_lt_two_pow_succ_iff, Nat.succ_le_succ_iff, bitLen_le_iff]

/-- One more bit of the scalar doubles the multiple, and adds the point where the bit is 1; so also for the
scalar 0, because the double of the neutral element is itself. -/
theorem pmul_bit (Q : Point) (b : Bool) (k : Nat) :
    pmul Q (Nat.bit b k) = pmul Q k >>= fun V =>
      padd V V >>= fun W => if b then padd W Q else .ok W := by
  by_cases h : Nat.bit b k = 0
  · obtain ⟨rfl, rfl⟩ := Nat.bit_eq_zero_iff.1 h
    exact padd_NEUTRAL_self.symm
  · rw [pmul, bitLen_bit h, pmulFrom_bit_succ]
    rfl

/-- Settles O49: by the two values of the low bit of the scalar. -/
theorem scalarMultiplicationDoublesAndAdds : Obligations.ScalarMultiplicationDoublesAndAdds := by
  unfold Obligations.ScalarMultiplicationDoublesAndAdds
  intro Q k
  refine ⟨rfl, ?_, ?_⟩
  · simpa using pmul_bit Q false k
  · simpa using pmul_bit Q true k

/-- PMUL checks the regions and then that the point is reduced, and ends as pmul does (45_edwards.md R267). -/
theorem effectPmul_eq (s : State) :
    effectOf .pmul s =
      if Fits s (arg s 0) 132 ∧ Fits s (arg s 1) 66 ∧ Fits s (arg s 2) 132 then
        if Reduced (readPoint s (arg s 0)) then
          (pmul (readPoint s (arg s 0)) (readW66 s (arg s 1))).map fun r =>
            Effect.store (arg s 2) 132 (pointBytes r)
        else .error .range
      else .error .bounds := by
  simp only [effectOf, effectPmul, POINT_BYTES, W_BYTES, checkRegion_bind, checkPoint_bind,
    ite_and (Fits _ _ _)]
  cases pmul (readPoint s (arg s 0)) (readW66 s (arg s 1)) <;> rfl

/-- Settles O50: by the checks of PMUL; double-and-add stops at a zero denominator alone, and never on the
curve. -/
theorem pmulWritesTheMultiple : Obligations.PmulWritesTheMultiple := by
  unfold Obligations.PmulWritesTheMultiple
  rintro s _ _ rfl rfl h0 h1 h2
  have heff := (effectPmul_eq s).trans (if_pos ⟨h0, h1, h2⟩)
  refine ⟨fun hred hq => ?_, fun hred r hr => ?_, fun hred c hc => ?_, fun hred => ?_⟩
  · obtain ⟨r, hr, hrc, hrr⟩ := pmul_onCurve hq (readW66 s (arg s 1))
    obtain ⟨t, ht, hok⟩ := exec_completesOk_point (heff.trans (if_pos hred)) hr
    exact ⟨t, r, ht, hr, hrc, hrr, hok⟩
  · exact exec_completesOk_point (heff.trans (if_pos hred)) hr
  · cases pmul_eq_error hc
    exact exec_failsWith_point (heff.trans (if_pos hred)) hc
  · exact exec_failsWith (heff.trans (if_neg hred))

/-! ### PFROMX -/

/-- PFROMX checks the parity, the regions and the range, and ends as point_from_x does (45_edwards.md R268). -/
theorem effectPfromx_eq (s : State) :
    effectOf .pfromx s =
      if arg s 1 ≤ 1 then
        if Fits s (arg s 0) 66 ∧ Fits s (arg s 2) 132 then
          if readW66 s (arg s 0) < P then
            (pointFromX (readW66 s (arg s 0)) (arg s 1)).map fun r =>
              Effect.store (arg s 2) 132 (pointBytes r)
          else .error .range
        else .error .bounds
      else .error .badArg := by
  simp only [effectOf, effectPfromx, W_BYTES, POINT_BYTES, checkRegion_bind, checkField_bind, require_bind,
    ite_and]
  cases pointFromX (readW66 s (arg s 0)) (arg s 1) <;> rfl

/-- Settles O51: by the checks of PFROMX; point_from_x finds the point of the parity where there is one. -/
theorem pfromxFindsThePointOfTheParity : Obligations.PfromxFindsThePointOfTheParity := by
  unfold Obligations.PfromxFindsThePointOfTheParity
  rintro s _ rfl
  have heff := effectPfromx_eq s
  refine ⟨fun hpar => ?_, fun hpar h0 h2 => ?_⟩
  · exact exec_failsWith (heff.trans (if_neg (not_le.2 hpar)))
  · rw [if_pos hpar, if_pos ⟨h0, h2⟩] at heff
    generalize readW66 s (arg s 0) = x at heff ⊢
    obtain ⟨hpoint, hnone⟩ := pointFromX_spec (x := x) hpar
    refine ⟨fun hge => ?_, fun hlt => ⟨fun y hy hyc hyp => ?_, fun h => ?_⟩⟩
    · exact exec_failsWith (heff.trans (if_neg (not_lt.2 hge)))
    · exact exec_completesOk_point (heff.trans (if_pos hlt)) (hpoint y hy hyc hyp)
    · exact exec_failsWith_point (heff.trans (if_pos hlt)) (hnone h)

/-! ### PEQ -/

/-- PEQ checks the regions and then that the points are reduced, and compares both coordinates
(45_edwards.md R269). -/
theorem effectPeq_eq (s : State) :
    effectOf .peq s =
      if Fits s (arg s 0) 132 ∧ Fits s (arg s 1) 132 then
        if Reduced (readPoint s (arg s 0)) ∧ Reduced (readPoint s (arg s 1)) then
          .ok (Effect.flag (decide ((readPoint s (arg s 0)).x = (readPoint s (arg s 1)).x ∧
            (readPoint s (arg s 0)).y = (readPoint s (arg s 1)).y)))
        else .error .range
      else .error .bounds := by
  simp only [effectOf, effectPeq, POINT_BYTES, checkRegion_bind, checkPoint_bind, ite_and (Fits _ _ _),
    ite_and (Reduced _), Bool.decide_and]
  rfl

/-- Settles O52: by the checks of PEQ, whose outcome stages no write. -/
theorem peqComparesCoordinates : Obligations.PeqComparesCoordinates := by
  unfold Obligations.PeqComparesCoordinates
  rintro s _ _ rfl rfl
  have heff := effectPeq_eq s
  refine ⟨fun hfit => ?_, fun h0 h1 hred => ?_, fun h0 h1 hp hq => ?_⟩
  · exact exec_failsWith (heff.trans (if_neg hfit))
  · exact exec_failsWith (heff.trans ((if_pos ⟨h0, h1⟩).trans (if_neg hred)))
  · rw [if_pos ⟨h0, h1⟩, if_pos ⟨hp, hq⟩] at heff
    exact ⟨_, exec_of_ok heff, completesOk_flag s _ 0, rfl⟩

end Sys2Proof.Machine

/-! Key generation, the asymmetric cryptogram and the Schnorr signature: the commands KEYGEN, PK_ENC, PK_DEC,
SIGN and VERIFY (46_protocol_pk.md R290 to R299). -/

namespace Sys2Proof.Machine

/-! ### What the commands share -/

/-- The base point of an accepted instance has every multiple (00_scope.md R12, 45_edwards.md R262). -/
theorem pmul_basePoint {p : Params} (h : paramsAccepted p = true) (k : Nat) :
    ∃ R, pmul p.basePoint k = .ok R ∧ onCurve R = true ∧ Reduced R :=
  pmul_onCurve (onCurve_of_accepted h) k

theorem deriveS_eq (pw : Bytes) : deriveS pw = 4 * intBe (kmacxof256 pw [] 512 [0x4B]) := rfl

/-- A check of a flag goes on where the flag is set. -/
theorem require_flag_bind (b : Bool) (c : ResultCode) (f : Unit → Result) :
    (require b c >>= f) = if b = true then f () else .error c := by
  cases b <;> rfl

/-- An outcome that writes a byte string and says how long it is completes with its own flags. -/
theorem exec_completesOk {i : Instr} {s : State} {e : Effect} {a : Nat} {v : Bytes}
    (h : effectOf i s = .ok e) (hw : e.write = some { addr := a, data := v })
    (hn : e.outlen = v.length) :
    ∃ t, exec i s = .next t ∧ CompletesOk s t a v e.eq e.consume :=
  ⟨_, exec_of_ok h, completesOk_commit s hw hn⟩

/-- A command whose first computation stops, which double-and-add and the addition law do with one code,
fails with NO_INVERSE. -/
theorem exec_failsWith_noInverse {i : Instr} {s : State} {x : Except ResultCode Point} {c : ResultCode}
    {f : Point → Result} (heff : effectOf i s = x >>= f) (hx : x = .error c) (hc : c = .noInverse) :
    ∃ t, exec i s = .next t ∧ FailsWith s t .noInverse := by
  rw [hx, hc, except_error_bind] at heff
  exact exec_failsWith heff

/-- A part of a byte string read at an address is read at its own address. -/
theorem take_drop_memRead (s : State) (a : Nat) {n j k : Nat} (h : j + k ≤ n) :
    ((memRead s a n).drop j).take k = memRead s (a + j) k := by
  rw [drop_memRead s a n j (by omega), take_memRead s _ _ k (by omega)]

/-! ### KEYGEN -/

theorem effectKeygen_eq (s : State) :
    effectOf .keygen s =
      if Fits s (arg s 0) (arg s 1) ∧ Fits s (arg s 2) 132 then
        (pmul s.params.basePoint (deriveS (memRead s (arg s 0) (arg s 1)))).map fun V =>
          Effect.store (arg s 2) 132 (pointBytes V)
      else .error .bounds := by
  simp only [effectOf, effectKeygen, POINT_BYTES, checkRegion_bind, ite_and]
  cases pmul s.params.basePoint (deriveS (memRead s (arg s 0) (arg s 1))) <;> rfl

/-- Settles O53: by whether the regions fit; the base point has the multiple, on the curve. -/
theorem keygenDerivesThePublicKey : Obligations.KeygenDerivesThePublicKey := by
  unfold Obligations.KeygenDerivesThePublicKey
  refine fun s hacc => ⟨fun h0 h2 => ?_, fun hfit => ?_⟩
  · obtain ⟨V, hV, hVc, -⟩ := pmul_basePoint hacc (deriveS (memRead s (arg s 0) (arg s 1)))
    obtain ⟨t, ht, hok⟩ := exec_completesOk_point ((effectKeygen_eq s).trans (if_pos ⟨h0, h2⟩)) hV
    rw [deriveS_eq] at hV
    exact ⟨t, V, ht, hV, hVc, hok⟩
  · exact exec_failsWith ((effectKeygen_eq s).trans (if_neg hfit))

/-! ### The keys of the shared point -/

/-- The cipher of the cryptogram under the shared point W, the same for PK_ENC and PK_DEC (46_protocol_pk.md
R293 to R295). -/
def sharedStream (W : Point) (data : Bytes) : Bytes := streamXor (kdfPk W).1 data strPKE

/-- The tag of a message under the shared point W (46_protocol_pk.md R293 to R295). -/
def sharedTag (W : Point) (M : Bytes) : Bytes := kmacxof256 (kdfPk W).2 M 512 strPKA

@[simp] theorem length_sharedStream (W : Point) (data : Bytes) :
    (sharedStream W data).length = data.length := length_streamXor _ _ _

@[simp] theorem length_sharedTag (W : Point) (M : Bytes) : (sharedTag W M).length = 64 :=
  length_kmacxof256 _ _ _ _

section
variable {W : Point} {kk : Bytes} (hkk : kk = kmacxof256 (W66 W.x) [] 1024 [0x50])
include hkk

/-- The second key is all that the first one leaves of the 128 bytes (46_protocol_pk.md R293). -/
theorem kdfPk_eq : kdfPk W = (kk.take 64, kk.drop 64) := by
  have hrest : (kk.drop 64).length ≤ 64 := by rw [hkk, List.length_drop, length_kmacxof256]
  rw [← List.take_of_length_le hrest, hkk]
  rfl

theorem sharedStream_eq (data : Bytes) :
    sharedStream W data =
      xorBytes (kmacxof256 (kk.take 64) [] (8 * data.length) [0x50, 0x4B, 0x45]) data := by
  rw [sharedStream, kdfPk_eq hkk, streamXor, strPKE]

theorem sharedTag_eq (M : Bytes) :
    sharedTag W M = kmacxof256 (kk.drop 64) M 512 [0x50, 0x4B, 0x41] := by
  rw [sharedTag, kdfPk_eq hkk, strPKA]

end

/-! ### PK_ENC -/

/-- A cryptogram is 196 bytes longer than its message (46_protocol_pk.md R294). -/
theorem length_cryptogram (Z W : Point) (M : Bytes) :
    (pointBytes Z ++ sharedStream W M ++ sharedTag W M).length = 196 + M.length := by
  simp only [List.length_append, length_pointBytes, length_sharedStream, length_sharedTag]
  omega

/-- PK_ENC checks the regions, the randomness and the range of V, and multiplies V before the base point
(46_protocol_pk.md R294). -/
theorem effectPkEnc_eq (s : State) :
    effectOf .pkEnc s =
      if Fits s (arg s 0) (arg s 1) ∧ Fits s (arg s 2) 132 ∧ Fits s (arg s 3) (196 + arg s 1) then
        if s.latch.rndValid = true then
          if Reduced (readPoint s (arg s 2)) then
            pmul (readPoint s (arg s 2)) (4 * intBe s.latch.rndbuf.toList) >>= fun W =>
              (pmul s.params.basePoint (4 * intBe s.latch.rndbuf.toList)).map fun Z =>
                { Effect.store (arg s 3) (196 + arg s 1)
                    (pointBytes Z ++ sharedStream W (memRead s (arg s 0) (arg s 1)) ++
                      sharedTag W (memRead s (arg s 0) (arg s 1))) with consume := true }
          else .error .range
        else .error .noRnd
      else .error .bounds := by
  simp only [effectOf, effectPkEnc, POINT_BYTES, COFACTOR, latchedRnd, checkRegion_bind, checkPoint_bind,
    require_flag_bind, ite_and (Fits _ _ _)]
  cases pmul s.params.basePoint (4 * intBe s.latch.rndbuf.toList) <;> rfl

/-- Settles O54: by the checks of PK_ENC; the base point has the multiple Z, so only the multiple of V can
stop. -/
theorem pkEncWritesTheCryptogram : Obligations.PkEncWritesTheCryptogram := by
  unfold Obligations.PkEncWritesTheCryptogram
  rintro s V M k hacc rfl rfl rfl h0 h2 h3
  have heff := (effectPkEnc_eq s).trans (if_pos ⟨h0, h2, h3⟩)
  refine ⟨fun hrnd => ?_, fun hrnd hred => ?_, fun hV => ?_, fun hrnd hred W hW => ?_,
    fun hrnd hred c hc => ?_⟩
  · exact exec_failsWith (heff.trans (if_neg (by simp [hrnd])))
  · exact exec_failsWith (heff.trans ((if_pos hrnd).trans (if_neg hred)))
  · obtain ⟨W, hW, -⟩ := pmul_onCurve hV (4 * intBe s.latch.rndbuf.toList)
    exact ⟨W, hW⟩
  · obtain ⟨Z, hZ, -⟩ := pmul_basePoint hacc (4 * intBe s.latch.rndbuf.toList)
    rw [if_pos hrnd, if_pos hred, hW, hZ, except_ok_bind] at heff
    obtain ⟨t, ht, hok⟩ := exec_completesOk heff rfl (by rw [length_cryptogram, length_memRead]; rfl)
    rw [sharedStream_eq rfl, sharedTag_eq rfl] at hok
    exact ⟨t, Z, _, ht, hZ, rfl, hok⟩
  · rw [if_pos hrnd, if_pos hred] at heff
    exact exec_failsWith_noInverse heff hc (pmul_eq_error hc)

/-! ### PK_DEC -/

/-- PK_DEC reads Z, c and the tag from the cryptogram, checks the range of Z, and stages the plaintext only
where the tags are equal (46_protocol_pk.md R295, R299). -/
theorem effectPkDec_eq {s : State} (hlen : 196 ≤ arg s 3) (h0 : Fits s (arg s 0) (arg s 1))
    (h2 : Fits s (arg s 2) (arg s 3)) (h4 : Fits s (arg s 4) (arg s 3 - 196)) {c : Bytes}
    (hc : c = memRead s (arg s 2 + 132) (arg s 3 - 196)) :
    effectOf .pkDec s =
      if Reduced (readPoint s (arg s 2)) then
        pmul (readPoint s (arg s 2)) (deriveS (memRead s (arg s 0) (arg s 1))) >>= fun W =>
          if sharedTag W (sharedStream W c) = memRead s (arg s 2 + arg s 3 - 64) 64 then
            .ok { Effect.store (arg s 4) (arg s 3 - 196) (sharedStream W c) with eq := true }
          else .error .authFail
      else .error .range := by
  have hx : (memRead s (arg s 2) (arg s 3)).take 66 = memRead s (arg s 2) 66 :=
    take_memRead _ _ _ _ (by omega)
  have hy : ((memRead s (arg s 2) (arg s 3)).drop 66).take 66 = memRead s (arg s 2 + 66) 66 :=
    take_drop_memRead _ _ (by omega)
  have hbody : ((memRead s (arg s 2) (arg s 3)).drop 132).take (arg s 3 - 196) = c :=
    (take_drop_memRead _ _ (by omega)).trans hc.symm
  have htag : (memRead s (arg s 2) (arg s 3)).drop (132 + (arg s 3 - 196)) =
      memRead s (arg s 2 + arg s 3 - 64) 64 := by
    have haddr : arg s 2 + (132 + (arg s 3 - 196)) = arg s 2 + arg s 3 - 64 := by omega
    have hn : arg s 3 - (132 + (arg s 3 - 196)) = 64 := by omega
    rw [drop_memRead _ _ _ _ (by omega), haddr, hn]
  simp only [effectOf, effectPkDec, checkRegion_bind, checkPoint_bind, require_bind, if_pos hlen, if_pos h0,
    if_pos h2, if_pos h4, hx, hy, hbody, htag]
  rfl

/-- Settles O55: by the range of Z, by whether double-and-add answers and by whether the tags are equal. -/
theorem pkDecReleasesOnlyAuthenticPlaintext : Obligations.PkDecReleasesOnlyAuthenticPlaintext := by
  unfold Obligations.PkDecReleasesOnlyAuthenticPlaintext
  rintro s Z k c hlen h0 h2 h4 rfl hc hk
  have heff := effectPkDec_eq hlen h0 h2 h4 hc
  rw [deriveS_eq, ← hk] at heff
  refine ⟨fun hred => ?_, fun hZ => ?_, ?_, fun hred e he => ?_⟩
  · exact exec_failsWith (heff.trans (if_neg hred))
  · obtain ⟨W, hW, -⟩ := pmul_onCurve hZ k
    exact ⟨W, hW⟩
  · rintro hred W hW kk M t' hkk hM ht'
    rw [if_pos hred, hW, except_ok_bind, sharedStream_eq hkk, ← hM, sharedTag_eq hkk, ← ht'] at heff
    refine ⟨fun heq => ?_, fun hne => ?_⟩
    · have hMlen : M.length = arg s 3 - 196 := by
        rw [hM, ← sharedStream_eq hkk, length_sharedStream, hc, length_memRead]
      exact exec_completesOk (heff.trans (if_pos heq.symm)) rfl hMlen.symm
    · exact exec_failsWith (heff.trans (if_neg hne.symm))
  · exact exec_failsWith_noInverse (heff.trans (if_pos hred)) he (pmul_eq_error he)

/-! ### SIGN -/

theorem R_ORDER_pos : 0 < R_ORDER := by decide +kernel

theorem signNonce_eq (priv : Nat) (M : Bytes) :
    signNonce priv M = 4 * intBe (kmacxof256 (W66 priv) M 512 [0x4E]) := rfl

/-- SIGN checks the regions, then ends as the multiple of the base point does (46_protocol_pk.md R297). -/
theorem effectSign_eq {s : State} {M : Bytes} {priv k : Nat} (hM : M = memRead s (arg s 0) (arg s 1))
    (hpriv : priv = deriveS (memRead s (arg s 2) (arg s 3))) (hk : k = signNonce priv M) :
    effectOf .sign s =
      if Fits s (arg s 0) (arg s 1) ∧ Fits s (arg s 2) (arg s 3) ∧ Fits s (arg s 4) 130 then
        (pmul s.params.basePoint k).map fun U =>
          Effect.store (arg s 4) 130
            (challenge U M ++ W66 (subMod k (intBe (challenge U M) * priv) R_ORDER))
      else .error .bounds := by
  simp only [effectOf, effectSign, checkRegion_bind, ← hM, ← hpriv, ← hk, ite_and]
  cases pmul s.params.basePoint k <;> rfl

/-- Settles O56: by whether the regions fit; the base point has the multiple U, and a residue is congruent to
its difference. -/
theorem signWritesTheSignature : Obligations.SignWritesTheSignature := by
  unfold Obligations.SignWritesTheSignature
  rintro s M priv k hacc hM hpriv hk
  have heff := effectSign_eq hM (hpriv.trans (deriveS_eq _).symm) (hk.trans (signNonce_eq _ _).symm)
  refine ⟨fun h0 h2 h4 => ?_, fun hfit => ?_⟩
  · obtain ⟨U, hU, -⟩ := pmul_basePoint hacc k
    rw [if_pos ⟨h0, h2, h4⟩, hU] at heff
    obtain ⟨t, ht, hok⟩ := exec_completesOk_store heff (by simp)
    have hres := sub_subMod_emod k (intBe (challenge U M) * priv) R_ORDER_pos
    rw [Nat.cast_mul] at hres
    exact ⟨t, U, _, _, ht, hU, rfl, subMod_lt _ _ R_ORDER_pos, hres, hok⟩
  · exact exec_failsWith (heff.trans (if_neg hfit))

/-! ### VERIFY -/

/-- VERIFY checks the regions and the range of V, reads h and z from the signature, and accepts by the
challenge of the recomputed point (46_protocol_pk.md R298). -/
theorem effectVerify_eq {s : State} {A : Point}
    (hA : pmul s.params.basePoint (readW66 s (arg s 2 + 64)) = .ok A) :
    effectOf .verify s =
      if Fits s (arg s 0) (arg s 1) ∧ Fits s (arg s 2) 130 ∧ Fits s (arg s 3) 132 then
        if Reduced (readPoint s (arg s 3)) then
          (pmul (readPoint s (arg s 3)) (intBe (memRead s (arg s 2) 64)) >>= padd A) >>= fun U =>
            if challenge U (memRead s (arg s 0) (arg s 1)) = memRead s (arg s 2) 64 then
              .ok (Effect.flag true)
            else .error .authFail
        else .error .range
      else .error .bounds := by
  have hh : (memRead s (arg s 2) 130).take 64 = memRead s (arg s 2) 64 :=
    take_memRead _ _ _ _ (by omega)
  have hz : intBe ((memRead s (arg s 2) 130).drop 64) = readW66 s (arg s 2 + 64) :=
    congrArg intBe (drop_memRead _ _ _ _ (by omega))
  simp only [effectOf, effectVerify, POINT_BYTES, checkRegion_bind, checkPoint_bind, require_bind, hh, hz, hA,
    except_ok_bind, bind_assoc, ite_and (Fits _ _ _)]
  rfl

/-- A multiple and a sum stop at a zero denominator alone (45_edwards.md R261, R262). -/
theorem pmul_padd_eq_error {A V : Point} {k : Nat} {c : ResultCode}
    (h : (pmul V k >>= padd A) = .error c) : c = .noInverse := by
  obtain h | ⟨B, -, h⟩ := except_bind_eq_error.1 h
  · exact pmul_eq_error h
  · exact padd_eq_error h

/-- Settles O57: by the range of V, by whether the recomputed point is there and by whether its challenge is
that of the signature; the outcome stages no write. -/
theorem verifyAcceptsTheMatchingChallenge : Obligations.VerifyAcceptsTheMatchingChallenge := by
  unfold Obligations.VerifyAcceptsTheMatchingChallenge
  rintro s V h M z hacc h0 h2 h3 rfl rfl rfl rfl
  obtain ⟨A, hA, hAc, -⟩ := pmul_basePoint hacc (readW66 s (arg s 2 + 64))
  have heff := (effectVerify_eq hA).trans (if_pos ⟨h0, h2, h3⟩)
  refine ⟨fun hred => ?_, A, hA, fun hV => ?_, fun hred B U hB hU => ?_, fun hred c hc => ?_⟩
  · exact exec_failsWith (heff.trans (if_neg hred))
  · obtain ⟨B, hB, hBc, -⟩ := pmul_onCurve hV (intBe (memRead s (arg s 2) 64))
    obtain ⟨U, hU, -⟩ := padd_onCurve hAc hBc
    exact ⟨B, U, hB, hU⟩
  · rw [if_pos hred, hB, except_ok_bind, hU, except_ok_bind, challenge, strT] at heff
    by_cases heq : kmacxof256 (W66 U.x) (memRead s (arg s 0) (arg s 1)) 512 [0x54] =
        memRead s (arg s 2) 64
    · rw [if_pos heq] at heff
      exact ⟨_, exec_of_ok heff, rfl, fun _ => completesOk_flag s true 0, fun hne => absurd heq hne⟩
    · rw [if_neg heq] at heff
      exact ⟨_, exec_of_error heff, rfl, fun h => absurd h heq, fun _ => failsWith_failWith s _⟩
  · exact exec_failsWith_noInverse (heff.trans (if_pos hred)) hc (pmul_padd_eq_error hc)

end Sys2Proof.Machine

/-! The symmetric passphrase cryptogram: the commands SYM_ENC and SYM_DEC, and that one undoes the other
(47_protocol_sym.md R320 to R322). -/

namespace Sys2Proof.Machine

/-! ### The keys of the passphrase -/

/-- The cipher of the blob under the randomness z and the passphrase, the same for SYM_ENC and SYM_DEC
(47_protocol_sym.md R320, R321). -/
def passphraseStream (z pw data : Bytes) : Bytes := streamXor (kdfSym z pw).1 data strSKE

/-- The tag of a message under the randomness z and the passphrase (47_protocol_sym.md R320, R321). -/
def passphraseTag (z pw M : Bytes) : Bytes := kmacxof256 (kdfSym z pw).2 M 512 strSKA

/-- The blob that SYM_ENC writes: z, the enciphered message and the tag (47_protocol_sym.md R320). -/
def symBlob (z pw M : Bytes) : Bytes := z ++ passphraseStream z pw M ++ passphraseTag z pw M

@[simp] theorem length_passphraseStream (z pw data : Bytes) :
    (passphraseStream z pw data).length = data.length := length_streamXor _ _ _

@[simp] theorem length_passphraseTag (z pw M : Bytes) : (passphraseTag z pw M).length = 64 :=
  length_kmacxof256 _ _ _ _

/-- A blob is 128 bytes longer than its message (47_protocol_sym.md R320). -/
theorem length_symBlob {z : Bytes} (hz : z.length = 64) (pw M : Bytes) :
    (symBlob z pw M).length = 128 + M.length := by
  simp only [symBlob, List.length_append, length_passphraseStream, length_passphraseTag, hz]
  omega

/-- The cipher is its own inverse, because the keystream depends on the length of the data alone. -/
theorem passphraseStream_passphraseStream (z pw M : Bytes) :
    passphraseStream z pw (passphraseStream z pw M) = M := by
  rw [passphraseStream, streamXor, length_passphraseStream]
  refine xorBytes_cancel _ M ?_
  rw [length_kmacxof256, Nat.mul_div_cancel_left _ (by decide)]

section
variable {z pw kk : Bytes} (hkk : kk = kmacxof256 (z ++ pw) [] 1024 [0x53])
include hkk

/-- The second key is all that the first one leaves of the 128 bytes (47_protocol_sym.md R320). -/
theorem kdfSym_eq : kdfSym z pw = (kk.take 64, kk.drop 64) := by
  have hrest : (kk.drop 64).length ≤ 64 := by rw [hkk, List.length_drop, length_kmacxof256]
  rw [← List.take_of_length_le hrest, hkk]
  rfl

theorem passphraseStream_eq (data : Bytes) :
    passphraseStream z pw data =
      xorBytes (kmacxof256 (kk.take 64) [] (8 * data.length) [0x53, 0x4B, 0x45]) data := by
  rw [passphraseStream, kdfSym_eq hkk, streamXor, strSKE]

theorem passphraseTag_eq (M : Bytes) :
    passphraseTag z pw M = kmacxof256 (kk.drop 64) M 512 [0x53, 0x4B, 0x41] := by
  rw [passphraseTag, kdfSym_eq hkk, strSKA]

end

/-! ### SYM_ENC -/

/-- SYM_ENC checks the regions and then the randomness (47_protocol_sym.md R320). -/
theorem effectSymEnc_eq (s : State) :
    effectOf .symEnc s =
      if Fits s (arg s 0) (arg s 1) ∧ Fits s (arg s 2) (arg s 3) ∧ Fits s (arg s 4) (128 + arg s 1) then
        if s.latch.rndValid = true then
          .ok { Effect.store (arg s 4) (128 + arg s 1)
                  (symBlob s.latch.rndbuf.toList (memRead s (arg s 2) (arg s 3))
                    (memRead s (arg s 0) (arg s 1))) with consume := true }
        else .error .noRnd
      else .error .bounds := by
  simp only [effectOf, effectSymEnc, latchedRnd, checkRegion_bind, require_flag_bind, ite_and (Fits _ _ _)]
  rfl

/-- Settles O58: by whether the regions fit and by whether there is randomness. -/
theorem symEncWritesTheBlob : Obligations.SymEncWritesTheBlob := by
  unfold Obligations.SymEncWritesTheBlob
  rintro s M pw z kk hM hpw hz hkk
  have heff := effectSymEnc_eq s
  rw [← hM, ← hpw, ← hz] at heff
  refine ⟨fun hfit => exec_failsWith (heff.trans (if_neg hfit)),
    fun h0 h2 h4 => ⟨fun hrnd => ?_, fun hrnd => ?_⟩⟩
  · exact exec_failsWith (heff.trans ((if_pos ⟨h0, h2, h4⟩).trans (if_neg (by simp [hrnd]))))
  · rw [if_pos ⟨h0, h2, h4⟩, if_pos hrnd] at heff
    have hlen : 128 + arg s 1 = (symBlob z pw M).length := by
      rw [length_symBlob (by simp [hz]), hM, length_memRead]
    rw [← passphraseStream_eq hkk, ← passphraseTag_eq hkk]
    exact exec_completesOk heff rfl hlen

/-! ### SYM_DEC -/

/-- The length of the blob is checked before any region (47_protocol_sym.md R321). -/
theorem effectSymDec_of_short {s : State} (hlen : arg s 1 < 128) :
    effectOf .symDec s = .error .badLength := by
  simp only [effectOf, effectSymDec, require_bind, if_neg (not_le.2 hlen)]

/-- SYM_DEC reads z, c and the tag from the blob, and stages the plaintext only where the tags are equal
(47_protocol_sym.md R321, 46_protocol_pk.md R299). -/
theorem effectSymDec_eq {s : State} (hlen : 128 ≤ arg s 1) (h0 : Fits s (arg s 0) (arg s 1))
    (h2 : Fits s (arg s 2) (arg s 3)) (h4 : Fits s (arg s 4) (arg s 1 - 128)) {z c pw M : Bytes}
    (hz : z = memRead s (arg s 0) 64) (hc : c = memRead s (arg s 0 + 64) (arg s 1 - 128))
    (hpw : pw = memRead s (arg s 2) (arg s 3)) (hM : M = passphraseStream z pw c) :
    effectOf .symDec s =
      if passphraseTag z pw M = memRead s (arg s 0 + arg s 1 - 64) 64 then
        .ok { Effect.store (arg s 4) (arg s 1 - 128) M with eq := true }
      else .error .authFail := by
  have hseed : (memRead s (arg s 0) (arg s 1)).take 64 = z :=
    (take_memRead _ _ _ _ (by omega)).trans hz.symm
  have hbody : ((memRead s (arg s 0) (arg s 1)).drop 64).take (arg s 1 - 128) = c :=
    (take_drop_memRead _ _ (by omega)).trans hc.symm
  have htag : (memRead s (arg s 0) (arg s 1)).drop (64 + (arg s 1 - 128)) =
      memRead s (arg s 0 + arg s 1 - 64) 64 := by
    have haddr : arg s 0 + (64 + (arg s 1 - 128)) = arg s 0 + arg s 1 - 64 := by omega
    have hn : arg s 1 - (64 + (arg s 1 - 128)) = 64 := by omega
    rw [drop_memRead _ _ _ _ (by omega), haddr, hn]
  simp only [effectOf, effectSymDec, checkRegion_bind, require_bind, if_pos hlen, if_pos h0, if_pos h2,
    if_pos h4, hseed, hbody, htag, ← hpw, hM]
  rfl

/-- Settles O59: by the length of the blob and by whether the tags are equal. -/
theorem symDecReleasesOnlyAuthenticPlaintext : Obligations.SymDecReleasesOnlyAuthenticPlaintext := by
  unfold Obligations.SymDecReleasesOnlyAuthenticPlaintext
  rintro s z c M pw kk hz hc hpw hkk hM
  rw [← passphraseStream_eq hkk] at hM
  refine ⟨fun hlen => exec_failsWith (effectSymDec_of_short hlen), fun hlen h0 h2 h4 => ?_⟩
  have heff := effectSymDec_eq hlen h0 h2 h4 hz hc hpw hM
  rw [← passphraseTag_eq hkk]
  refine ⟨fun heq => ?_, fun hne => ?_⟩
  · have hMlen : arg s 1 - 128 = M.length := by
      rw [hM, length_passphraseStream, hc, length_memRead]
    exact exec_completesOk (heff.trans (if_pos heq.symm)) rfl hMlen
  · exact exec_failsWith (heff.trans (if_neg hne.symm))

/-! ### The round trip -/

/-- SYM_ENC that completes with OK leaves its blob at the destination (47_protocol_sym.md R320). -/
theorem memRead_of_exec_symEnc {s t : State} (h : exec .symEnc s = .next t) (hrc : t.rc = .ok) :
    memRead t (arg s 4) (128 + arg s 1) =
      symBlob s.latch.rndbuf.toList (memRead s (arg s 2) (arg s 3)) (memRead s (arg s 0) (arg s 1)) := by
  obtain ⟨e, he, rfl⟩ | ⟨c, hc, rfl⟩ := exec_cases h
  · rw [effectSymEnc_eq] at he
    split_ifs at he
    cases he
    have hlen := length_symBlob (z := s.latch.rndbuf.toList) (by simp) (memRead s (arg s 2) (arg s 3))
      (memRead s (arg s 0) (arg s 1))
    rw [length_memRead] at hlen
    rw [← hlen]
    exact memRead_commit rfl
  · exact absurd (hc.trans (congrArg _ hrc)) (effect_error_ne_ok _ s)

/-- SYM_DEC of a blob under its own passphrase stages the message (47_protocol_sym.md R322). -/
theorem effectSymDec_of_symBlob {d : State} {z pw M : Bytes} (hz : z.length = 64)
    (hblob : memRead d (arg d 0) (arg d 1) = symBlob z pw M) (hpw : memRead d (arg d 2) (arg d 3) = pw)
    (h0 : Fits d (arg d 0) (arg d 1)) (h2 : Fits d (arg d 2) (arg d 3)) (h4 : Fits d (arg d 4) M.length) :
    effectOf .symDec d = .ok { Effect.store (arg d 4) M.length M with eq := true } := by
  have hlen : arg d 1 = 128 + M.length := by
    rw [← length_symBlob hz pw, ← hblob, length_memRead]
  have hn : arg d 1 - 128 = M.length := by omega
  have hseed : z = memRead d (arg d 0) 64 := by
    rw [← take_memRead d _ (arg d 1) _ (by omega), hblob, symBlob, List.append_assoc,
      List.take_left' hz]
  have hbody : passphraseStream z pw M = memRead d (arg d 0 + 64) (arg d 1 - 128) := by
    rw [← take_drop_memRead d _ (n := arg d 1) (by omega), hblob, symBlob, List.append_assoc,
      List.drop_left' hz, List.take_left' (by simp [hn])]
  have htag : passphraseTag z pw M = memRead d (arg d 0 + arg d 1 - 64) 64 := by
    have haddr : arg d 0 + arg d 1 - 64 = arg d 0 + (64 + M.length) := by omega
    have hrest : arg d 1 - (64 + M.length) = 64 := by omega
    have hdrop := drop_memRead d (arg d 0) (arg d 1) (64 + M.length) (by omega)
    rwa [hblob, symBlob, List.drop_left' (by simp [hz]), hrest, ← haddr] at hdrop
  rw [effectSymDec_eq (by omega) h0 h2 (hn ▸ h4) hseed hbody hpw.symm
    (passphraseStream_passphraseStream z pw M).symm, if_pos htag, hn]

/-- Settles O60: the blob that SYM_ENC left decrypts to the message, because its parts have fixed lengths, the
cipher is its own inverse and the tag is that of the same message. -/
theorem symmetricRoundTripReturnsTheMessage : Obligations.SymmetricRoundTripReturnsTheMessage := by
  unfold Obligations.SymmetricRoundTripReturnsTheMessage
  rintro s t d _ _ henc hrc - - rfl hpwLen rfl hblob hpw h0 h2 h4
  rw [memRead_of_exec_symEnc henc hrc] at hblob
  have hlen : (memRead s (arg s 0) (arg s 1)).length = arg s 1 := length_memRead _ _ _
  have heff := effectSymDec_of_symBlob (by simp) hblob (by rwa [hpwLen]) h0 (hpwLen.symm ▸ h2)
    (hlen.symm ▸ h4)
  refine ⟨_, exec_of_ok heff, rfl, rfl, ?_, ?_⟩
  · rw [State.commit_outlen, BitVec.toNat_ofNat]
    exact (congrArg (· % 2 ^ 32) hlen).trans (Nat.mod_eq_of_lt (s.latch.args[1]).isLt)
  · have hread := memRead_commit (s := d)
      (e := { Effect.store (arg d 4) (memRead s (arg s 0) (arg s 1)).length
                (memRead s (arg s 0) (arg s 1)) with eq := true }) rfl
    rwa [hlen] at hread

end Sys2Proof.Machine

/-! Soft reset and abort (70_reset_and_hazards.md R372, R373). -/

namespace Sys2Proof.Machine

/-- Bit 1 of a CTRL write, as the rules write it (10_state.md R37). -/
theorem srst_of_div_mod {v : Word} (h : v.toNat / 2 ^ 1 % 2 = 1) : v.getLsbD 1 = true := by
  rw [getLsbD_eq_decide, h]
  rfl

/-- Settles O15: in IDLE the write is the soft reset, which keeps BUF and the host's side. -/
theorem softResetKeepsOnlyBuf : Obligations.SoftResetKeepsOnlyBuf := by
  unfold Obligations.SoftResetKeepsOnlyBuf
  intro s v rest h hsrst hp
  refine ⟨Latch.reset, ?_⟩
  rw [step_regWrite h regAt_ctrl]
  simp only [State.regWrite, State.writeCtrl, if_pos (srst_of_div_mod hsrst), hp]
  rfl

/-! ### Abort -/

/-- After an abort the registers are those after a reset (70_reset_and_hazards.md R373). -/
theorem resetRegisters_abort (s : State) (r : Result) : (s.abort r).resetRegisters = s.abort r := by
  cases r with
  | error c => rfl
  | ok e =>
    simp only [State.abort]
    split <;> rfl

theorem inFlightResult_of_ok {s : State} {i : Instr} (h : decode s.latch.cmd = .ok i) :
    inFlightResult s = effectOf i s := by
  simp only [inFlightResult, h]

theorem inFlightResult_of_error {s : State} {e : DecodeError} (h : decode s.latch.cmd = .error e) :
    inFlightResult s = .error (decodeErrorCode e) := by
  simp only [inFlightResult, h]

/-- The events to come are nothing to the command in flight (40_command.md R142). -/
theorem inFlightResult_schedule (s : State) (rest : List Event) :
    inFlightResult { s with schedule := rest } = inFlightResult s := by
  unfold inFlightResult
  cases decode s.latch.cmd with
  | error e => rfl
  | ok i => exact effectOf_congr rfl rfl rfl rfl fun _ _ => rfl

theorem abort_schedule (s : State) (rest : List Event) (r : Result) :
    ({ s with schedule := rest } : State).abort r = { s.abort r with schedule := rest } := by
  cases r with
  | error c => rfl
  | ok e =>
    simp only [State.abort]
    split <;> rfl

theorem writeCtrl_of_busy {s : State} {v : Word} (hp : s.phase = .busy) (h : v.getLsbD 1 = true) :
    s.writeCtrl v = s.abort (inFlightResult s) := by
  simp only [State.writeCtrl, if_pos h, hp]

/-- The step of a CTRL write with SRST in BUSY (70_reset_and_hazards.md R373). -/
theorem step_abort {s : State} {v : Word} {rest : List Event}
    (h : NextEvent s (.host (.regWrite 0x008 32 v)) rest) (hsrst : v.toNat / 2 ^ 1 % 2 = 1)
    (hp : s.phase = .busy) :
    step s = .next { s.abort (inFlightResult s) with schedule := rest, reply := .none } := by
  have hctrl : ({ s with schedule := rest } : State).writeCtrl v =
      { s.abort (inFlightResult s) with schedule := rest } := by
    rw [writeCtrl_of_busy (s := { s with schedule := rest }) hp (srst_of_div_mod hsrst),
      inFlightResult_schedule, abort_schedule]
  rw [step_regWrite h regAt_ctrl, State.regWrite, hctrl]

/-- An abort of a command without a destination leaves BUF (70_reset_and_hazards.md R373). -/
theorem OkEffect.abort_buf_of_no_dst {i : Instr} {s : State} {e : Effect} (h : OkEffect i s e)
    (hd : dstArg i = none) : (s.abort (.ok e)).buf = s.buf := by
  obtain ⟨hw, -⟩ := h.nothing hd
  simp only [State.abort, hw, State.softReset_buf]

/-- An abort leaves every byte outside the destination (70_reset_and_hazards.md R373). -/
theorem OkEffect.read_abort_of_outside {i : Instr} {s : State} {e : Effect} (h : OkEffect i s e)
    {k : Fin 8} (hk : dstArg i = some k) {a : Nat}
    (ha : ¬ (arg s k ≤ a ∧ a < arg s k + e.outlen)) :
    (s.abort (.ok e)).buf.read a = s.buf.read a := by
  obtain ⟨v, hw, ho, -⟩ := h.region k hk
  rw [ho] at ha
  simp only [State.abort, hw]
  rw [Memory.read_write, length_abortedBytes, if_neg ha]

/-- Settles O16: the write aborts with the outcome of the command in flight; a failing outcome leaves BUF, and
an OK one all that the command would not have written. -/
theorem abortLosesOnlyTheDestination : Obligations.AbortLosesOnlyTheDestination := by
  unfold Obligations.AbortLosesOnlyTheDestination
  intro s v rest h hsrst hp
  have haw := wfBufAw_of_accepted h.accepted
  obtain ⟨hparams, hhost, -, -⟩ := abort_host s (inFlightResult s)
  have hreset : HasResetValues { s.abort (inFlightResult s) with schedule := rest, reply := .none } :=
    hasResetValues_of_resetRegisters (hparams ▸ haw)
      (congrArg (fun t : State => { t with schedule := rest, reply := .none }) (resetRegisters_abort s _))
  refine ⟨_, step_abort h hsrst hp, hreset, hparams, rfl, hhost.trans h.running, fun e hd => ?_,
    fun i u hd hu => ?_⟩
  · rw [inFlightResult_of_error hd]
    rfl
  · rw [inFlightResult_of_ok hd]
    obtain ⟨e, he, rfl⟩ | ⟨c, hc, rfl⟩ := exec_cases hu
    · have hok := effect_ok he
      obtain ⟨hout, -⟩ := hok.toNat_outlen haw
      rw [he]
      refine ⟨fun hrc => absurd rfl hrc, hok.abort_buf_of_no_dst, fun k hk _ a ha => ?_⟩
      rw [hout] at ha
      exact hok.read_abort_of_outside hk ha
    · rw [hc]
      exact ⟨fun _ => rfl, fun _ => rfl, fun _ _ _ _ _ => rfl⟩

end Sys2Proof.Machine

/-! What a completion shows of itself, and the order and the source of its result codes (60_exceptions.md R341
to R352). -/

namespace Sys2Proof.Machine

/-! ### Failing completions -/

/-- Settles O25: a command that does not end with OK ended with a failing outcome. -/
theorem failedCommandChangesNothing : Obligations.FailedCommandChangesNothing := by
  unfold Obligations.FailedCommandChangesNothing
  intro i s t h hrc
  obtain ⟨e, -, rfl⟩ | ⟨c, -, rfl⟩ := exec_cases h
  · exact absurd rfl hrc
  · exact failsWith_failWith s c

/-! ### The order of the checks -/

/-- The region checks of a list, in order, and then the rest of the command. -/
def checkRegionsThen (s : State) (rest : Result) : List (Nat × Nat) → Result
  | [] => rest
  | r :: rs => do
    checkRegion s r.1 r.2
    checkRegionsThen s rest rs

theorem checkRegionsThen_of_not_fits {s : State} {rest : Result} {rs : List (Nat × Nat)}
    (h : ∃ r ∈ rs, ¬ Fits s r.1 r.2) : checkRegionsThen s rest rs = .error .bounds := by
  induction rs with
  | nil => simp at h
  | cons r rs ih =>
    rw [checkRegionsThen, checkRegion_bind]
    split
    case isTrue hfit => exact ih (((List.exists_mem_cons_iff _ r rs).1 h).resolve_left (not_not.2 hfit))
    case isFalse => rfl

/-- The check of the operand values, and then the rest of the command. -/
def checkOperandsThen (rest : Result) : Option ResultCode → Result
  | none => rest
  | some c => .error c

theorem require_bind_eq_checkOperandsThen (p : Prop) [Decidable p] (c : ResultCode) (f : Unit → Result) :
    (require (decide p) c >>= f) = checkOperandsThen (f ()) (if p then none else some c) := by
  rw [require_bind]
  split <;> rfl

/-- Exec of every command checks its operand values, then the regions that its operands determine, in the
order of its format, and then does the rest (60_exceptions.md R343). -/
theorem exists_effectOf_eq_checks (i : Instr) (s : State) :
    ∃ rest, effectOf i s =
      checkOperandsThen (checkRegionsThen s rest (operandRegions i s)) (operandFault i s) := by
  cases i
  case cshake256 | kmacxof256 | kmac256 | fsqrt | pfromx | pkDec | symDec =>
    exact ⟨_, require_bind_eq_checkOperandsThen _ _ _⟩
  case bytepad =>
    have hfault : operandFault .bytepad s = if arg s 2 ≠ 0 then none else some .badArg :=
      (ite_not ..).symm
    rw [hfault]
    exact ⟨_, require_bind_eq_checkOperandsThen _ _ _⟩
  case encString =>
    have hlen : (encodeLeft (8 * arg s 1) ++ memRead s (arg s 0) (arg s 1)).length =
        (encodeLeft (8 * arg s 1)).length + arg s 1 := by
      rw [List.length_append, length_memRead]
    rw [operandRegions, ← hlen]
    exact ⟨_, rfl⟩
  all_goals exact ⟨_, rfl⟩

/-- Settles O30: by the checks with which every Exec begins. -/
theorem operandsThenRegionsAreChecked : Obligations.OperandsThenRegionsAreChecked := by
  unfold Obligations.OperandsThenRegionsAreChecked
  intro i s
  obtain ⟨rest, heff⟩ := exists_effectOf_eq_checks i s
  refine ⟨fun c hc => ?_, fun hnone hfit => ?_⟩
  · rw [hc] at heff
    exact exec_failsWith heff
  · rw [hnone] at heff
    exact exec_failsWith (heff.trans (checkRegionsThen_of_not_fits hfit))

/-! ### The codes a command can raise -/

/-- The codes that a computation can stop with are in a list. -/
def Raises {α : Type} (x : Except ResultCode α) (cs : List ResultCode) : Prop :=
  ∀ c, x = .error c → c ∈ cs

/-- A sequence raises what its parts raise. -/
theorem raises_bind_iff {α β : Type} {x : Except ResultCode α} {f : α → Except ResultCode β}
    {cs : List ResultCode} :
    Raises (x >>= f) cs ↔ Raises x cs ∧ ∀ a, x = .ok a → Raises (f a) cs := by
  cases x <;> simp [Raises]

section
variable {cs : List ResultCode}

theorem raises_ok {α : Type} (a : α) : Raises (.ok a) cs := nofun

theorem raises_require {b : Bool} {c : ResultCode} (h : c ∈ cs) : Raises (require b c) cs :=
  fun _ hd => (require_eq_error.1 hd).2 ▸ h

theorem raises_checkRegion {s : State} {a n : Nat} (h : .bounds ∈ cs) : Raises (checkRegion s a n) cs :=
  raises_require h

theorem raises_checkField {v : Nat} (h : .range ∈ cs) : Raises (checkField v) cs := raises_require h

theorem raises_checkPoint {p : Point} (h : .range ∈ cs) : Raises (checkPoint p) cs := raises_require h

theorem raises_fsqrt {v par : Nat} (h : .noSuchPoint ∈ cs) : Raises (fsqrt v par) cs :=
  fun _ hc => fsqrt_eq_error hc ▸ h

theorem raises_pointFromX {x par : Nat} (h : .noSuchPoint ∈ cs) : Raises (pointFromX x par) cs :=
  fun _ hc => pointFromX_eq_error hc ▸ h

theorem raises_padd {p q : Point} (h : .noInverse ∈ cs) : Raises (padd p q) cs :=
  fun _ hc => padd_eq_error hc ▸ h

theorem raises_pmul {Q : Point} {k : Nat} (h : .noInverse ∈ cs) : Raises (pmul Q k) cs :=
  fun _ hc => pmul_eq_error hc ▸ h

/-- A multiple of the base point of an accepted instance raises nothing (45_edwards.md R261, R265). -/
theorem raises_pmul_basePoint {p : Params} (hacc : paramsAccepted p = true) (k : Nat) :
    Raises (pmul p.basePoint k) cs := by
  obtain ⟨R, hR, -⟩ := pmul_basePoint hacc k
  rw [hR]
  nofun

end

/-- The codes of the table of R342 that list each command, beside OK (60_exceptions.md R342). -/
def raisedCodes : Instr → List ResultCode
  | .nop => []
  | .keccakf | .encString | .keygen | .sign => [.bounds]
  | .cshake256 | .kmacxof256 | .kmac256 => [.badLength, .bounds]
  | .encLeft | .encRight => [.bounds, .malformedInt]
  | .bytepad => [.badArg, .bounds]
  | .fadd | .fsub | .fmul | .fexp | .peq => [.bounds, .range]
  | .finv | .padd | .pmul => [.bounds, .range, .noInverse]
  | .fsqrt | .pfromx => [.badArg, .bounds, .range, .noSuchPoint]
  | .pkEnc => [.bounds, .noRnd, .range, .noInverse]
  | .pkDec => [.badLength, .bounds, .range, .noInverse, .authFail]
  | .verify => [.bounds, .range, .noInverse, .authFail]
  | .symEnc => [.bounds, .noRnd]
  | .symDec => [.badLength, .bounds, .authFail]

/-- Exec of a command on an accepted instance raises no other code: it is a sequence of checks and point
operations, each of which raises one code of the list. -/
theorem raises_effectOf (i : Instr) {s : State} (hacc : paramsAccepted s.params = true) :
    Raises (effectOf i s) (raisedCodes i) := by
  cases i <;>
    simp [effectOf, effectNop, effectKeccakf, effectCshake256, effectKmacxof256, effectKmac256,
      stringCommand, effectEncLeft, effectEncRight, encodeInteger, effectEncString, effectBytepad,
      effectFadd, effectFsub, effectFmul, fieldBinary, effectFinv, effectFexp, effectFsqrt,
      effectPadd, effectPmul, effectPfromx, effectPeq, effectKeygen, effectPkEnc, effectPkDec,
      effectSign, effectVerify, effectSymEnc, effectSymDec, pure, Except.pure, raisedCodes,
      raises_bind_iff, raises_ok, raises_require, raises_checkRegion, raises_checkField, raises_checkPoint,
      raises_fsqrt, raises_pointFromX, raises_padd, raises_pmul, raises_pmul_basePoint hacc, -bind_pure_comp]

/-- A completion shows OK or one of the codes of its command. -/
theorem rc_mem_of_exec {i : Instr} {s t : State} (hacc : paramsAccepted s.params = true)
    (h : exec i s = .next t) : t.rc ∈ .ok :: raisedCodes i := by
  obtain ⟨e, -, rfl⟩ | ⟨c, hc, rfl⟩ := exec_cases h
  · exact List.mem_cons_self
  · exact List.mem_cons_of_mem _ (raises_effectOf i hacc c hc)

/-- Settles O29: ERR by each code, and the table by the codes of each command. -/
theorem eachCodeComesFromItsCommands : Obligations.EachCodeComesFromItsCommands := by
  unfold Obligations.EachCodeComesFromItsCommands
  refine ⟨by decide, fun s => ?err, fun i s t hacc h => ?table⟩
  case err =>
    rw [State.errBit]
    cases s.rc <;> decide
  case table =>
    have hrc := rc_mem_of_exec hacc h
    revert hrc
    generalize t.rc = c
    revert c
    cases i <;> decide

/-! ### The interrupt line -/

/-- No completion changes what the host set up or the events to come (40_command.md R141). -/
theorem sameRegisters_complete (s : State) (r : Result) : SameRegisters s (s.complete r) := by
  cases r with
  | ok e => exact sameRegisters_commit s e
  | error c => exact sameRegisters_failWith s c

/-- Every completion raises irq where it is enabled, whatever its code (60_exceptions.md R352). -/
theorem irq_complete (s : State) (r : Result) : (s.complete r).irq = s.irqEn := by
  obtain ⟨-, hdone, -⟩ := complete_flags s r
  rw [State.irq, hdone, (sameRegisters_complete s r).irqEn, Bool.and_true]

/-- Settles O18: completions raise irq, and the three kinds of write leave it as DONE and IRQ_EN then are. -/
theorem irqFollowsDoneAndEnable : Obligations.IrqFollowsDoneAndEnable := by
  unfold Obligations.IrqFollowsDoneAndEnable
  refine ⟨fun i s t h => ?exec, fun s rest hacc hp hs => ?engine,
    fun s v rest => ⟨fun h hp => ?issue, fun h hbit => ?status, fun h hsrst => ?srst, fun h hsrst => ?ctrl⟩⟩
  case exec =>
    rw [exec_eq] at h
    cases h
    exact irq_complete s _
  case engine =>
    rw [step_engine_of_busy hacc hp hs, completionStep_eq]
    exact ⟨_, rfl, irq_complete _ _⟩
  case issue => exact ⟨_, (issueLatchesTheOperands s v rest h).1 hp, Bool.and_false _⟩
  case status =>
    have hstep := statusWriteClearsDoneAndWerr s v rest h
    rw [if_pos hbit] at hstep
    exact ⟨_, hstep, Bool.and_false _, rfl⟩
  case srst =>
    cases hp : s.phase with
    | idle =>
      obtain ⟨-, -, hsoft⟩ := resetGivesTheTableValues.2 s h.accepted
      obtain ⟨t, ht, hreset, -⟩ := hsoft v rest h hsrst hp
      exact ⟨t, ht, hreset.irq⟩
    | busy =>
      obtain ⟨t, ht, hreset, -⟩ := abortLosesOnlyTheDestination s v rest h hsrst hp
      exact ⟨t, ht, hreset.irq⟩
  case ctrl => exact ⟨_, ctrlWriteSetsInterruptEnable s v rest h hsrst, rfl, rfl⟩

/-! ### After a bus error -/

theorem quietTurn_of_stuck {s : State} {e : HostBusError} (hp : s.phase = .idle)
    (he : s.hostError = some e) : quietTurn s = .fault (.hostBusError e) := by
  simp only [quietTurn, hp, he]

/-- A recorded bus error stays, because no further access is taken (60_exceptions.md R347). -/
theorem step_hostError_of_stopped {s t : State} {e : HostBusError} (he : s.hostError = some e)
    (h : step s = .next t) : t.hostError = some e := by
  obtain ⟨-, u, hu, hcase⟩ := step_cases h
  have hkept : u.hostError = some e := by
    obtain rfl | ⟨-, -, hs⟩ := hu
    · exact he
    · rw [hs, he]
  obtain ⟨-, rfl⟩ | ⟨-, rfl⟩ | ⟨cs, -, rfl⟩ | ⟨a, -, hnone, -⟩ := hcase
  · exact (sameRegisters_complete u _).hostError.trans hkept
  · exact hkept
  · exact hkept
  · rw [he] at hnone
    cases hnone

/-- Settles O14: without a host access that can be taken, the step is the quiet turn, which is stuck in IDLE
and completes the command in BUSY. -/
theorem stoppedHostTakesNoStep : Obligations.StoppedHostTakesNoStep := by
  unfold Obligations.StoppedHostTakesNoStep
  refine fun s e hacc he => ⟨fun t => step_hostError_of_stopped he, fun a rest hs hp => ?_,
    fun hs hp => ?_, fun a rest hs hp => ?_⟩
  · rw [step_host_of_stopped hacc hs he, quietTurn_of_stuck hp he]
  · rw [step_of_no_event hacc hs, quietTurn_of_stuck hp he]
  · rw [step_host_of_stopped hacc hs he, quietTurn_of_busy hp, completionStep_eq]
    obtain ⟨hidle, hdone, -⟩ := complete_flags s (inFlightResult s)
    exact ⟨_, rfl, hidle, hdone, (sameRegisters_complete s _).schedule⟩

end Sys2Proof.Machine
